-- ==== Sys2Proof/Word.lean ====
section
/-! DEFINITION. The word types of HFC: spec/00_scope.md rule R8 (fixed widths). -/

namespace Sys2Proof

/-- A symbol, or one unit of a byte memory (R8: "a symbol is 8 bits"). -/
abbrev Byte := BitVec 8

/-- An entry of the frequency table (R8: "a count is 32 bits unsigned"). -/
abbrev Count := BitVec 32

/-- A node weight (R8: "a node weight is 40 bits unsigned"). -/
abbrev Weight := BitVec 40

/-- A node id (R8: "a node id is 9 bits"); 511 is the "none" value (V5). -/
abbrev NodeId := BitVec 9

/-- `INDEX` of a host transaction, and every 40-bit length or position (R8, R120). -/
abbrev Word40 := BitVec 40

/-- A codeword: an ordered bit sequence, first step from the root first (R44, R172). -/
abbrev Code := List Bool

end Sys2Proof
end

