-- ==== Sys2Proof/Config.lean ====
section
/-! DEFINITION. What an instance of HFC fixes: the open parameters `CAP` and `BIT_CAP`
(spec/00_scope.md rules R6, R7), their legal range and the reference values of the spec's vectors. -/

namespace Sys2Proof.Config

/-- Rule R6: `184 <= CAP <= 2^32 - 1`. Rule R7: `BIT_CAP` is a multiple of 8 and
`8*CAP <= BIT_CAP <= 2^40 - 8`. -/
def legal (cap bitCap : Nat) : Prop :=
  184 ≤ cap ∧ cap ≤ 2 ^ 32 - 1 ∧ 8 ∣ bitCap ∧ 8 * cap ≤ bitCap ∧ bitCap ≤ 2 ^ 40 - 8

/-- Rule R6: "Reference value used by the test vectors: `CAP = 65536`". A value of one instance
only, log 1. -/
def refCap : BitVec 32 := 65536

/-- Rule R7: "Reference value: `BIT_CAP = 8*CAP = 524288`". A value of one instance only, log 1. -/
def refBitCap : BitVec 40 := 524288

end Sys2Proof.Config
end

