-- ==== Sys2Proof/Syntax.lean ====
section
/-! DEFINITION. The instructions of HFC as syntax: the 13 commands (spec/30_encoding.md rule R101)
and the 10 kinds of host transaction (rule R122), the raw host transaction (rule R120), and the
control and status registers a transaction names (spec/10_state.md section 2). -/

namespace Sys2Proof

/-- The 17 control and status registers, spec/10_state.md section 2 (no. 0x00 to 0x10). -/
inductive Csr where
  | cmd | status | errInfo | errPos | ctrl
  | inLen | outLen | bitLen | payLen | pad | nsym | root
  | inPush | bitsPush | payPush | cap | bitCap
deriving DecidableEq, Repr

/-- A host transaction as presented at the port (rule R120): `HDR`, `INDEX`, `DATA`.
`DATA` is held at the width of the widest writable target, 40 bits (log 8); on a read it is absent
and nothing looks at it. -/
structure Txn where
  hdr   : Byte
  index : Word40
  data  : Word40
deriving DecidableEq, Repr

/-- One constructor per row of spec/opcode_table.json. A command has no operand (R100); a
transaction names a register number or a unit address `index`, and a write carries `data`. -/
inductive Instr where
  | nop | freq | tree | book | xlat | pack | unpack | ser | des | walk | encode | decode | clr
  | rdCsr (index : Word40)
  | wrCsr (index data : Word40)
  | rdIn (index : Word40)
  | rdOut (index : Word40)
  | rdFt (index : Word40)
  | wrFt (index data : Word40)
  | rdNode (index : Word40)
  | rdCb (index : Word40)
  | rdBits (index : Word40)
  | rdPay (index : Word40)
deriving DecidableEq, Repr

end Sys2Proof
end

