-- ==== Sys2Proof/Decode.lean ====
section
/-! DEFINITION. Encodings, spec/30_encoding.md sections 1 and 2: the opcode map of the command word
(R100, R101), the header map of a host transaction (R120 to R123), the numbers and widths of the
registers (spec/10_state.md section 2), and the encoder written from the same tables. -/

namespace Sys2Proof

/-- An encoded instruction: the 8 data bits of a write to `CMD` (format CMD8, R100), or a host
transaction (format TXN, R120). -/
inductive Encoded where
  | command (w : Byte)
  | txn (t : Txn)
deriving DecidableEq, Repr

/-- Why an encoding names no instruction: an illegal command word (R103) or an illegal `HDR`
value (R123). Neither stops the machine: R267 and R280 say what they do. -/
inductive DecodeError where
  | illegalCommand (w : Byte)
  | illegalHdr (hdr : Byte)
deriving DecidableEq, Repr

/-- Rule R101, as an 8-bit match under mask 0xFF; every other word is illegal (R103). -/
def decodeCommand (w : Byte) : Except DecodeError Instr :=
  if w = 0x00 then .ok .nop
  else if w = 0x01 then .ok .freq
  else if w = 0x02 then .ok .tree
  else if w = 0x03 then .ok .book
  else if w = 0x04 then .ok .xlat
  else if w = 0x05 then .ok .pack
  else if w = 0x06 then .ok .unpack
  else if w = 0x07 then .ok .ser
  else if w = 0x08 then .ok .des
  else if w = 0x09 then .ok .walk
  else if w = 0x0A then .ok .encode
  else if w = 0x0B then .ok .decode
  else if w = 0x0C then .ok .clr
  else .error (.illegalCommand w)

/-- Rule R122: the ten legal kinds, selected by `HDR` under mask 0xFF; every other value is an
illegal transaction (R123). -/
def decodeTxn (t : Txn) : Except DecodeError Instr :=
  if t.hdr = 0x00 then .ok (.rdCsr t.index)
  else if t.hdr = 0x80 then .ok (.wrCsr t.index t.data)
  else if t.hdr = 0x01 then .ok (.rdIn t.index)
  else if t.hdr = 0x02 then .ok (.rdOut t.index)
  else if t.hdr = 0x03 then .ok (.rdFt t.index)
  else if t.hdr = 0x83 then .ok (.wrFt t.index t.data)
  else if t.hdr = 0x04 then .ok (.rdNode t.index)
  else if t.hdr = 0x05 then .ok (.rdCb t.index)
  else if t.hdr = 0x06 then .ok (.rdBits t.index)
  else if t.hdr = 0x07 then .ok (.rdPay t.index)
  else .error (.illegalHdr t.hdr)

/-- The decoder: total on both formats. -/
def decode : Encoded → Except DecodeError Instr
  | .command w => decodeCommand w
  | .txn t => decodeTxn t

/-- The encoder, from the tables of R101 and R122. A read carries no data (R120); its data bits are
written as 0. -/
def encode : Instr → Encoded
  | .nop => .command 0x00
  | .freq => .command 0x01
  | .tree => .command 0x02
  | .book => .command 0x03
  | .xlat => .command 0x04
  | .pack => .command 0x05
  | .unpack => .command 0x06
  | .ser => .command 0x07
  | .des => .command 0x08
  | .walk => .command 0x09
  | .encode => .command 0x0A
  | .decode => .command 0x0B
  | .clr => .command 0x0C
  | .rdCsr i => .txn ⟨0x00, i, 0⟩
  | .wrCsr i d => .txn ⟨0x80, i, d⟩
  | .rdIn i => .txn ⟨0x01, i, 0⟩
  | .rdOut i => .txn ⟨0x02, i, 0⟩
  | .rdFt i => .txn ⟨0x03, i, 0⟩
  | .wrFt i d => .txn ⟨0x83, i, d⟩
  | .rdNode i => .txn ⟨0x04, i, 0⟩
  | .rdCb i => .txn ⟨0x05, i, 0⟩
  | .rdBits i => .txn ⟨0x06, i, 0⟩
  | .rdPay i => .txn ⟨0x07, i, 0⟩

/-- The byte that the opcode table matches: the command word, or `HDR`. -/
def Encoded.tableByte : Encoded → Byte
  | .command w => w
  | .txn t => t.hdr

/-- R261: is this transaction the read of STATUS (`HDR = 0x00` and `INDEX = 0x01`)? -/
def Txn.isStatusRead (t : Txn) : Bool := t.hdr == 0x00 && t.index == 0x01

/-- Register numbers, spec/10_state.md section 2; 0x11 and above name no register (R37). -/
def csrOf (index : Word40) : Option Csr :=
  if index = 0x00 then some .cmd
  else if index = 0x01 then some .status
  else if index = 0x02 then some .errInfo
  else if index = 0x03 then some .errPos
  else if index = 0x04 then some .ctrl
  else if index = 0x05 then some .inLen
  else if index = 0x06 then some .outLen
  else if index = 0x07 then some .bitLen
  else if index = 0x08 then some .payLen
  else if index = 0x09 then some .pad
  else if index = 0x0A then some .nsym
  else if index = 0x0B then some .root
  else if index = 0x0C then some .inPush
  else if index = 0x0D then some .bitsPush
  else if index = 0x0E then some .payPush
  else if index = 0x0F then some .cap
  else if index = 0x10 then some .bitCap
  else none

/-- The register's number, spec/10_state.md section 2. -/
def Csr.number : Csr → Word40
  | .cmd => 0x00 | .status => 0x01 | .errInfo => 0x02 | .errPos => 0x03 | .ctrl => 0x04
  | .inLen => 0x05 | .outLen => 0x06 | .bitLen => 0x07 | .payLen => 0x08 | .pad => 0x09
  | .nsym => 0x0A | .root => 0x0B | .inPush => 0x0C | .bitsPush => 0x0D | .payPush => 0x0E
  | .cap => 0x0F | .bitCap => 0x10

/-- The register's width in bits, spec/10_state.md section 2. -/
def Csr.width : Csr → Nat
  | .cmd => 8 | .status => 8 | .errInfo => 16 | .errPos => 40 | .ctrl => 8
  | .inLen => 32 | .outLen => 40 | .bitLen => 40 | .payLen => 40 | .pad => 3
  | .nsym => 9 | .root => 9 | .inPush => 8 | .bitsPush => 1 | .payPush => 8
  | .cap => 32 | .bitCap => 40

/-- A transaction whose bits are `w`, laid out as HDR in bits 7:0, INDEX in bits 47:8 and DATA in
bits 87:48. The table gives a row only its 8 bits of HDR; the places of the other two are the
model's (log 6). -/
def txnOfTableWord (w : Nat) : Txn :=
  ⟨BitVec.ofNat 8 w, BitVec.ofNat 40 (w >>> 8), BitVec.ofNat 40 (w >>> 48)⟩

/-- How many bits an encoding has as a table word: 8 for a command word (R100), 8 + 40 + 40 for a
transaction (R120, log 6). -/
def Encoded.tableBits : Encoded → Nat
  | .command _ => 8
  | .txn _ => 88

/-- An encoding as a table word, the inverse of `txnOfTableWord` on transactions (log 6). -/
def Encoded.tableWord : Encoded → Nat
  | .command w => w.toNat
  | .txn t => t.hdr.toNat + t.index.toNat * 2 ^ 8 + t.data.toNat * 2 ^ 48

/-- The same encoding with the data of a read, which is absent (R120), written as 0. -/
def Encoded.canonical : Encoded → Encoded
  | .command w => .command w
  | .txn t => .txn { t with data := if t.hdr.getLsbD 7 then t.data else 0 }

/-- The instruction the decoder reads from a table word. The words 0x00 to 0x07 stand in the table
twice, once as a command and once as a transaction header: a word of 8 bits is read as a command
word first, and as a header if it is no command (log 5). A longer word is a transaction. -/
def decodeTableWord (nbits w : Nat) : Option Instr :=
  if nbits ≤ 8 then
    match decodeCommand (BitVec.ofNat 8 w) with
    | .ok i => some i
    | .error _ => (decodeTxn (txnOfTableWord w)).toOption
  else (decodeTxn (txnOfTableWord w)).toOption

end Sys2Proof
end

