-- ==== Sys2Proof/Machine/State.lean ====
section
/-! DEFINITION. The state of one HFC instance as plain data (spec/10_state.md), the outcomes of a
command's stage, the faults and refusals of the machine, and the state after reset (rule R53). -/

namespace Sys2Proof.Machine

/-- The kind of a command's error, `STATUS.ERR` (R22, spec/60_exceptions.md R301). Codes 4 to 7
"never occur" and have no constructor. -/
inductive ErrKind where
  | none | formatError | usageError | capacityError
deriving DecidableEq, Repr

/-- The cause of a command's error, `ERRINFO.CAUSE` (R23, R302): "No other cause value is ever
produced". -/
inductive Cause where
  | none | trunc | badNsym | badOrder | zeroCount | badPad | padNoPayload | emptyWithPayload
  | midPath | badBit | noTree | badOpcode | noCode | bitsFull
deriving DecidableEq, Repr

/-- The primitive stage being run, `PHASE` (R39); `idle` is its value 0. -/
inductive Phase where
  | idle | freq | tree | book | xlat | pack | unpack | ser | des | walk
deriving DecidableEq, Repr

/-- `STATUS` (R22). Bits 7:6 are reserved and hold nothing. -/
structure Status where
  busy : Bool
  done : Bool
  err  : ErrKind
  herr : Bool
deriving DecidableEq, Repr

/-- `ERRINFO` (R23). Bits 15:12 are reserved and hold nothing. -/
structure ErrInfo where
  cause : Cause
  phase : Phase
deriving DecidableEq, Repr

/-- `CTRL` (R25). Bits 7:1 are reserved and hold nothing. -/
structure Ctrl where
  ie : Bool
deriving DecidableEq, Repr

/-- An entry of the node store (R42): weight, left and right child id. -/
structure Node where
  w : Weight
  l : NodeId
  r : NodeId
deriving DecidableEq, Repr

/-- R42: "An unused slot holds `W = 0, L = 511, R = 511`." -/
def Node.unused : Node := ⟨0, 511, 511⟩

/-- `FT`, the frequency table: 256 counters (R40). -/
abbrev FreqTable := Vector Count 256

/-- `NODE`, the node store: 511 slots (R42). -/
abbrev NodeStore := Vector Node 511

/-- `CB`, the codebook: 256 codes (R44). `LEN` is the length of the code, `""` means no code. -/
abbrev CodeBook := Vector Code 256

/-- The triple (`NODE`, `ROOT`, `NSYM`) that TREE writes (R43, R151). -/
structure Tree where
  node : NodeStore
  root : NodeId
  nsym : BitVec 9
deriving DecidableEq, Repr

/-- `RDATA`: a value with the width of the target it was read from (R120). -/
structure RData where
  width : Nat
  bits  : BitVec width
deriving DecidableEq, Repr

/-- The answer to an accepted transaction (R120): `RESP = OK` without data, `RESP = OK` with
`RDATA`, or `RESP = ERR` (R280). -/
inductive Answer where
  | ok
  | data (d : RData)
  | err
deriving DecidableEq, Repr

/-- What the host does at the outside of HFC: it presents a transaction (R261), or asserts the
reset input (R350). -/
inductive HostEvent where
  | present (t : Txn)
  | assertReset
deriving DecidableEq, Repr

/-- The state of one instance: the 17 registers (R21 to R37), the register files FT, NODE, CB
(R40 to R45), the memories IN, OUT, BITS, PAY (R46 to R49), the hidden PHASE (R39), and the host
port. A memory is the sequence of its valid units, its length register is the sequence's length
(R26 to R29, R46 to R49, log 11). `irq` (R51) is computed from it, Machine/Flags.lean. -/
structure State where
  /-- `CMD`, R21 -/
  cmd     : Byte
  /-- `STATUS`, R22 -/
  status  : Status
  /-- `ERRINFO`, R23 -/
  errInfo : ErrInfo
  /-- `ERRPOS`, R24 -/
  errPos  : Word40
  /-- `CTRL`, R25 -/
  ctrl    : Ctrl
  /-- `IN[0..IN_LEN)`, R26, R46 -/
  inMem   : List Byte
  /-- `OUT[0..OUT_LEN)`, R27, R47 -/
  outMem  : List Byte
  /-- `BITS[0..BIT_LEN)`, R28, R48 -/
  bits    : List Bool
  /-- `PAY[0..PAY_LEN)`, R29, R49 -/
  pay     : List Byte
  /-- `PAD`, R30 -/
  pad     : BitVec 3
  /-- `NSYM`, R31 -/
  nsym    : BitVec 9
  /-- `ROOT`, R32 -/
  root    : NodeId
  /-- `CAP`, R36: the parameter, which no operation writes (log 1) -/
  cap     : BitVec 32
  /-- `BIT_CAP`, R36: the parameter, which no operation writes (log 1) -/
  bitCap  : Word40
  /-- `PHASE`, hidden, R39 -/
  phase   : Phase
  /-- `FT`, R40 -/
  ft      : FreqTable
  /-- `NODE`, R42 -/
  node    : NodeStore
  /-- `CB`, R44 -/
  cb      : CodeBook
  /-- `RESP` and `RDATA` of the transaction accepted last, R120 (log 9) -/
  answer  : Option Answer
  /-- what the host presents, oldest first (log 4) -/
  port    : List HostEvent
  /-- free: for each step while BUSY = 1, is the command still at work (R370, log 3)? -/
  pace    : List Bool
deriving DecidableEq, Repr

/-- The tree held in NODE (R43). -/
def State.tree (s : State) : Tree := ⟨s.node, s.root, s.nsym⟩

/-- An error a stage raises: `raise Kind(cause, pos)` (R305). -/
structure Raise where
  kind  : ErrKind
  cause : Cause
  pos   : Nat
deriving DecidableEq, Repr

/-- How a stage ends (R300): without error, or with a raise; the state beside the raise holds what
the stage had written up to it (R306). -/
inductive StageResult where
  | done (s : State)
  | raised (s : State) (e : Raise)
deriving DecidableEq, Repr

/-- Why the machine stops. HFC never stops: an illegal transaction is refused by the port and an
illegal command word completes with an error, both of which are next states (R267, R280, R281),
and every command completes (R368). So no constructor is needed (log 15, safe). -/
inductive Fault where
deriving DecidableEq, Repr

/-- Why an instruction has no meaning in the model. -/
inductive Refusal where
  /-- Raised by an arm of `exec` whose instruction has no meaning yet; no arm is one. Safe. -/
  | notModelled (mnemonic : String)
deriving DecidableEq, Repr

/-- The state after reset of an instance with the parameters `cap` and `bitCap` (R53). -/
def State.resetWith (cap : BitVec 32) (bitCap : Word40) : State where
  cmd     := 0x00
  status  := ⟨false, false, .none, false⟩
  errInfo := ⟨.none, .idle⟩
  errPos  := 0
  ctrl    := ⟨false⟩
  inMem   := []
  outMem  := []
  bits    := []
  pay     := []
  pad     := 0
  nsym    := 0
  root    := 511
  cap     := cap
  bitCap  := bitCap
  phase   := .idle
  ft      := Vector.replicate 256 0
  node    := Vector.replicate 511 Node.unused
  cb      := Vector.replicate 256 []
  answer  := none
  port    := []
  pace    := []

/-- The state after reset, with the reference parameters of R6 and R7 (log 1). -/
def State.reset : State := State.resetWith Config.refCap Config.refBitCap

end Sys2Proof.Machine
end

