-- ==== Sys2Proof/Machine/Flags.lean ====
section
/-! DEFINITION. The flags and codes of HFC: the words that STATUS, ERRINFO and CTRL read as, the
codes of kinds, causes and phases, and the output `irq` (spec/10_state.md R22 to R25, R39, R51;
spec/60_exceptions.md R301, R302). No arithmetic condition code exists (R22). -/

namespace Sys2Proof.Machine

/-- Codes of `STATUS.ERR` (R301). -/
def ErrKind.code : ErrKind → BitVec 3
  | .none => 0 | .formatError => 1 | .usageError => 2 | .capacityError => 3

/-- Codes of `ERRINFO.CAUSE` (R302). -/
def Cause.code : Cause → BitVec 8
  | .none => 0x00 | .trunc => 0x01 | .badNsym => 0x02 | .badOrder => 0x03 | .zeroCount => 0x04
  | .badPad => 0x05 | .padNoPayload => 0x06 | .emptyWithPayload => 0x07 | .midPath => 0x08
  | .badBit => 0x09 | .noTree => 0x0A | .badOpcode => 0x10 | .noCode => 0x11 | .bitsFull => 0x20

/-- Codes of `PHASE`, the primitive's opcode (R39). -/
def Phase.code : Phase → BitVec 4
  | .idle => 0 | .freq => 1 | .tree => 2 | .book => 3 | .xlat => 4 | .pack => 5 | .unpack => 6
  | .ser => 7 | .des => 8 | .walk => 9

/-- The kind each cause belongs to (R302). -/
def Cause.kind : Cause → ErrKind
  | .none => .none
  | .trunc | .badNsym | .badOrder | .zeroCount | .badPad | .padNoPayload | .emptyWithPayload
  | .midPath | .badBit | .noTree => .formatError
  | .badOpcode | .noCode => .usageError
  | .bitsFull => .capacityError

/-- `STATUS` as read (R22): bits 7:6 zero, HERR 5, ERR 4:2, DONE 1, BUSY 0. -/
def Status.word (t : Status) : BitVec 8 :=
  (0 : BitVec 2) ++ BitVec.ofBool t.herr ++ t.err.code ++ BitVec.ofBool t.done ++
    BitVec.ofBool t.busy

/-- `ERRINFO` as read (R23): bits 15:12 zero, PHASE 11:8, CAUSE 7:0. -/
def ErrInfo.word (e : ErrInfo) : BitVec 16 :=
  (0 : BitVec 4) ++ e.phase.code ++ e.cause.code

/-- `CTRL` as read (R25): bits 7:1 zero, IE 0. -/
def Ctrl.word (c : Ctrl) : BitVec 8 := (0 : BitVec 7) ++ BitVec.ofBool c.ie

/-- R51: "`irq = STATUS.DONE and CTRL.IE` at all times". -/
def State.irq (s : State) : Bool := s.status.done && s.ctrl.ie

/-- A host write of `d` to STATUS (R22): DONE and HERR are cleared where a 1 is written, "all other
data bits are ignored". -/
def Status.writeOneToClear (t : Status) (d : Word40) : Status :=
  { t with
    done := if d.getLsbD 1 then false else t.done
    herr := if d.getLsbD 5 then false else t.herr }

/-- STATUS at the start of a command (R262): HERR is unchanged. -/
def Status.started (t : Status) : Status := { t with busy := true, done := false, err := .none }

/-- STATUS at a command's completion (R263). -/
def Status.completed (t : Status) : Status := { t with busy := false, done := true }

end Sys2Proof.Machine
end

