-- ==== Sys2Proof/Machine/Ops.lean ====
section
/-! DEFINITION. The shared operations: memories as sequences (append, truncate), fixed-length tables,
bit and byte order, the life cycle of a command (start R262, stage R39, completion R263, error
completion R305), the answers of the port (R120, R280), holding (R261) and reset (R350). -/

namespace Sys2Proof.Machine

/-! ### Memories and tables -/

/-- A push register (R33, R34, R35): append at the length if it is below the capacity; otherwise
the transaction is illegal (`none`). -/
def push {α : Type} (mem : List α) (capacity : Nat) (x : α) : Option (List α) :=
  if mem.length < capacity then some (mem ++ [x]) else none

/-- A write-truncate (R26): the units at and above `v` are forgotten; above the length the
transaction is illegal (`none`). -/
def truncate {α : Type} (mem : List α) (v : Nat) : Option (List α) :=
  if v ≤ mem.length then some (mem.take v) else none

/-- The table of `n` entries whose entry `i` is `f i`. -/
def tabulate {α : Type} (n : Nat) (f : Nat → α) : Vector α n :=
  ⟨⟨(List.range n).map f⟩, by simp⟩

/-- The table of `n` entries that begins with `xs` and goes on with `d`. -/
def padTo {α : Type} (n : Nat) (d : α) (xs : List α) : Vector α n :=
  ⟨⟨(xs ++ List.replicate (n - xs.length) d).take n⟩, by simp; omega⟩

/-- `PAY_CAP = BIT_CAP / 8` (R7). -/
def State.payCap (s : State) : Nat := s.bitCap.toNat / 8

/-- A memory as the list of its (address, unit) cells; the length register bounds it (R46). -/
def cells {α : Type} (mem : List α) : List (Nat × α) := mem.zipIdx.map (fun c => (c.2, c.1))

/-- The form every memory keeps: no length passes its capacity (R26 to R29, R46 to R49). With the
sequence form (log 11) addresses are the positions, so equal memories are equal lists. -/
def Memory.wf (s : State) : Bool :=
  decide (s.inMem.length ≤ s.cap.toNat) && decide (s.outMem.length ≤ s.bitCap.toNat) &&
    decide (s.bits.length ≤ s.bitCap.toNat) && decide (s.pay.length ≤ s.payCap)

/-! ### Bits and bytes -/

/-- spec/00_scope.md section 5.1: `ceil8(n) = (n + 7) div 8`. -/
def ceil8 (n : Nat) : Nat := (n + 7) / 8

/-- A bit sequence as a number, first bit most significant. -/
def bitsToNat (bs : List Bool) : Nat := bs.foldl (fun y b => 2 * y + b.toNat) 0

/-- R72: "Bit order inside a byte is most-significant-bit first". -/
def bitsToByte (bs : List Bool) : Byte := BitVec.ofNat 8 (bitsToNat bs)

/-- The eight bits of a byte, most significant first (R72). -/
def byteBits (b : Byte) : List Bool :=
  [b.getLsbD 7, b.getLsbD 6, b.getLsbD 5, b.getLsbD 4,
   b.getLsbD 3, b.getLsbD 2, b.getLsbD 1, b.getLsbD 0]

/-- `BE16(v) = [v[15:8], v[7:0]]` (section 5.1, R73). -/
def bytesBE16 (v : BitVec 16) : List Byte := [v.extractLsb' 8 8, v.extractLsb' 0 8]

/-- `BE32(v)` (section 5.1, R73). -/
def bytesBE32 (v : BitVec 32) : List Byte :=
  [v.extractLsb' 24 8, v.extractLsb' 16 8, v.extractLsb' 8 8, v.extractLsb' 0 8]

/-- `be16(b0,b1) = 256*b0 + b1` (section 5.1). -/
def be16 (b0 b1 : Byte) : Nat := 256 * b0.toNat + b1.toNat

/-- `be32(b0,b1,b2,b3) = 2^24*b0 + 2^16*b1 + 2^8*b2 + b3` (section 5.1). -/
def be32 (b0 b1 b2 b3 : Byte) : Nat :=
  2 ^ 24 * b0.toNat + 2 ^ 16 * b1.toNat + 2 ^ 8 * b2.toNat + b3.toNat

/-! ### Life cycle of a command -/

/-- The stage a command begins with (R39): a primitive's own, FREQ in ENCODE, DES in DECODE;
"0 when idle and during NOP, CLR and illegal opcodes". -/
def firstPhase (w : Byte) : Phase :=
  match decodeCommand w with
  | .ok .freq | .ok .encode => .freq
  | .ok .tree => .tree
  | .ok .book => .book
  | .ok .xlat => .xlat
  | .ok .pack => .pack
  | .ok .unpack => .unpack
  | .ok .ser => .ser
  | .ok .des | .ok .decode => .des
  | .ok .walk => .walk
  | _ => .idle

/-- Command start (R262): the write to CMD with data `w`. -/
def State.start (w : Byte) (s : State) : State :=
  { s with
    cmd := w
    status := s.status.started
    errInfo := ⟨.none, .idle⟩
    errPos := 0
    phase := firstPhase w }

/-- The sequencer enters a stage (R39). -/
def State.enter (p : Phase) (s : State) : State := { s with phase := p }

/-- Command completion without error (R263). -/
def State.complete (s : State) : State :=
  { s with status := s.status.completed, phase := .idle }

/-- Error completion (R305, R263): the record is the kind, the cause, the phase of the stage that
raised, and the position; nothing else is saved and control goes nowhere. There is no return from
it (R307). -/
def State.raise (e : Raise) (s : State) : State :=
  { s with
    status := { s.status.completed with err := e.kind }
    errInfo := ⟨e.cause, s.phase⟩
    errPos := BitVec.ofNat 40 e.pos
    phase := .idle }

/-- The end of a command: R263, with R305 where a stage raised. -/
def StageResult.finish : StageResult → State
  | .done s => s.complete
  | .raised s e => s.raise e

/-- Stages in order, each entered as its PHASE, "stopping at the first `raise`" (R220, R250). -/
def runStages : List (Phase × (State → StageResult)) → State → StageResult
  | [], s => .done s
  | (p, stage) :: rest, s =>
    match stage (s.enter p) with
    | .done s' => runStages rest s'
    | .raised s' e => .raised s' e

/-- A command from its start to its completion: `word` is its command word, `body` its
pseudocode. In a state where the command has been started already the start changes nothing
(log 7). -/
def command (word : Byte) (body : State → StageResult) (s : State) :
    Host.Outcome State Fault Refusal :=
  .next (body (s.start word)).finish

/-! ### The host port -/

/-- A command write, or any legal write, is answered `OK` (R262, R271). -/
def State.answerOk (s : State) : State := { s with answer := some .ok }

/-- A legal read is answered `OK` with its data (R270 to R277). -/
def State.answerData (d : RData) (s : State) : State := { s with answer := some (.data d) }

/-- An illegal transaction (R280): `RESP <- ERR`, `STATUS.HERR <- 1`, "Nothing else changes". -/
def State.refuse (s : State) : State :=
  { s with answer := some .err, status := { s.status with herr := true } }

/-- The answer to a read whose data is `d`, `none` where the read is illegal. -/
def State.reply (d : Option RData) (s : State) : State :=
  match d with
  | some d => s.answerData d
  | none => s.refuse

/-- The outcome of a write whose effect is `t`, `none` where the write is illegal. -/
def State.settle (t : Option State) (s : State) : State :=
  match t with
  | some t => t.answerOk
  | none => s.refuse

/-- R261: while `BUSY = 1` everything but a read of STATUS is held. -/
def State.holds (statusRead : Bool) (s : State) : Bool := s.status.busy && !statusRead

/-- R261: a transaction that is held "is not accepted, has no effect yet" (R82); one that is
accepted is performed at once. -/
def transact (statusRead : Bool) (perform : State → State) (s : State) :
    Host.Outcome State Fault Refusal :=
  if s.holds statusRead then .next s else .next (perform s)

/-! ### Reset -/

/-- R350: the whole state takes the values of R53 at once, the parameters stay; what the host does
next (`rest`) and the free `pace` belong to the outside and stay (log 10). -/
def State.assertReset (rest : List HostEvent) (s : State) : State :=
  { State.resetWith s.cap s.bitCap with port := rest, pace := s.pace }

end Sys2Proof.Machine
end

