-- ==== Sys2Proof/Machine/Operands.lean ====
section
/-! DEFINITION. The operand forms: how a transaction reads or writes the unit or entry it names
(spec/30_encoding.md section 3, spec/46_control.md R270, R271), and how a command reads an entry of
FT, NODE or CB. `none` says that the access is illegal. -/

namespace Sys2Proof.Machine

/-! ### Entries as a command reads them -/

/-- `FT[s]` for a symbol. -/
def ftAt (t : FreqTable) (s : Byte) : Count := t[s.toNat]

/-- `CB[s]` for a symbol. -/
def cbAt (cb : CodeBook) (s : Byte) : Code := cb[s.toNat]

/-- `NODE[i]`; 511 and above are no entry (V5) and read as an unused slot, which no run asks for
(R245, log 13). -/
def nodeAt (n : NodeStore) (i : Nat) : Node := if h : i < 511 then n[i] else Node.unused

/-- `FT[s] <- c`. -/
def ftSet (t : FreqTable) (s : Byte) (c : Count) : FreqTable := t.set s.toNat c

/-! ### Entries as the host reads them -/

/-- R126: bits 39:0 `W`, bits 48:40 `L`, bits 57:49 `R`. -/
def Node.word (n : Node) : BitVec 58 := n.r ++ n.l ++ n.w

/-- R127: bits 7:0 `LEN`, bits 262:8 the code, left-aligned, first bit highest. -/
def codeWord (c : Code) : BitVec 263 :=
  BitVec.ofNat 255 (bitsToNat c * 2 ^ (255 - c.length)) ++ BitVec.ofNat 8 c.length

/-- One byte of a byte memory below its length (R128, R272, R277). -/
def readByte (mem : List Byte) (index : Word40) : Option RData :=
  mem[index.toNat]?.map (fun b => ⟨8, b⟩)

/-- One bit of the bit memory below its length (R128, R277). -/
def readBit (mem : List Bool) (index : Word40) : Option RData :=
  mem[index.toNat]?.map (fun b => ⟨1, BitVec.ofBool b⟩)

/-- R273: `FT[INDEX]`, legal iff `INDEX <= 255`. -/
def readFt (t : FreqTable) (index : Word40) : Option RData :=
  t[index.toNat]?.map (fun c => ⟨32, c⟩)

/-- R275: `NODE[INDEX]`, legal iff `INDEX <= 510`. -/
def readNode (n : NodeStore) (index : Word40) : Option RData :=
  n[index.toNat]?.map (fun e => ⟨58, e.word⟩)

/-- R276: `CB[INDEX]`, legal iff `INDEX <= 255`. -/
def readCb (cb : CodeBook) (index : Word40) : Option RData :=
  cb[index.toNat]?.map (fun e => ⟨263, codeWord e⟩)

/-- R270, by register: its value at its own width; the push registers are write-only. -/
def readCsr (c : Csr) (s : State) : Option RData :=
  match c with
  | .cmd => some ⟨8, s.cmd⟩
  | .status => some ⟨8, s.status.word⟩
  | .errInfo => some ⟨16, s.errInfo.word⟩
  | .errPos => some ⟨40, s.errPos⟩
  | .ctrl => some ⟨8, s.ctrl.word⟩
  | .inLen => some ⟨32, BitVec.ofNat 32 s.inMem.length⟩
  | .outLen => some ⟨40, BitVec.ofNat 40 s.outMem.length⟩
  | .bitLen => some ⟨40, BitVec.ofNat 40 s.bits.length⟩
  | .payLen => some ⟨40, BitVec.ofNat 40 s.pay.length⟩
  | .pad => some ⟨3, s.pad⟩
  | .nsym => some ⟨9, s.nsym⟩
  | .root => some ⟨9, s.root⟩
  | .cap => some ⟨32, s.cap⟩
  | .bitCap => some ⟨40, s.bitCap⟩
  | .inPush | .bitsPush | .payPush => none

/-- R270: the register that `index` names, if any (R37). -/
def readCsrAt (index : Word40) (s : State) : Option RData :=
  (csrOf index).bind (fun c => readCsr c s)

/-! ### Entries as the host writes them -/

/-- R271, by register: the state after a legal write. Data above a register's width is ignored
where the register takes only its low bits, and is refused in a length or `PAD` (U9). -/
def writeCsr (c : Csr) (data : Word40) (s : State) : Option State :=
  match c with
  | .cmd => some (s.start (data.setWidth 8))
  | .status => some { s with status := s.status.writeOneToClear data }
  | .ctrl => some { s with ctrl := ⟨data.getLsbD 0⟩ }
  | .inLen => (truncate s.inMem data.toNat).map (fun m => { s with inMem := m })
  | .bitLen => (truncate s.bits data.toNat).map (fun m => { s with bits := m })
  | .payLen => (truncate s.pay data.toNat).map (fun m => { s with pay := m })
  | .pad => if data.toNat ≤ 7 then some { s with pad := data.setWidth 3 } else none
  | .inPush =>
    (push s.inMem s.cap.toNat (data.setWidth 8)).map (fun m => { s with inMem := m })
  | .bitsPush =>
    (push s.bits s.bitCap.toNat (data.getLsbD 0)).map (fun m => { s with bits := m })
  | .payPush =>
    (push s.pay s.payCap (data.setWidth 8)).map (fun m => { s with pay := m })
  | .errInfo | .errPos | .outLen | .nsym | .root | .cap | .bitCap => none

/-- R271: the register that `index` names, if any (R37). -/
def writeCsrAt (index data : Word40) (s : State) : Option State :=
  (csrOf index).bind (fun c => writeCsr c data s)

/-- R274: `FT[INDEX] <- DATA[31:0]`, legal iff `INDEX <= 255`. -/
def writeFt (index data : Word40) (s : State) : Option State :=
  if h : index.toNat < 256 then
    some { s with ft := s.ft.set index.toNat (data.setWidth 32) h }
  else none

end Sys2Proof.Machine
end

