-- ==== Sys2Proof/Machine/Book.lean ====
section
/-! DEFINITION. CodeBookGenerator, command BOOK: spec/42_book.md R170 to R174. -/

namespace Sys2Proof.Machine

/-- R171's `visit(i, p)`, with `n` the node store: the leaves below node `i` and their paths,
left before right. `fuel` bounds the depth: no path passes 255 steps (R162, R175). Id 511 is no
node and has no leaf below it (log 13). -/
def visit (n : NodeStore) : Nat → Nat → Code → List (Nat × Code)
  | 0, _, _ => []
  | fuel + 1, i, p =>
    if i < 256 then [(i, p)]
    else if i < 511 then
      visit n fuel (nodeAt n i).l.toNat (p ++ [false]) ++
        visit n fuel (nodeAt n i).r.toNat (p ++ [true])
    else []

/-- The leaves of a tree and their codes: none for the empty tree (R174), the code "0" for a lone
leaf (R173), else the visit from the root. -/
def leafCodes (t : Tree) : List (Nat × Code) :=
  if t.nsym = 0 then []
  else if t.nsym = 1 then [(t.root.toNat, [false])]
  else visit t.node 256 t.root.toNat []

/-- R171: `book(NODE, ROOT, NSYM)`; a symbol that is no leaf has no code. "Each leaf is visited
exactly once" (R172), so the order of the writes does not matter. -/
def book (t : Tree) : CodeBook :=
  let cs := leafCodes t
  tabulate 256 (fun s => (cs.lookup s).getD [])

/-- R170: `CB <- book(NODE, ROOT, NSYM)`. -/
def stageBook (s : State) : StageResult := .done { s with cb := book s.tree }

/-- R170. -/
def execBook (s : State) : Host.Outcome State Fault Refusal :=
  command 0x03 (runStages [(.book, stageBook)]) s

end Sys2Proof.Machine
end

