-- ==== Sys2Proof/Machine/Control.lean ====
section
/-! DEFINITION. The control commands NOP and CLR and the illegal command word,
spec/46_control.md R265 to R267. -/

namespace Sys2Proof.Machine

/-- R265: "nothing between start (rule R262) and completion (rule R263)". -/
def execNop (s : State) : Host.Outcome State Fault Refusal := command 0x00 (runStages []) s

/-- R266: all data state to its reset value, `STATUS.HERR <- 0`, `CMD <- 0x00`; `CTRL`, `CAP` and
`BIT_CAP` stay. -/
def stageClear (s : State) : StageResult :=
  .done { s with
    cmd := 0x00
    status := { s.status with herr := false }
    inMem := []
    outMem := []
    bits := []
    pay := []
    pad := 0
    nsym := 0
    root := 511
    ft := Vector.replicate 256 0
    node := Vector.replicate 511 Node.unused
    cb := Vector.replicate 256 [] }

/-- R266. CLR has no primitive stage: its PHASE is 0 (R39). -/
def execClr (s : State) : Host.Outcome State Fault Refusal := command 0x0C stageClear s

/-- R267: any of the 243 illegal words `w`: `raise UsageError(BAD_OPCODE, 0)` immediately after the
start, with PHASE 0; "`CMD` keeps the illegal word". -/
def illegalCommand (w : Byte) (s : State) : Host.Outcome State Fault Refusal :=
  command w (fun s => .raised s ⟨.usageError, .badOpcode, 0⟩) s

end Sys2Proof.Machine
end

