-- ==== Sys2Proof/Machine/Packer.lean ====
section
/-! DEFINITION. BitPacker and BitUnpacker, commands PACK and UNPACK: spec/43_pack_unpack.md
R180, R181, R185 to R187. -/

namespace Sys2Proof.Machine

/-- R180: `PAD <- (8 - n mod 8) mod 8`. -/
def padCount (n : Nat) : Nat := (8 - n % 8) % 8

/-- The first `n` bytes of a bit sequence, eight bits each, most significant first (R72). -/
def packBytes : Nat → List Bool → List Byte
  | 0, _ => []
  | n + 1, bs => bitsToByte (bs.take 8) :: packBytes n (bs.drop 8)

/-- R181: `pack(S)`, with `S' = S ++ "0" * p`. -/
def pack (bs : List Bool) : List Byte × BitVec 3 :=
  let p := padCount bs.length
  (packBytes (ceil8 bs.length) (bs ++ List.replicate p false), BitVec.ofNat 3 p)

/-- R186: `unpack(P, p)`: all bits of all bytes, the last `p` of them dropped unexamined (R187). -/
def unpack (bytes : List Byte) (p : BitVec 3) : Except Raise (List Bool) :=
  if bytes = [] then
    if p = 0 then .ok [] else .error ⟨.formatError, .padNoPayload, 0⟩
  else .ok ((bytes.flatMap byteBits).take (8 * bytes.length - p.toNat))

/-- R180: `(PAY[0..PAY_LEN), PAD) <- pack(BITS[0..BIT_LEN))`. -/
def stagePack (s : State) : StageResult :=
  let r := pack s.bits
  .done { s with pay := r.1, pad := r.2 }

/-- R185: `BITS[0..BIT_LEN) <- unpack(PAY[0..PAY_LEN), PAD)`; after a raise `BIT_LEN = 0`. -/
def stageUnpack (s : State) : StageResult :=
  match unpack s.pay s.pad with
  | .ok bs => .done { s with bits := bs }
  | .error e => .raised { s with bits := [] } e

/-- R180. -/
def execPack (s : State) : Host.Outcome State Fault Refusal :=
  command 0x05 (runStages [(.pack, stagePack)]) s

/-- R185. -/
def execUnpack (s : State) : Host.Outcome State Fault Refusal :=
  command 0x06 (runStages [(.unpack, stageUnpack)]) s

end Sys2Proof.Machine
end

