-- ==== Sys2Proof/Machine/TreeBuilder.lean ====
section
/-! DEFINITION. TreeBuilder, command TREE: spec/41_tree.md R150 to R157. -/

namespace Sys2Proof.Machine

/-- A member of the priority collection: (weight, node id) (R153). -/
abbrev QItem := Nat × Nat

/-- R153: "smaller weight first; among equal weights, smaller node id first". -/
def QItem.before (x y : QItem) : Bool := x.1 < y.1 || (x.1 == y.1 && x.2 < y.2)

/-- R153: `insert(Q, x)`. The collection is kept in the order of `before`, so `extract_min` is
its head. -/
def insertQ (x : QItem) : List QItem → List QItem
  | [] => [x]
  | y :: ys => if QItem.before x y then x :: y :: ys else y :: insertQ x ys

/-- The present symbols with their counts, in ascending symbol value (R151, R152). -/
def presentSymbols (t : FreqTable) : List QItem :=
  t.toList.zipIdx.filterMap (fun c => if c.1 = 0 then none else some (c.1.toNat, c.2))

/-- R152: one Leaf per present symbol, inserted in ascending symbol value. -/
def seedQ (t : FreqTable) : List QItem := (presentSymbols t).foldl (fun q x => insertQ x q) []

/-- R151: `NODE[id] <- (W = wa + wb, L = a, R = b)`, the first extracted on the left (R154). -/
def joinNodes (a b : QItem) : Node :=
  ⟨BitVec.ofNat 40 (a.1 + b.1), BitVec.ofNat 9 a.2, BitVec.ofNat 9 b.2⟩

/-- R151's loop: while two members are left, take the two least, join them as node `256 + k`, and
insert the new node. It gives the Internal nodes in creation order and the root (511 if the
collection is empty). `fuel` bounds the rounds; the members themselves are enough (R157). -/
def mergeLoop : Nat → Nat → List QItem → List Node × NodeId
  | fuel + 1, k, a :: b :: q =>
    let rest := mergeLoop fuel (k + 1) (insertQ (a.1 + b.1, 256 + k) q)
    (joinNodes a b :: rest.1, rest.2)
  | _, _, r :: _ => ([], BitVec.ofNat 9 r.2)
  | _, _, [] => ([], 511)

/-- The leaf slot of a symbol with count `c`; count 0 leaves it unused (R42, R152). -/
def leafNode (c : Count) : Node := ⟨c.setWidth 40, 511, 511⟩

/-- R151: `tree(T)`. The leaf slots, then the Internal nodes in creation order, then unused
slots. -/
def tree (t : FreqTable) : Tree :=
  let q := seedQ t
  let m := mergeLoop q.length 0 q
  ⟨padTo 511 Node.unused (t.toList.map leafNode ++ m.1), m.2, BitVec.ofNat 9 q.length⟩

/-- R150: `(NODE, ROOT, NSYM) <- tree(FT)`. -/
def stageTree (s : State) : StageResult :=
  let n := tree s.ft
  .done { s with node := n.node, root := n.root, nsym := n.nsym }

/-- R150. -/
def execTree (s : State) : Host.Outcome State Fault Refusal :=
  command 0x02 (runStages [(.tree, stageTree)]) s

end Sys2Proof.Machine
end

