-- ==== Sys2Proof/Machine/Decoder.lean ====
section
/-! DEFINITION. The Decoder: commands DES, WALK and DECODE, spec/45_decoder.md. -/

namespace Sys2Proof.Machine

/-! ### DES -/

/-- Byte `o` of a container; DES asks only below its length (R230, check 3). -/
def byteAt (k : List Byte) (o : Nat) : Byte := k.getD o 0

/-- The count field of entry `k` (R130): offset `3 + 5k`, four bytes, big-endian. -/
def entryCount (c : List Byte) (k : Nat) : Nat :=
  be32 (byteAt c (3 + 5 * k)) (byteAt c (4 + 5 * k)) (byteAt c (5 + 5 * k)) (byteAt c (6 + 5 * k))

/-- The entries loop of R230 (checks 4 and 5): `n` entries from entry `k` on, `prev` the symbol of
the entry before, `t` the table so far. -/
def desEntries (c : List Byte) : Nat → Nat → Option Byte → FreqTable → Except Raise FreqTable
  | 0, _, _, t => .ok t
  | n + 1, k, prev, t =>
    let s := byteAt c (2 + 5 * k)
    if prev.any (fun q => s.toNat ≤ q.toNat) then .error ⟨.formatError, .badOrder, 2 + 5 * k⟩
    else if entryCount c k = 0 then .error ⟨.formatError, .zeroCount, 3 + 5 * k⟩
    else desEntries c n (k + 1) (some s) (ftSet t s (BitVec.ofNat 32 (entryCount c k)))

/-- What DES reads from a container: table, padding count, payload. -/
structure Parsed where
  ft  : FreqTable
  pad : BitVec 3
  pay : List Byte
deriving DecidableEq, Repr

/-- Checks 6 to 8 of R230, after the entries: the padding byte at `H - 1`, the payload from `H`. -/
def desTail (c : List Byte) (n : Nat) (t : FreqTable) : Except Raise Parsed :=
  let h := 3 + 5 * n
  let p := byteAt c (h - 1)
  if 7 < p.toNat then .error ⟨.formatError, .badPad, h - 1⟩
  else if p ≠ 0 ∧ c.length - h = 0 then .error ⟨.formatError, .padNoPayload, h - 1⟩
  else if n = 0 ∧ c.length - h ≠ 0 then .error ⟨.formatError, .emptyWithPayload, h⟩
  else .ok ⟨t, p.setWidth 3, c.drop h⟩

/-- R230, R231: `des(K)`; the checks in the order written, the first that fails decides (R310). -/
def des (c : List Byte) : Except Raise Parsed :=
  let n := be16 (byteAt c 0) (byteAt c 1)
  if c.length < 2 then .error ⟨.formatError, .trunc, c.length⟩
  else if 256 < n then .error ⟨.formatError, .badNsym, 0⟩
  else if c.length < 3 + 5 * n then .error ⟨.formatError, .trunc, c.length⟩
  else
    match desEntries c n 0 none (Vector.replicate 256 0) with
    | .error e => .error e
    | .ok t => desTail c n t

/-- R230: `(FT, PAD, PAY[0..PAY_LEN)) <- des(IN[0..IN_LEN))`; on any failure all three are emptied
(R233). -/
def stageDes (s : State) : StageResult :=
  match des s.inMem with
  | .ok r => .done { s with ft := r.ft, pad := r.pad, pay := r.pay }
  | .error e => .raised { s with ft := Vector.replicate 256 0, pad := 0, pay := [] } e

/-- R230. -/
def execDes (s : State) : Host.Outcome State Fault Refusal :=
  command 0x08 (runStages [(.des, stageDes)]) s

/-! ### WALK -/

/-- R243: under a lone leaf each 0 bit emits the root's symbol, a 1 bit at index `i` raises
BAD_BIT. -/
def walkLone (sym : Byte) : Nat → List Bool → Except Raise (List Byte)
  | _, [] => .ok []
  | i, b :: bs =>
    if b then .error ⟨.formatError, .badBit, i⟩
    else
      match walkLone sym (i + 1) bs with
      | .ok out => .ok (sym :: out)
      | .error e => .error e

/-- R240's walk for `NSYM >= 2`, from node `cur` with `i` bits consumed: 0 goes left, 1 goes right,
a leaf emits its symbol and the walk goes on from the root; bits that end elsewhere raise MID_PATH
at `BIT_LEN`. -/
def walkFrom (n : NodeStore) (root : Nat) : Nat → Nat → List Bool → Except Raise (List Byte)
  | cur, i, [] => if cur = root then .ok [] else .error ⟨.formatError, .midPath, i⟩
  | cur, i, b :: bs =>
    let next := if b then (nodeAt n cur).r.toNat else (nodeAt n cur).l.toNat
    if next < 256 then
      match walkFrom n root root (i + 1) bs with
      | .ok out => .ok (BitVec.ofNat 8 next :: out)
      | .error e => .error e
    else walkFrom n root next (i + 1) bs

/-- R240, R241: `walk(N, S)`. -/
def walk (t : Tree) (bs : List Bool) : Except Raise (List Byte) :=
  if t.nsym = 0 then
    if bs = [] then .ok [] else .error ⟨.formatError, .noTree, 0⟩
  else if t.nsym = 1 then walkLone (t.root.setWidth 8) 0 bs
  else walkFrom t.node t.root.toNat t.root.toNat 0 bs

/-- R240: `OUT[0..OUT_LEN) <- walk((NODE, ROOT, NSYM), BITS[0..BIT_LEN))`; after a raise
`OUT_LEN = 0`. -/
def stageWalk (s : State) : StageResult :=
  match walk s.tree s.bits with
  | .ok out => .done { s with outMem := out }
  | .error e => .raised { s with outMem := [] } e

/-- R240. -/
def execWalk (s : State) : Host.Outcome State Fault Refusal :=
  command 0x09 (runStages [(.walk, stageWalk)]) s

/-! ### DECODE -/

/-- R250, R252: the four stages of the Decoder in order. -/
def decodeStages : List (Phase × (State → StageResult)) :=
  [(.des, stageDes), (.tree, stageTree), (.unpack, stageUnpack), (.walk, stageWalk)]

/-- R250: `OUT_LEN <- 0`, then the stages, stopping at the first raise. -/
def execDecode (s : State) : Host.Outcome State Fault Refusal :=
  command 0x0B (fun s => runStages decodeStages { s with outMem := [] }) s

/-- R251: `decode(K)` as a function of the container's bytes. -/
def decodeBytes (c : List Byte) : Except Raise (List Byte) :=
  match des c with
  | .error e => .error e
  | .ok r =>
    match unpack r.pay r.pad with
    | .error e => .error e
    | .ok bs => walk (tree r.ft) bs

end Sys2Proof.Machine
end

