-- ==== Sys2Proof/Machine/Freq.lean ====
section
/-! DEFINITION. FrequencyAnalyzer, command FREQ: spec/40_freq.md R140, R141. -/

namespace Sys2Proof.Machine

/-- R141: `freq(B)` is the table `T` with `T[s] = |{ i : 0 <= i < |B|, B[i] = s }|`, at the width of
a count (R143: it cannot wrap below 2^32 bytes; log 18). -/
def freq (bytes : List Byte) : FreqTable :=
  tabulate 256 (fun s => BitVec.ofNat 32 (bytes.count (BitVec.ofNat 8 s)))

/-- The loop of R140's pseudocode: clear the table, then count each byte in order. -/
def freqLoop (bytes : List Byte) : FreqTable :=
  bytes.foldl (fun t b => ftSet t b (ftAt t b + 1)) (Vector.replicate 256 0)

/-- R140: `FT <- freq(IN[0..IN_LEN))`. -/
def stageFreq (s : State) : StageResult := .done { s with ft := freq s.inMem }

/-- R140. -/
def execFreq (s : State) : Host.Outcome State Fault Refusal :=
  command 0x01 (runStages [(.freq, stageFreq)]) s

end Sys2Proof.Machine
end

