-- ==== Sys2Proof/Machine/Encoder.lean ====
section
/-! DEFINITION. The Encoder: commands XLAT, SER and ENCODE, spec/44_encoder.md. -/

namespace Sys2Proof.Machine

/-- R200's loop from input index `i` on, with `len` bits appended so far: a byte without a code
raises NO_CODE, a code that would pass `bitCap` raises BITS_FULL, else the code is appended. -/
def xlatFrom (bitCap : Nat) (c : CodeBook) : Nat → Nat → List Byte → Except Raise (List Bool)
  | _, _, [] => .ok []
  | i, len, b :: rest =>
    let code := cbAt c b
    if code.length = 0 then .error ⟨.usageError, .noCode, i⟩
    else if bitCap < len + code.length then .error ⟨.capacityError, .bitsFull, i⟩
    else
      match xlatFrom bitCap c (i + 1) (len + code.length) rest with
      | .ok bs => .ok (code ++ bs)
      | .error e => .error e

/-- R201: `xlat(B, C)`. -/
def xlat (bitCap : Nat) (bytes : List Byte) (c : CodeBook) : Except Raise (List Bool) :=
  xlatFrom bitCap c 0 0 bytes

/-- R200: `BITS[0..BIT_LEN) <- xlat(IN[0..IN_LEN), CB)`; after a raise `BIT_LEN = 0`. -/
def stageXlat (s : State) : StageResult :=
  match xlat s.bitCap.toNat s.inMem s.cb with
  | .ok bs => .done { s with bits := bs }
  | .error e => .raised { s with bits := [] } e

/-- R200. -/
def execXlat (s : State) : Host.Outcome State Fault Refusal :=
  command 0x04 (runStages [(.xlat, stageXlat)]) s

/-- R211's `E`: for each present symbol in ascending order its byte and its count, big-endian. -/
def descriptor (t : FreqTable) : List Byte :=
  (presentSymbols t).flatMap (fun x => BitVec.ofNat 8 x.2 :: bytesBE32 (BitVec.ofNat 32 x.1))

/-- R211: `ser(T, p, P) = BE16(n) ++ E ++ [p] ++ P`. -/
def ser (t : FreqTable) (p : BitVec 3) (payload : List Byte) : List Byte :=
  bytesBE16 (BitVec.ofNat 16 (presentSymbols t).length) ++ descriptor t ++
    [p.setWidth 8] ++ payload

/-- R210: `OUT[0..OUT_LEN) <- ser(FT, PAD, PAY[0..PAY_LEN))`. -/
def stageSer (s : State) : StageResult := .done { s with outMem := ser s.ft s.pad s.pay }

/-- R210. -/
def execSer (s : State) : Host.Outcome State Fault Refusal :=
  command 0x07 (runStages [(.ser, stageSer)]) s

/-- R220, R222: the six stages of the Encoder in order. -/
def encodeStages : List (Phase × (State → StageResult)) :=
  [(.freq, stageFreq), (.tree, stageTree), (.book, stageBook), (.xlat, stageXlat),
   (.pack, stagePack), (.ser, stageSer)]

/-- R220: `OUT_LEN <- 0`, then the stages, stopping at the first raise; XLAT's raises stay in (R207,
log 14). -/
def execEncode (s : State) : Host.Outcome State Fault Refusal :=
  command 0x0A (fun s => runStages encodeStages { s with outMem := [] }) s

/-- R221: `encode(B)` as a function of the bytes, for an instance with `bitCap`. -/
def encodeBytes (bitCap : Nat) (bytes : List Byte) : Except Raise (List Byte) :=
  let t := freq bytes
  match xlat bitCap bytes (book (tree t)) with
  | .error e => .error e
  | .ok bs => .ok (ser t (pack bs).2 (pack bs).1)

/-- R227: `3 + 5 * NSYM + ceil8(sum over s of FT[s] * CB[s].LEN)`, what OUT_LEN is in the state that
ENCODE leaves. -/
def State.encodedSize (s : State) : Nat :=
  let weighted := (List.range 256).map (fun i =>
    (ftAt s.ft (BitVec.ofNat 8 i)).toNat * (cbAt s.cb (BitVec.ofNat 8 i)).length)
  3 + 5 * s.nsym.toNat + ceil8 weighted.sum

end Sys2Proof.Machine
end

