-- ==== Sys2Proof/Machine/HostPort.lean ====
section
/-! DEFINITION. The ten host transactions, spec/46_control.md R270 to R277, each as it acts when
accepted, and without effect while it is held (R261). -/

namespace Sys2Proof.Machine

/-- R270. The read of STATUS (`INDEX = 0x01`) is accepted while busy. -/
def execRdCsr (index : Word40) (s : State) : Host.Outcome State Fault Refusal :=
  transact (index == 0x01) (fun s => s.reply (readCsrAt index s)) s

/-- R271. -/
def execWrCsr (index data : Word40) (s : State) : Host.Outcome State Fault Refusal :=
  transact false (fun s => s.settle (writeCsrAt index data s)) s

/-- R272, RD.IN. -/
def execRdIn (index : Word40) (s : State) : Host.Outcome State Fault Refusal :=
  transact false (fun s => s.reply (readByte s.inMem index)) s

/-- R272, RD.OUT. -/
def execRdOut (index : Word40) (s : State) : Host.Outcome State Fault Refusal :=
  transact false (fun s => s.reply (readByte s.outMem index)) s

/-- R273. -/
def execRdFt (index : Word40) (s : State) : Host.Outcome State Fault Refusal :=
  transact false (fun s => s.reply (readFt s.ft index)) s

/-- R274. -/
def execWrFt (index data : Word40) (s : State) : Host.Outcome State Fault Refusal :=
  transact false (fun s => s.settle (writeFt index data s)) s

/-- R275. -/
def execRdNode (index : Word40) (s : State) : Host.Outcome State Fault Refusal :=
  transact false (fun s => s.reply (readNode s.node index)) s

/-- R276. -/
def execRdCb (index : Word40) (s : State) : Host.Outcome State Fault Refusal :=
  transact false (fun s => s.reply (readCb s.cb index)) s

/-- R277, RD.BITS. -/
def execRdBits (index : Word40) (s : State) : Host.Outcome State Fault Refusal :=
  transact false (fun s => s.reply (readBit s.bits index)) s

/-- R277, RD.PAY. -/
def execRdPay (index : Word40) (s : State) : Host.Outcome State Fault Refusal :=
  transact false (fun s => s.reply (readByte s.pay index)) s

/-- R280, R123: a transaction whose `HDR` is illegal is refused. -/
def illegalHdr (s : State) : Host.Outcome State Fault Refusal := transact false State.refuse s

end Sys2Proof.Machine
end

