-- ==== Sys2Proof/Machine/Dispatch.lean ====
section
/-! DEFINITION. The meaning of each instruction, one arm per row of spec/opcode_table.json. -/

namespace Sys2Proof.Machine

def exec (i : Instr) (s : State) : Host.Outcome State Fault Refusal :=
  match i with
  | .nop => Sys2Proof.Machine.execNop s
  | .freq => Sys2Proof.Machine.execFreq s
  | .tree => Sys2Proof.Machine.execTree s
  | .book => Sys2Proof.Machine.execBook s
  | .xlat => Sys2Proof.Machine.execXlat s
  | .pack => Sys2Proof.Machine.execPack s
  | .unpack => Sys2Proof.Machine.execUnpack s
  | .ser => Sys2Proof.Machine.execSer s
  | .des => Sys2Proof.Machine.execDes s
  | .walk => Sys2Proof.Machine.execWalk s
  | .encode => Sys2Proof.Machine.execEncode s
  | .decode => Sys2Proof.Machine.execDecode s
  | .clr => Sys2Proof.Machine.execClr s
  | .rdCsr index => Sys2Proof.Machine.execRdCsr index s
  | .wrCsr index data => Sys2Proof.Machine.execWrCsr index data s
  | .rdIn index => Sys2Proof.Machine.execRdIn index s
  | .rdOut index => Sys2Proof.Machine.execRdOut index s
  | .rdFt index => Sys2Proof.Machine.execRdFt index s
  | .wrFt index data => Sys2Proof.Machine.execWrFt index data s
  | .rdNode index => Sys2Proof.Machine.execRdNode index s
  | .rdCb index => Sys2Proof.Machine.execRdCb index s
  | .rdBits index => Sys2Proof.Machine.execRdBits index s
  | .rdPay index => Sys2Proof.Machine.execRdPay index s

end Sys2Proof.Machine
end

