-- ==== Sys2Proof/Machine/Sequencer.lean ====
section
/-! DEFINITION. The two agents of one instance (spec/20_memory.md R70): the host port, which accepts
or holds what the host presents (spec/46_control.md R261), and the sequencer, which runs the command
that CMD names (R260, R262). -/

namespace Sys2Proof.Machine

/-- An accepted transaction: the instruction its header names, or an illegal one (R280). -/
def accept (t : Txn) (s : State) : Host.Outcome State Fault Refusal :=
  match decodeTxn t with
  | .ok i => exec i s
  | .error _ => illegalHdr s

/-- The sequencer runs the started command to its completion in one step (R77, log 2); a word that
names no command completes with an error (R267). -/
def runCommand (s : State) : Host.Outcome State Fault Refusal :=
  match decodeCommand s.cmd with
  | .ok i => exec i s
  | .error _ => illegalCommand s.cmd s

/-- The port serves what the host presents first. With nothing presented, nothing happens (R38,
R264, log 17). A reset takes effect at whatever moment (R350). A transaction that is held stays presented
unchanged (R82); a reset asserted while it is held drops it (R351). -/
def servePort (s : State) : Host.Outcome State Fault Refusal :=
  match s.port with
  | [] => .next s
  | .assertReset :: rest => .next (s.assertReset rest)
  | .present t :: rest =>
    if s.holds t.isStatusRead then
      match rest with
      | .assertReset :: rest' => .next (s.assertReset rest')
      | _ => .next s
    else accept t { s with port := rest }

/-- While BUSY = 1: the free `pace` says whether the command is still at work, in which case the
port is served, or completes now (R370, log 3). -/
def busyStep (s : State) : Host.Outcome State Fault Refusal :=
  match s.pace with
  | true :: rest => servePort { s with pace := rest }
  | false :: rest => runCommand { s with pace := rest }
  | [] => runCommand s

/-- The state in which the very next step runs the command word `w`: started by R262, and its
completion due. -/
def State.withCommand (w : Byte) (s : State) : State :=
  { s.start w with pace := false :: s.pace }

/-- The state in which the very next step accepts the transaction `t`: the core idle and `t`
presented first. -/
def State.withTxn (t : Txn) (s : State) : State :=
  { s with
    status := { s.status with busy := false }
    phase := .idle
    port := .present t :: s.port }

end Sys2Proof.Machine
end

