-- ==== Sys2Proof/Machine/Step.lean ====
section
/-! DEFINITION. One step of the machine: an event of one of its two agents (spec/20_memory.md R83, one
total order of accepted transactions and completions). -/

namespace Sys2Proof.Machine

/-- While idle the host port acts; while busy the sequencer or the port acts (R260, R261). -/
def step (s : State) : Host.Outcome State Fault Refusal :=
  if s.status.busy then busyStep s else servePort s

/-- `s` with the table word `w` as what the next step runs: a command word is started, a
transaction header is presented at the port, with the same reading of the words 0x00 to 0x07 as
`decodeTableWord` (log 5). -/
def State.withFetchWord (s : State) (nbits w : Nat) : State :=
  if nbits ≤ 8 then
    match decodeCommand (BitVec.ofNat 8 w) with
    | .ok _ => s.withCommand (BitVec.ofNat 8 w)
    | .error _ => s.withTxn (txnOfTableWord w)
  else s.withTxn (txnOfTableWord w)

end Sys2Proof.Machine
end

