-- ==== Sys2Proof/Machine/Script.lean ====
section
/-! DEFINITION. The host-script notation as data: the base statements and pseudo-statements of
spec/30_encoding.md R136, R137, each as the transactions it stands for. -/

namespace Sys2Proof.Machine.Script

/-- An instruction of the transaction format, presented by the host. -/
def presentInstr (i : Instr) : List HostEvent :=
  match encode i with
  | .txn t => [.present t]
  | .command _ => []

/-- R136: `rd REG`. -/
def rd (c : Csr) : List HostEvent := presentInstr (.rdCsr c.number)

/-- R136: `wr REG, v`. -/
def wr (c : Csr) (v : Word40) : List HostEvent := presentInstr (.wrCsr c.number v)

/-- R137: `cmd M`: `wr CMD, <word of M>`; an instruction that is no command has no word. -/
def cmd (i : Instr) : List HostEvent :=
  match encode i with
  | .command w => wr .cmd (w.setWidth 40)
  | .txn _ => []

/-- R137: `wait`, as `n` reads of STATUS: "repeat `rd STATUS` until" BUSY = 0 (R370: any number). -/
def wait (n : Nat) : List HostEvent := (List.replicate n (rd .status)).flatten

/-- R137: `run M`: `cmd M` then `wait`. -/
def run (i : Instr) (n : Nat) : List HostEvent := cmd i ++ wait n

/-- R137: `ack`: `wr STATUS, 0x02`. -/
def ack : List HostEvent := wr .status 0x02

/-- R137: `load.in b0 ... bn-1`. -/
def loadIn (bytes : List Byte) : List HostEvent :=
  wr .inLen 0 ++ bytes.flatMap (fun b => wr .inPush (b.setWidth 40))

/-- R137: `load.bits "d0 ... dn-1"`. -/
def loadBits (bs : List Bool) : List HostEvent :=
  wr .bitLen 0 ++ bs.flatMap (fun b => wr .bitsPush ((BitVec.ofBool b).setWidth 40))

/-- R137: `load.pay b0 ... bn-1 pad p`. -/
def loadPay (bytes : List Byte) (p : BitVec 3) : List HostEvent :=
  wr .payLen 0 ++ bytes.flatMap (fun b => wr .payPush (b.setWidth 40)) ++ wr .pad (p.setWidth 40)

/-- R137: `dump.out` once `rd OUT_LEN` has given `n`. -/
def dumpOut (n : Nat) : List HostEvent :=
  rd .outLen ++ (List.range n).flatMap (fun i => presentInstr (.rdOut (BitVec.ofNat 40 i)))

end Sys2Proof.Machine.Script
end

