-- ==== Sys2Proof/WellFormed.lean ====
section
/-! DEFINITION. Well-formed instructions: spec/30_encoding.md rule R120, a write carries "`DATA`, width
of the target". -/

namespace Sys2Proof

/-- `data` fits the width of the register that `index` names (R120, R271: "a transaction cannot
carry more bits than that"). Where `index` names no register there is no width to keep. -/
def csrDataFits (index data : Word40) : Bool :=
  match csrOf index with
  | some c => decide (data.toNat < 2 ^ c.width)
  | none => true

/-- `data` fits an entry of `FT`, 32 bits (R125). -/
def ftDataFits (data : Word40) : Bool := decide (data.toNat < 2 ^ 32)

/-- An instruction is well-formed iff its data fits its target. A command has no operand, and a
read carries no data; every 40-bit `INDEX` may be presented (R270: "every value from 0x11 to
2^40 - 1 is illegal", a refusal and not an ill-formed transaction). -/
def Instr.wellFormed : Instr → Bool
  | .nop | .freq | .tree | .book | .xlat | .pack | .unpack => true
  | .ser | .des | .walk | .encode | .decode | .clr => true
  | .rdCsr _ | .rdIn _ | .rdOut _ | .rdFt _ => true
  | .rdNode _ | .rdCb _ | .rdBits _ | .rdPay _ => true
  | .wrCsr index data => csrDataFits index data
  | .wrFt _ data => ftDataFits data

end Sys2Proof
end

