-- ==== Sys2Proof/Safety.lean ====
section
/-! DEFINITION. The terms the statements use: what a good state of HFC is (spec/10_state.md R39, R43,
R45, spec/60_exceptions.md R302), what a command may write (spec/20_memory.md R76) and which causes
it may end with (spec/60_exceptions.md R303). -/

namespace Sys2Proof.Machine

/-! ### Shapes of a command's end -/

/-- `s` after the command word `w` was started (R262) and completed without error (R263), with no
data written. -/
def State.ended (w : Byte) (s : State) : State :=
  { s with
    cmd := w
    status := ⟨false, true, .none, s.status.herr⟩
    errInfo := ⟨.none, .idle⟩
    errPos := 0
    phase := .idle }

/-- `s` after the command word `w` was started (R262) and completed with a raise in stage `ph`
(R305), with no data written. -/
def State.failed (w : Byte) (ph : Phase) (e : Raise) (s : State) : State :=
  { s with
    cmd := w
    status := ⟨false, true, e.kind, s.status.herr⟩
    errInfo := ⟨e.cause, ph⟩
    errPos := BitVec.ofNat 40 e.pos
    phase := .idle }

/-- The 13 commands of R101. -/
def isCommand (i : Instr) : Bool :=
  match encode i with
  | .command _ => true
  | .txn _ => false

/-! ### The tree -/

/-- Slot `i` holds a node of the tree (R42: an unused slot has `W = 0`). -/
def Tree.used (t : Tree) (i : Nat) : Prop := (nodeAt t.node i).w ≠ 0

/-- Node `c` is a child of node `i`. -/
def Tree.isChild (t : Tree) (c i : Nat) : Prop :=
  (nodeAt t.node i).l.toNat = c ∨ (nodeAt t.node i).r.toNat = c

/-- R43 (a), (b), (c): what the triple (`NODE`, `ROOT`, `NSYM`) satisfies. -/
structure Tree.Shaped (t : Tree) : Prop where
  /-- (a) -/
  empty : t.nsym.toNat = 0 → t.root.toNat = 511 ∧ ∀ i < 511, nodeAt t.node i = Node.unused
  /-- (b) -/
  lone : t.nsym.toNat = 1 →
    t.root.toNat < 256 ∧ t.used t.root.toNat ∧
      ∀ i < 511, i ≠ t.root.toNat → nodeAt t.node i = Node.unused
  /-- R42: the children fields of a leaf slot are always 511. -/
  leaf : ∀ i < 256, (nodeAt t.node i).l = 511 ∧ (nodeAt t.node i).r = 511
  /-- (c): exactly `NSYM` leaf slots are used. -/
  leaves : ((List.range 256).filter (fun i => (nodeAt t.node i).w ≠ 0)).length = t.nsym.toNat
  /-- (c): exactly the internal slots 256 to `256 + NSYM - 2` are used; the others are unused. -/
  internal : 2 ≤ t.nsym.toNat → ∀ i, 256 ≤ i → i < 511 →
    if i ≤ 254 + t.nsym.toNat then t.used i else nodeAt t.node i = Node.unused
  /-- (c) -/
  rootLast : 2 ≤ t.nsym.toNat → t.root.toNat = 254 + t.nsym.toNat
  /-- (c): the children of a used internal slot. -/
  children : ∀ i, 256 ≤ i → i < 511 → t.used i →
    let n := nodeAt t.node i
    n.l ≠ n.r ∧ n.l.toNat < i ∧ n.r.toNat < i ∧ t.used n.l.toNat ∧ t.used n.r.toNat ∧
      n.w.toNat = (nodeAt t.node n.l.toNat).w.toNat + (nodeAt t.node n.r.toNat).w.toNat
  /-- (c): "every used node other than the root is the child of exactly one used internal node". -/
  owned : ∀ c < 511, t.used c → c ≠ t.root.toNat →
    ∃ i, 256 ≤ i ∧ i < 511 ∧ t.used i ∧ t.isChild c i ∧
      ∀ j, 256 ≤ j → j < 511 → t.used j → t.isChild c j → j = i

/-- The node reached from node `cur` by the steps of a code (R172: 0 = left, 1 = right). -/
def follow (n : NodeStore) (cur : Nat) (c : Code) : Nat :=
  c.foldl (fun i b => if b then (nodeAt n i).r.toNat else (nodeAt n i).l.toNat) cur

/-- The 256 symbols in ascending value (R8, R10). -/
def symbols : List Byte := (List.range 256).map (BitVec.ofNat 8)

/-- The sum of all counts of a table. -/
def totalCount (t : FreqTable) : Nat := (t.toList.map BitVec.toNat).sum

/-- The condition of R235 on what a container may hold: a padding count needs a payload, and a
payload needs a table. -/
def serializable (t : FreqTable) (p : BitVec 3) (payload : List Byte) : Prop :=
  (p = 0 ∨ 1 ≤ payload.length) ∧ ((∃ b, ftAt t b ≠ 0) ∨ payload.length = 0)

/-! ### Errors -/

/-- The stages each cause is raised in (R302); no error has phase 0. -/
def Cause.phases : Cause → List Phase
  | .none | .badOpcode => [.idle]
  | .trunc | .badNsym | .badOrder | .zeroCount | .badPad | .emptyWithPayload => [.des]
  | .padNoPayload => [.des, .unpack]
  | .midPath | .badBit | .noTree => [.walk]
  | .noCode | .bitsFull => [.xlat]

/-- The causes a command can end with besides "no error" (R303). For ENCODE the table says none:
that is the statement `EncodeNeverFails`; here the two raises of its XLAT stage stand, "Formally the
XLAT stage's two raises are part of the sequence" (R220). A transaction ends with none. -/
def possibleCauses : Instr → List Cause
  | .xlat | .encode => [.noCode, .bitsFull]
  | .unpack => [.padNoPayload]
  | .des => [.trunc, .badNsym, .badOrder, .zeroCount, .badPad, .padNoPayload, .emptyWithPayload]
  | .walk => [.midPath, .badBit, .noTree]
  | .decode => [.trunc, .badNsym, .badOrder, .zeroCount, .badPad, .padNoPayload,
      .emptyWithPayload, .midPath, .badBit]
  | .nop | .freq | .tree | .book | .pack | .ser | .clr => []
  | .rdCsr _ | .wrCsr _ _ | .rdIn _ | .rdOut _ | .rdFt _ | .wrFt _ _ => []
  | .rdNode _ | .rdCb _ | .rdBits _ | .rdPay _ => []

/-! ### What an instruction may write -/

/-- The parts of the state (R20), the tree triple as one (R43). -/
inductive Part where
  | cmd | status | errInfo | errPos | ctrl | inMem | outMem | bits | pay | pad | tree
  | cap | bitCap | phase | ft | cb | answer | port | pace
deriving DecidableEq, Repr

/-- Part `p` is the same in two states. -/
def Part.same (p : Part) (s t : State) : Prop :=
  match p with
  | .cmd => t.cmd = s.cmd
  | .status => t.status = s.status
  | .errInfo => t.errInfo = s.errInfo
  | .errPos => t.errPos = s.errPos
  | .ctrl => t.ctrl = s.ctrl
  | .inMem => t.inMem = s.inMem
  | .outMem => t.outMem = s.outMem
  | .bits => t.bits = s.bits
  | .pay => t.pay = s.pay
  | .pad => t.pad = s.pad
  | .tree => t.tree = s.tree
  | .cap => t.cap = s.cap
  | .bitCap => t.bitCap = s.bitCap
  | .phase => t.phase = s.phase
  | .ft => t.ft = s.ft
  | .cb => t.cb = s.cb
  | .answer => t.answer = s.answer
  | .port => t.port = s.port
  | .pace => t.pace = s.pace

/-- What the start and the completion of a command write (R262, R263, R39). -/
def lifeCycle : List Part := [.cmd, .status, .errInfo, .errPos, .phase]

/-- What a host write to each register may write (R271, R262). -/
def csrWrites : Csr → List Part
  | .cmd => lifeCycle
  | .status => [.status]
  | .ctrl => [.ctrl]
  | .inLen | .inPush => [.inMem]
  | .bitLen | .bitsPush => [.bits]
  | .payLen | .payPush => [.pay]
  | .pad => [.pad]
  | .errInfo | .errPos | .outLen | .nsym | .root | .cap | .bitCap => []

/-- R76, column "writes", with the life cycle of a command, and for a transaction its answer and
HERR (R280) and what R271 and R274 write. -/
def writes : Instr → List Part
  | .nop => lifeCycle
  | .freq => lifeCycle ++ [.ft]
  | .tree => lifeCycle ++ [.tree]
  | .book => lifeCycle ++ [.cb]
  | .xlat => lifeCycle ++ [.bits]
  | .pack => lifeCycle ++ [.pay, .pad]
  | .unpack => lifeCycle ++ [.bits]
  | .ser => lifeCycle ++ [.outMem]
  | .des => lifeCycle ++ [.ft, .pad, .pay]
  | .walk => lifeCycle ++ [.outMem]
  | .encode => lifeCycle ++ [.outMem, .ft, .tree, .cb, .bits, .pay, .pad]
  | .decode => lifeCycle ++ [.outMem, .ft, .pad, .pay, .tree, .bits]
  | .clr => lifeCycle ++ [.inMem, .outMem, .bits, .pay, .pad, .ft, .tree, .cb]
  | .wrCsr index _ => [.answer, .status] ++ ((csrOf index).map csrWrites).getD []
  | .wrFt _ _ => [.answer, .status, .ft]
  | .rdCsr _ | .rdIn _ | .rdOut _ | .rdFt _ => [.answer, .status]
  | .rdNode _ | .rdCb _ | .rdBits _ | .rdPay _ => [.answer, .status]

/-! ### The invariant -/

/-- What every run keeps, from reset on (R54). -/
structure State.Inv (s : State) : Prop where
  /-- R6, R7: the parameters are legal. -/
  params : Config.legal s.cap.toNat s.bitCap.toNat
  /-- R26 to R29, R46 to R49: every length is within its capacity. -/
  memories : Memory.wf s = true
  /-- R43: (`NODE`, `ROOT`, `NSYM`) is `tree(T)` for some table `T`. -/
  treeBuilt : ∃ t : FreqTable, s.tree = Sys2Proof.Machine.tree t
  /-- R45: `CB` is `book(N)` for some tree `N` that TREE made. -/
  bookBuilt : ∃ t : FreqTable, s.cb = book (Sys2Proof.Machine.tree t)
  /-- R39: PHASE is 0 when idle, the first stage of the started command when busy (log 2). -/
  phaseOk : s.phase = if s.status.busy then firstPhase s.cmd else .idle
  /-- R22, R262: while busy DONE = 0 and no error is recorded. -/
  busyClean : s.status.busy = true → s.status.done = false ∧ s.errInfo.cause = .none
  /-- R301, R302: the kind is the cause's. -/
  kindOk : s.status.err = s.errInfo.cause.kind
  /-- R302: the phase is one the cause is raised in. -/
  phaseOfCause : s.errInfo.phase ∈ s.errInfo.cause.phases
  /-- R24: "0 if the last command had no error". -/
  posOk : s.errInfo.cause = .none → s.errPos = 0

end Sys2Proof.Machine
end

