-- ==== Sys2Proof/Certificates/Slice0/Obligations.lean ====
section
/-! DEFINITION. The statements about HFC, from the numbered rules of spec/. Each docstring names the
rules; `exec i s = .next t` is the instruction's own effect, `State.ended` and `State.failed`
(Sys2Proof/Safety.lean) are the status, record, PHASE and CMD a command leaves. -/

open Sys2Proof Sys2Proof.Machine

/-! ### Encodings -/

/-- R100, R101, R120, R122: no bit of an encoding is dropped, neither by the decoder of encodings
nor by the one of table words. How a table word is read is the model's choice: that 8 bits 0x00 to
0x07 are the command and a longer word the transaction is log 5's, the layout of a longer word beyond
HDR log 6's. -/
def Obligations.EncodedInstructionDecodesToItself : Prop :=
  ∀ i : Instr, i.wellFormed = true →
    decode (encode i) = .ok i ∧
      decodeTableWord (encode i).tableBits (encode i).tableWord = some i

/-- R101, R122: an instruction has one encoding, but for the absent data of a read (R120). -/
def Obligations.DecodedEncodingIsTheEncoders : Prop :=
  ∀ (e : Encoded) (i : Instr), decode e = .ok i → encode i = e.canonical

/-- R103. -/
def Obligations.IllegalCommandWordsAre243 : Prop :=
  (∀ w : Byte, (decodeCommand w).toOption = none ↔
    (w.extractLsb' 4 4 = 0 ∧ 0xD ≤ (w.extractLsb' 0 4).toNat) ∨ w.extractLsb' 4 4 ≠ 0) ∧
  ((List.range 256).filter
    (fun w => (decodeCommand (BitVec.ofNat 8 w)).toOption.isNone)).length = 243

/-- R123. -/
def Obligations.IllegalHeadersAre246 : Prop :=
  (∀ t : Txn, (decodeTxn t).toOption = none ↔
    (t.hdr.getLsbD 7 = true ∧ (t.hdr.extractLsb' 0 4).toNat ∈ [1, 2, 4, 5, 6, 7]) ∨
      8 ≤ (t.hdr.extractLsb' 0 4).toNat ∨ t.hdr.extractLsb' 4 3 ≠ 0) ∧
  (∀ index data : Word40, ((List.range 256).filter
    (fun h => (decodeTxn ⟨BitVec.ofNat 8 h, index, data⟩).toOption.isNone)).length = 246) ∧
  (∀ (t : Txn) (s : State), s.status.busy = false → (decodeTxn t).toOption = none →
    accept t s = .next { s with answer := some .err, status := { s.status with herr := true } })

/-- R101, R122: words written out from the two tables. -/
def Obligations.WordsOfTheTablesDecode : Prop :=
  decodeCommand 0b00000001 = .ok .freq ∧ decodeCommand 0b00000111 = .ok .ser ∧
  decodeCommand 0b00001010 = .ok .encode ∧ decodeCommand 0b00001011 = .ok .decode ∧
  decodeTxn ⟨0b00000000, 0x0B, 0⟩ = .ok (.rdCsr 0x0B) ∧
  decodeTxn ⟨0b10000000, 0x00, 0x0A⟩ = .ok (.wrCsr 0x00 0x0A) ∧
  decodeTxn ⟨0b10000011, 0x41, 3⟩ = .ok (.wrFt 0x41 3) ∧
  decodeTxn ⟨0b00000100, 256, 0⟩ = .ok (.rdNode 256)

/-- R37: "Register numbers 0x11 and above do not exist." -/
def Obligations.RegistersAboveBitCapDoNotExist : Prop :=
  ∀ (index data : Word40) (s : State), 0x11 ≤ index.toNat → s.status.busy = false →
    exec (.rdCsr index) s = .next s.refuse ∧ exec (.wrCsr index data) s = .next s.refuse

/-! ### Steps, holding, reset -/

/-- R261: while idle the port accepts what is presented first, and the step is its instruction;
an illegal header is refused (R280). While busy, in a step that the free `pace` (the model's, log 3)
leaves the command at work, the read of STATUS (HDR 0x00, INDEX 0x01) is accepted as well and answers
STATUS (R22, R82). The port as data is the model's (log 4). -/
def Obligations.StepAcceptsWhatIsPresented : Prop :=
  ∀ (s : State) (t : Txn) (rest : List HostEvent), s.port = .present t :: rest →
    (s.status.busy = false →
      (∀ i, decodeTxn t = .ok i → step s = exec i { s with port := rest }) ∧
      ((decodeTxn t).toOption = none → step s = .next { s with port := rest }.refuse)) ∧
    ∀ later, s.status.busy = true → s.pace = true :: later → t.hdr = 0x00 → t.index = 0x01 →
      step s = accept t { s with pace := later, port := rest } ∧
      step s = .next { s with
        pace := later
        port := rest
        answer := some (.data ⟨8, s.status.word⟩) }

/-- R260, R262: while busy, when the free `pace` (the model's, log 3) lets the command complete, the
step is the command that CMD names (in one step, log 2). -/
def Obligations.StepRunsTheStartedCommand : Prop :=
  ∀ (s : State) (i : Instr), s.status.busy = true → s.pace.head? ≠ some true →
    decodeCommand s.cmd = .ok i → step s = exec i { s with pace := s.pace.tail }

/-- R267: the 243 illegal words end with UsageError BAD_OPCODE and change nothing else; when, is the
free `pace`'s (log 3). -/
def Obligations.IllegalCommandWordEndsWithUsageError : Prop :=
  ∀ s : State, s.status.busy = true → s.pace.head? ≠ some true →
    (decodeCommand s.cmd).toOption = none →
    step s = .next
      ({ s with pace := s.pace.tail }.failed s.cmd .idle ⟨.usageError, .badOpcode, 0⟩)

/-- R82, R261: a transaction presented while busy, other than the read of STATUS (HDR 0x00, INDEX
0x01), is held without effect and is accepted unchanged once the command has completed (no reset
being asserted). The port, `pace` and the one step of a command are the model's (log 2, 3, 4). -/
def Obligations.HeldTransactionIsAcceptedLater : Prop :=
  ∀ (s : State) (t : Txn) (rest : List HostEvent), s.status.busy = true →
    s.port = .present t :: rest → ¬ (t.hdr = 0x00 ∧ t.index = 0x01) →
    rest.head? ≠ some .assertReset →
    (∀ later, s.pace = true :: later → step s = .next { s with pace := later }) ∧
    (∀ i, decodeTxn t = .ok i → exec i s = .next s) ∧
    ∃ k u, k ≤ s.pace.length + 1 ∧ Sys2Proof.core.run k s = .next u ∧
      u.status.busy = false ∧ u.port = s.port ∧ step u = accept t { u with port := rest }

/-- R264, R281, R368: the machine has no fault, no refusal and no stuck state. -/
def Obligations.EveryStepAnswersNext : Prop :=
  (∀ s : State, ∃ t, step s = .next t) ∧
  ∀ (i : Instr) (s : State), ∃ t, exec i s = .next t

/-- R368, R370: BUSY returns to 0 after finitely many steps, at most one more than the free `pace`
holds (the model's, log 3; that the command itself takes one step is log 2's). Where the host asserts
no reset (R351) it is the command's completion that clears BUSY: StepRunsTheStartedCommand with
EveryCommandCompletes, and IllegalCommandWordEndsWithUsageError. -/
def Obligations.BusyEnds : Prop :=
  ∀ s : State, s.status.busy = true →
    ∃ k u, k ≤ s.pace.length + 1 ∧ Sys2Proof.core.run k s = .next u ∧ u.status.busy = false

/-- R54: the reset state of every legal instance is coherent; `State.reset` has the reference
parameters (log 1). -/
def Obligations.ResetStateMeetsInv : Prop :=
  (∀ (cap : BitVec 32) (bitCap : Word40), Config.legal cap.toNat bitCap.toNat →
    (State.resetWith cap bitCap).Inv) ∧ State.reset.Inv

/-- R43, R45, R26 to R29, R39, R302: the invariant of every run (PHASE while busy is log 2's; which
phase starts a command is CommandWriteStartsTheCommand's). -/
def Obligations.EveryStepKeepsInv : Prop :=
  ∀ s t : State, s.Inv → step s = .next t → t.Inv

/-- R350, R351, R53: the reset input, idle or under a running command; a transaction that is held
is dropped. What the host does next and the free `pace` are the model's own fields (log 3, 4, 10). -/
def Obligations.ResetInputGivesTheResetState : Prop :=
  (∀ (s : State) (rest : List HostEvent), s.port = .assertReset :: rest →
    (s.status.busy = false →
      step s = .next { State.resetWith s.cap s.bitCap with port := rest, pace := s.pace }) ∧
    (s.status.busy = true → ∀ later, s.pace = true :: later →
      step s = .next { State.resetWith s.cap s.bitCap with port := rest, pace := later })) ∧
  (∀ (s : State) (t : Txn) (rest : List HostEvent) (later : List Bool),
    s.port = .present t :: .assertReset :: rest → ¬ (t.hdr = 0x00 ∧ t.index = 0x01) →
    s.status.busy = true → s.pace = true :: later →
    step s = .next { State.resetWith s.cap s.bitCap with port := rest, pace := later }) ∧
  ∀ (cap : BitVec 32) (bitCap : Word40), let r := State.resetWith cap bitCap
    r.cmd = 0 ∧ r.status.word = 0 ∧ r.errInfo.word = 0 ∧ r.errPos = 0 ∧ r.ctrl.word = 0 ∧
    r.inMem = [] ∧ r.outMem = [] ∧ r.bits = [] ∧ r.pay = [] ∧ r.pad = 0 ∧ r.nsym = 0 ∧
    r.root = 511 ∧ r.cap = cap ∧ r.bitCap = bitCap ∧ r.phase.code = 0 ∧ r.irq = false ∧
    (∀ b, ftAt r.ft b = 0) ∧ (∀ i < 511, nodeAt r.node i = ⟨0, 511, 511⟩) ∧
    ∀ b, cbAt r.cb b = []

/-! ### The life cycle of a command -/

/-- R262: the accepted write to CMD. PHASE is the first stage's (R39, log 2): the opcode of a
primitive, 1 for ENCODE, 8 for DECODE, 0 for NOP, CLR and an illegal word. -/
def Obligations.CommandWriteStartsTheCommand : Prop :=
  ∀ (d : Word40) (s : State), s.status.busy = false →
    ∃ t, exec (.wrCsr 0x00 d) s = .next t ∧ t.irq = false ∧
      t = { s with
        cmd := d.setWidth 8
        status := ⟨true, false, .none, s.status.herr⟩
        errInfo := ⟨.none, .idle⟩
        errPos := 0
        phase := firstPhase (d.setWidth 8)
        answer := some .ok } ∧
      t.phase.code.toNat =
        let w := d.toNat % 256
        if w ≤ 9 then w else if w = 0x0A then 1 else if w = 0x0B then 8 else 0

/-- R263, R300, R312: every command completes, with DONE set and `irq` following IE; without an
error the record is clear; HERR changes only in CLR (R266). -/
def Obligations.EveryCommandCompletes : Prop :=
  ∀ (i : Instr) (s : State), isCommand i = true → ∃ t, exec i s = .next t ∧
    t.status.busy = false ∧ t.status.done = true ∧ t.phase = .idle ∧ t.irq = s.ctrl.ie ∧
    (t.status.err = .none ↔ t.errInfo.cause = .none) ∧
    (t.status.err = .none → t.errInfo.phase = .idle ∧ t.errPos = 0) ∧
    t.status.herr = (if i = .clr then false else s.status.herr)

/-- R302, R303: the causes each command can end with, their kinds and the stages that raise them.
For ENCODE the row of R303 is none; the model keeps the two raises of its XLAT stage (log 14),
"Formally the XLAT stage's two raises are part of the sequence" (R220), so they stand in
`possibleCauses`; that they never fire is EncodeNeverFails. -/
def Obligations.CommandsEndWithTheirCausesOnly : Prop :=
  ∀ (i : Instr) (s t : State), isCommand i = true → exec i s = .next t →
    (t.errInfo.cause = .none ∨ t.errInfo.cause ∈ possibleCauses i) ∧
    t.status.err = t.errInfo.cause.kind ∧ t.errInfo.phase ∈ t.errInfo.cause.phases

/-- R306, R233: the failing stage leaves its own destination empty; in DECODE OUT is empty whichever
stage failed. That OUT is empty after a failed ENCODE is R220's sentence on the two raises of XLAT
that the model keeps ("ENCODE would end there with `OUT_LEN = 0`", log 14); only illegal parameters or
an IN beyond CAP meet it (EncodeNeverFails). -/
def Obligations.FailedStageLeavesItsDestinationEmpty : Prop :=
  ∀ (i : Instr) (s t : State), isCommand i = true → exec i s = .next t →
    t.status.err ≠ .none →
    (i = .encode ∨ i = .decode ∨ t.errInfo.phase = .walk → t.outMem = []) ∧
    (t.errInfo.phase = .xlat ∨ t.errInfo.phase = .unpack → t.bits = []) ∧
    (t.errInfo.phase = .des → (∀ b, ftAt t.ft b = 0) ∧ t.pad = 0 ∧ t.pay = [])

/-- R76, R78, R280: an instruction writes nothing but the parts its rule lists; all of memory is
among the parts. -/
def Obligations.InstructionsWriteOnlyTheirParts : Prop :=
  ∀ (i : Instr) (s t : State) (p : Part), exec i s = .next t → p ∉ writes i → p.same s t

/-! ### Control commands -/

/-- R265. -/
def Obligations.NopOnlyStartsAndCompletes : Prop :=
  ∀ s : State, exec .nop s = .next (s.ended 0x00)

/-- R266: the reset state but for STATUS.DONE and CTRL (and what is outside HFC). -/
def Obligations.ClrRestoresTheResetState : Prop :=
  ∀ s : State, exec .clr s = .next { State.resetWith s.cap s.bitCap with
    status := ⟨false, true, .none, false⟩
    ctrl := s.ctrl
    answer := s.answer
    port := s.port
    pace := s.pace }

/-! ### FREQ -/

/-- R140, R141, R143: the loop of the pseudocode, and the counts it gives. -/
def Obligations.FreqCountsSymbols : Prop :=
  ∀ s : State,
    exec .freq s = .next { s.ended 0x01 with ft := freqLoop s.inMem } ∧
    (s.inMem.length < 2 ^ 32 →
      ∀ b : Byte, (ftAt (freqLoop s.inMem) b).toNat = s.inMem.count b)

/-- R142 (a) to (e), at the widths of R8. -/
def Obligations.FrequencyLaws : Prop :=
  (∀ bytes : List Byte, bytes.length < 2 ^ 32 →
    totalCount (freq bytes) = bytes.length ∧ ∀ b, ftAt (freq bytes) b ≠ 0 ↔ b ∈ bytes) ∧
  (∀ b, ftAt (freq []) b = 0) ∧
  (∀ (xs ys : List Byte) (b : Byte),
    ftAt (freq (xs ++ ys)) b = ftAt (freq xs) b + ftAt (freq ys) b) ∧
  ∀ xs ys : List Byte, xs.Perm ys → freq xs = freq ys

/-! ### TREE -/

/-- R150, R152, R154, R42, R43, R157, R160: TREE builds a well-shaped tree whose leaves are the
present symbols with their counts, and whose left children precede the right ones in the order of
R153: smaller weight first, among equal weights smaller node id first. -/
def Obligations.TreeBuildsAShapedTree : Prop :=
  ∀ s : State, ∃ n : Tree,
    exec .tree s = .next { s.ended 0x02 with node := n.node, root := n.root, nsym := n.nsym } ∧
    n.Shaped ∧ (∀ b : Byte, (nodeAt n.node b.toNat).w.toNat = (ftAt s.ft b).toNat) ∧
    ∀ i, 256 ≤ i → i < 511 → n.used i →
      let l := (nodeAt n.node i).l.toNat
      let r := (nodeAt n.node i).r.toNat
      (nodeAt n.node l).w.toNat < (nodeAt n.node r).w.toNat ∨
        ((nodeAt n.node l).w.toNat = (nodeAt n.node r).w.toNat ∧ l < r)

/-- R161, R163: an Internal node weighs the sum of its children, the root the sum of all counts,
and the weights never decrease in creation order. -/
def Obligations.WeightLaws : Prop :=
  ∀ t : FreqTable, let n := tree t
    (∀ i, 256 ≤ i → i < 511 → n.used i → (nodeAt n.node i).w.toNat =
      (nodeAt n.node (nodeAt n.node i).l.toNat).w.toNat +
        (nodeAt n.node (nodeAt n.node i).r.toNat).w.toNat) ∧
    (n.nsym ≠ 0 → (nodeAt n.node n.root.toNat).w.toNat = totalCount t) ∧
    ∀ i, 256 ≤ i → i + 1 < 511 → n.used (i + 1) →
      (nodeAt n.node i).w.toNat ≤ (nodeAt n.node (i + 1)).w.toNat

/-- R155, R156: the empty table and the table with one symbol. -/
def Obligations.EmptyTableAndLoneSymbol : Prop :=
  (∀ t : FreqTable, (∀ b, ftAt t b = 0) →
    tree t = ⟨Vector.replicate 511 ⟨0, 511, 511⟩, 511, 0⟩) ∧
  ∀ (t : FreqTable) (b : Byte), ftAt t b ≠ 0 → (∀ c, c ≠ b → ftAt t c = 0) →
    (tree t).nsym = 1 ∧ (tree t).root.toNat = b.toNat ∧
    ∀ i < 511, nodeAt (tree t).node i =
      if i = b.toNat then ⟨(ftAt t b).setWidth 40, 511, 511⟩ else ⟨0, 511, 511⟩

/-- R153: the collection is kept in the canonical order, smaller weight first and among equal
weights smaller node id first, so its head is the least member; inserting adds the member and
nothing else. R152: what it is seeded with. R151, R154: a round takes the two least members, of
which the first becomes the left child, stores their sum as the weight of node `256 + k` and inserts
that node; one member left is the root. TREE is that loop from the seeds. -/
def Obligations.PriorityCollectionKeepsTheCanonicalOrder : Prop :=
  let precedes := fun a b : QItem => a.1 < b.1 ∨ (a.1 = b.1 ∧ a.2 < b.2)
  (∀ (x : QItem) (q : List QItem), q.Pairwise precedes → (∀ y ∈ q, y.2 ≠ x.2) →
    (insertQ x q).Pairwise precedes ∧ (insertQ x q).Perm (x :: q)) ∧
  (∀ (fuel k : Nat) (a b : QItem) (q : List QItem), (a :: b :: q).Pairwise precedes →
    (∀ y ∈ a :: b :: q, y.2 < 256 + k) →
    ∃ q' : List QItem, q'.Pairwise precedes ∧ q'.Perm ((a.1 + b.1, 256 + k) :: q) ∧
      mergeLoop (fuel + 1) k (a :: b :: q) =
        (⟨BitVec.ofNat 40 (a.1 + b.1), BitVec.ofNat 9 a.2, BitVec.ofNat 9 b.2⟩ ::
          (mergeLoop fuel (k + 1) q').1, (mergeLoop fuel (k + 1) q').2)) ∧
  (∀ (fuel k : Nat) (r : QItem), mergeLoop fuel k [r] = ([], BitVec.ofNat 9 r.2) ∧
    mergeLoop fuel k [] = ([], 511)) ∧
  ∀ t : FreqTable, (seedQ t).Pairwise precedes ∧
    (∀ w i, (w, i) ∈ seedQ t ↔
      i < 256 ∧ w = (ftAt t (BitVec.ofNat 8 i)).toNat ∧ w ≠ 0) ∧
    let m := mergeLoop (seedQ t).length 0 (seedQ t)
    (tree t).root = m.2 ∧
      ∀ k < 255, nodeAt (tree t).node (256 + k) = m.1.getD k ⟨0, 511, 511⟩

/-! ### BOOK -/

/-- R170 to R175: the codes BOOK gives, for the empty tree, the lone leaf and every tree that TREE
builds: a symbol has a code iff it is a leaf, and the code is the path to it. -/
def Obligations.BookGivesThePathToEachLeaf : Prop :=
  ∀ s : State, ∃ cb : CodeBook, exec .book s = .next { s.ended 0x03 with cb := cb } ∧
    (s.nsym = 0 → ∀ b, cbAt cb b = []) ∧
    (s.nsym = 1 → ∀ b : Byte, cbAt cb b = if s.root.toNat = b.toNat then [false] else []) ∧
    ∀ t : FreqTable, s.tree = tree t → ∀ b : Byte,
      (cbAt cb b ≠ [] ↔ ftAt t b ≠ 0) ∧
      (2 ≤ s.nsym.toNat → cbAt cb b ≠ [] →
        follow s.node s.root.toNat (cbAt cb b) = b.toNat ∧
          (cbAt cb b).length ≤ s.nsym.toNat - 1)

/-- R176. -/
def Obligations.BookIsPrefixFree : Prop :=
  ∀ (t : FreqTable) (a b : Byte), a ≠ b →
    cbAt (book (tree t)) a ≠ [] → cbAt (book (tree t)) b ≠ [] →
    ¬ cbAt (book (tree t)) a <+: cbAt (book (tree t)) b

/-- R177, in units of `2^-255`. -/
def Obligations.CodesFillTheCodeSpace : Prop :=
  ∀ t : FreqTable,
    let space := ((symbols.map (cbAt (book (tree t)))).filter (fun c => c ≠ [])).map
      (fun c => 2 ^ (255 - c.length))
    (2 ≤ (tree t).nsym.toNat → space.sum = 2 ^ 255) ∧
    ((tree t).nsym = 1 → space.sum = 2 ^ 254)

/-! ### XLAT -/

/-- R200, R201: the codes of the input bytes, concatenated. -/
def Obligations.XlatConcatenatesTheCodes : Prop :=
  ∀ s : State, (∀ b ∈ s.inMem, cbAt s.cb b ≠ []) →
    (s.inMem.flatMap (cbAt s.cb)).length ≤ s.bitCap.toNat →
    exec .xlat s = .next { s.ended 0x04 with bits := s.inMem.flatMap (cbAt s.cb) }

/-- R200, R201, R310: the first byte at which a check fails decides, NO_CODE before BITS_FULL. -/
def Obligations.XlatFailsAtTheFirstBadByte : Prop :=
  ∀ (s : State) (pre post : List Byte) (b : Byte), s.inMem = pre ++ b :: post →
    (∀ x ∈ pre, cbAt s.cb x ≠ []) →
    (pre.flatMap (cbAt s.cb)).length ≤ s.bitCap.toNat →
    (cbAt s.cb b = [] → exec .xlat s = .next
      { s.failed 0x04 .xlat ⟨.usageError, .noCode, pre.length⟩ with bits := [] }) ∧
    (cbAt s.cb b ≠ [] → s.bitCap.toNat < ((pre ++ [b]).flatMap (cbAt s.cb)).length →
      exec .xlat s = .next
        { s.failed 0x04 .xlat ⟨.capacityError, .bitsFull, pre.length⟩ with bits := [] })

/-- R202. -/
def Obligations.XlatLengthLaw : Prop :=
  ∀ (bitCap : Nat) (bytes : List Byte) (cb : CodeBook) (bs : List Bool),
    bytes.length < 2 ^ 32 → xlat bitCap bytes cb = .ok bs →
    bs.length = (bytes.map (fun b => (cbAt cb b).length)).sum ∧
    bs.length = (symbols.map (fun b =>
      (ftAt (freq bytes) b).toNat * (cbAt cb b).length)).sum

/-! ### PACK and UNPACK -/

/-- R180 to R183: length, padding count, and every bit of the payload, the padding bits zero. -/
def Obligations.PackPlacesBitsMostSignificantFirst : Prop :=
  ∀ s : State, ∃ (payload : List Byte) (p : BitVec 3),
    exec .pack s = .next { s.ended 0x05 with pay := payload, pad := p } ∧
    payload.length = (s.bits.length + 7) / 8 ∧
    p.toNat = (8 - s.bits.length % 8) % 8 ∧
    8 * payload.length - p.toNat = s.bits.length ∧
    (p = 0 ↔ s.bits.length % 8 = 0) ∧ (p ≠ 0 → 1 ≤ payload.length) ∧
    ∀ j < payload.length, ∀ k < 8,
      (payload.getD j 0).getLsbD (7 - k) = s.bits.getD (8 * j + k) false

/-- R185, R186, R187: every bit kept, and the one case that raises. -/
def Obligations.UnpackDropsOnlyThePadding : Prop :=
  ∀ s : State,
    (s.pay ≠ [] ∨ s.pad = 0 → ∃ bs : List Bool,
      exec .unpack s = .next { s.ended 0x06 with bits := bs } ∧
      bs.length = 8 * s.pay.length - s.pad.toNat ∧
      ∀ i < bs.length, bs.getD i false = (s.pay.getD (i / 8) 0).getLsbD (7 - i % 8)) ∧
    (s.pay = [] → s.pad ≠ 0 → exec .unpack s = .next
      { s.failed 0x06 .unpack ⟨.formatError, .padNoPayload, 0⟩ with bits := [] })

/-- R188, as functions and on the hardware; R189, packing what was unpacked clears the padding bits
of the last byte and changes nothing else. -/
def Obligations.UnpackInvertsPack : Prop :=
  (∀ bs : List Bool, unpack (pack bs).1 (pack bs).2 = .ok bs) ∧
  (∀ s t : State, exec .pack s = .next t →
    exec .unpack t = .next { t.ended 0x06 with bits := s.bits }) ∧
  ∀ (payload : List Byte) (p : BitVec 3) (bs : List Bool), unpack payload p = .ok bs →
    pack bs = (payload.dropLast ++
      payload.getLast?.toList.map (fun b : Byte => (b >>> p.toNat) <<< p.toNat), p)

/-! ### SER and DES -/

/-- R210, R211, R213: the container's bytes, and that it fits OUT. -/
def Obligations.SerWritesTheContainer : Prop :=
  ∀ s : State,
    let present := symbols.filter (fun b => ftAt s.ft b ≠ 0)
    let n := BitVec.ofNat 16 present.length
    let entry := fun b => let c := ftAt s.ft b
      [b, c.extractLsb' 24 8, c.extractLsb' 16 8, c.extractLsb' 8 8, c.extractLsb' 0 8]
    let out := [n.extractLsb' 8 8, n.extractLsb' 0 8] ++ present.flatMap entry ++
      [BitVec.ofNat 8 s.pad.toNat] ++ s.pay
    exec .ser s = .next { s.ended 0x07 with outMem := out } ∧
    out.length = 3 + 5 * present.length + s.pay.length ∧
    (Config.legal s.cap.toNat s.bitCap.toNat → s.pay.length ≤ s.bitCap.toNat / 8 →
      out.length ≤ s.bitCap.toNat)

/-- R235: DES inverts SER wherever the container is acceptable, SER inverts DES wherever DES
accepts, and so on the hardware (R230). -/
def Obligations.DesInvertsSer : Prop :=
  (∀ (t : FreqTable) (p : BitVec 3) (payload : List Byte), serializable t p payload →
    des (ser t p payload) = .ok ⟨t, p, payload⟩) ∧
  (∀ (k : List Byte) (r : Parsed), des k = .ok r → ser r.ft r.pad r.pay = k) ∧
  ∀ (s : State) (t : FreqTable) (p : BitVec 3) (payload : List Byte),
    serializable t p payload → s.inMem = ser t p payload →
    exec .des s = .next { s.ended 0x08 with ft := t, pad := p, pay := payload }

/-- R230, R233, R302, R310: the first failing check decides cause and position, and the destinations
are emptied. -/
def Obligations.DesReportsTheFirstFailingCheck : Prop :=
  ∀ s : State,
    let k := s.inMem
    let n := 256 * (k.getD 0 0).toNat + (k.getD 1 0).toNat
    let sym := fun j => (k.getD (2 + 5 * j) 0).toNat
    let unordered := fun j => 0 < j ∧ sym j ≤ sym (j - 1)
    let good := fun j => ¬ unordered j ∧ entryCount k j ≠ 0
    let padByte := (k.getD (2 + 5 * n) 0).toNat
    let fails := fun (c : Cause) (pos : Nat) => exec .des s = .next
      { s.failed 0x08 .des ⟨.formatError, c, pos⟩ with
        ft := Vector.replicate 256 0, pad := 0, pay := [] }
    (k.length < 2 → fails .trunc k.length) ∧
    (2 ≤ k.length → 256 < n → fails .badNsym 0) ∧
    (2 ≤ k.length → n ≤ 256 → k.length < 3 + 5 * n → fails .trunc k.length) ∧
    (n ≤ 256 → 3 + 5 * n ≤ k.length →
      (∀ j < n, (∀ i < j, good i) →
        (unordered j → fails .badOrder (2 + 5 * j)) ∧
        (¬ unordered j → entryCount k j = 0 → fails .zeroCount (3 + 5 * j))) ∧
      ((∀ j < n, good j) →
        (7 < padByte → fails .badPad (2 + 5 * n)) ∧
        (padByte ≤ 7 → padByte ≠ 0 → k.length = 3 + 5 * n →
          fails .padNoPayload (2 + 5 * n)) ∧
        (padByte ≤ 7 → n = 0 → 3 < k.length → fails .emptyWithPayload 3)))

/-! ### WALK -/

/-- R246, R240: the walk gives back the bytes whose codes it reads. -/
def Obligations.WalkInvertsXlat : Prop :=
  (∀ (t : FreqTable) (bitCap : Nat) (bytes : List Byte) (bs : List Bool), (tree t).nsym ≠ 0 →
    xlat bitCap bytes (book (tree t)) = .ok bs → walk (tree t) bs = .ok bytes) ∧
  ∀ (s : State) (t : FreqTable) (bytes : List Byte), s.tree = tree t →
    (∀ b ∈ bytes, ftAt t b ≠ 0) → s.bits = bytes.flatMap (cbAt (book (tree t))) →
    exec .walk s = .next { s.ended 0x09 with outMem := bytes }

/-- R240, R242, R243, R244, R302: WALK without bits, WALK under a lone leaf, and the three ways WALK
fails. -/
def Obligations.WalkFailsWhereTheBitsEndNoCode : Prop :=
  ∀ s : State,
    (s.bits = [] → exec .walk s = .next { s.ended 0x09 with outMem := [] }) ∧
    (s.nsym = 1 → ∀ n, s.bits = List.replicate n false → exec .walk s = .next
      { s.ended 0x09 with outMem := List.replicate n (s.root.setWidth 8) }) ∧
    let fails := fun (c : Cause) (pos : Nat) => exec .walk s = .next
      { s.failed 0x09 .walk ⟨.formatError, c, pos⟩ with outMem := [] }
    (s.nsym = 0 → s.bits ≠ [] → fails .noTree 0) ∧
    (s.nsym = 1 → ∀ i post, s.bits = List.replicate i false ++ true :: post →
      fails .badBit i) ∧
    ∀ (t : FreqTable) (bytes : List Byte) (b : Byte) (c d : Code), s.tree = tree t →
      2 ≤ s.nsym.toNat → (∀ x ∈ bytes, ftAt t x ≠ 0) → cbAt (book (tree t)) b = c ++ d →
      c ≠ [] → d ≠ [] → s.bits = bytes.flatMap (cbAt (book (tree t))) ++ c →
      fails .midPath s.bits.length

/-! ### ENCODE -/

/-- R223, R221: "Encoder never fails for any input", in every legal instance. R227: the size of what
it leaves in OUT, which can exceed IN_LEN (it does for the empty input) by at most 1283. -/
def Obligations.EncodeNeverFails : Prop :=
  ∀ s : State, Config.legal s.cap.toNat s.bitCap.toNat → s.inMem.length ≤ s.cap.toNat →
    ∃ (container : List Byte) (t : State),
    encodeBytes s.bitCap.toNat s.inMem = .ok container ∧ exec .encode s = .next t ∧
    t.status = ⟨false, true, .none, s.status.herr⟩ ∧ t.outMem = container ∧ t.inMem = s.inMem ∧
    t.outMem.length = t.encodedSize ∧
    t.encodedSize = 3 + 5 * t.nsym.toNat +
      ((symbols.map (fun b => (ftAt t.ft b).toNat * (cbAt t.cb b).length)).sum + 7) / 8 ∧
    t.outMem.length ≤ s.inMem.length + 1283 ∧
    (s.inMem = [] → s.inMem.length < t.outMem.length)

/-- R205 (b): at most 8 bits a byte. -/
def Obligations.EncodedBitsAtMostEightPerByte : Prop :=
  ∀ bytes : List Byte, bytes.length < 2 ^ 32 →
    (bytes.map (fun b => (cbAt (book (tree (freq bytes))) b).length)).sum ≤ 8 * bytes.length

/-- R224: what ENCODE leaves is a function of IN (and of the instance's capacity), whatever the
state held before. -/
def Obligations.EncodeDependsOnTheInputAlone : Prop :=
  ∀ s₁ s₂ t₁ t₂ : State, s₁.inMem = s₂.inMem → s₁.bitCap = s₂.bitCap →
    exec .encode s₁ = .next t₁ → exec .encode s₂ = .next t₂ → t₁.status.err = .none →
    t₂.status.err = .none ∧ t₁.ft = t₂.ft ∧ t₁.tree = t₂.tree ∧ t₁.cb = t₂.cb ∧
    t₁.bits = t₂.bits ∧ t₁.pay = t₂.pay ∧ t₁.pad = t₂.pad ∧ t₁.outMem = t₂.outMem

/-- R225, R226: the empty input and one distinct symbol. -/
def Obligations.EncodeOfEmptyAndOfOneSymbol : Prop :=
  (∀ s : State, s.inMem = [] → ∃ t, exec .encode s = .next t ∧ t.status.err = .none ∧
    (∀ b, ftAt t.ft b = 0) ∧ t.nsym = 0 ∧ t.root = 511 ∧ (∀ b, cbAt t.cb b = []) ∧
    t.bits = [] ∧ t.pay = [] ∧ t.pad = 0 ∧ t.outMem = [0x00, 0x00, 0x00]) ∧
  ∀ (s : State) (b : Byte) (n : Nat), Config.legal s.cap.toNat s.bitCap.toNat →
    n ≤ s.cap.toNat → 1 ≤ n → s.inMem = List.replicate n b → ∃ t, exec .encode s = .next t ∧ t.status.err = .none ∧
      (∀ x, (ftAt t.ft x).toNat = if x = b then n else 0) ∧
      t.nsym = 1 ∧ t.root.toNat = b.toNat ∧
      (∀ x, cbAt t.cb x = if x = b then [false] else []) ∧
      t.bits = List.replicate n false ∧ t.pay = List.replicate ((n + 7) / 8) 0x00 ∧
      t.pad.toNat = (8 - n % 8) % 8 ∧
      t.outMem = [0x00, 0x01, b] ++ bytesBE32 (BitVec.ofNat 32 n) ++
        [BitVec.ofNat 8 t.pad.toNat] ++ t.pay ∧
      t.outMem.length = 8 + (n + 7) / 8

/-! ### DECODE -/

/-- R255: "`Decoder(Encoder(B)) == B`", as functions and on one instance, `r` being any state whose
IN holds the container; R227's bound says when it fits IN. -/
def Obligations.DecoderInvertsEncoder : Prop :=
  (∀ (cap bitCap : Nat) (bytes : List Byte), Config.legal cap bitCap → bytes.length ≤ cap →
    ∃ container, encodeBytes bitCap bytes = .ok container ∧
      decodeBytes container = .ok bytes) ∧
  ∀ s : State, Config.legal s.cap.toNat s.bitCap.toNat → s.inMem.length ≤ s.cap.toNat →
    ∃ (container : List Byte) (t : State),
    encodeBytes s.bitCap.toNat s.inMem = .ok container ∧ exec .encode s = .next t ∧
    t.status.err = .none ∧ t.outMem = container ∧
    container.length ≤ s.inMem.length + 1283 ∧
    ∀ r : State, r.inMem = container → ∃ u, exec .decode r = .next u ∧
      u.status.err = .none ∧ u.outMem = s.inMem

/-- R250, R251, R254, R257: DECODE gives what `decode(K)` gives, from IN alone, and leaves CB. -/
def Obligations.DecodeIsAFunctionOfTheContainer : Prop :=
  ∀ s : State,
    (∀ bytes, decodeBytes s.inMem = .ok bytes → ∃ t, exec .decode s = .next t ∧
      t.status = ⟨false, true, .none, s.status.herr⟩ ∧ t.outMem = bytes ∧ t.cb = s.cb ∧
      ∃ p, des s.inMem = .ok p ∧ t.ft = p.ft ∧ t.pad = p.pad ∧ t.pay = p.pay ∧
        t.tree = tree p.ft ∧ unpack p.pay p.pad = .ok t.bits) ∧
    (∀ e, decodeBytes s.inMem = .error e → ∃ t, exec .decode s = .next t ∧
      t.status = ⟨false, true, e.kind, s.status.herr⟩ ∧ e.kind = .formatError ∧
      t.errInfo.cause = e.cause ∧ t.errPos = BitVec.ofNat 40 e.pos ∧ t.outMem = [] ∧
      t.cb = s.cb)

/-- R258: whatever the container, DECODE fails with FormatError or emits only keys of the table. -/
def Obligations.DecodeFailsOrEmitsKeysOfTheTable : Prop :=
  ∀ s : State, ∃ t, exec .decode s = .next t ∧
    ((t.status.err = .formatError ∧ t.outMem = []) ∨
      (t.status.err = .none ∧ ∀ b ∈ t.outMem, ftAt t.ft b ≠ 0))

/-! ### Host transactions -/

/-- R270: every register number; STATUS is readable in every state, busy or idle. -/
def Obligations.RegisterReads : Prop :=
  (∀ s : State, exec (.rdCsr 0x01) s = .next (s.answerData ⟨8, s.status.word⟩)) ∧
  ∀ s : State, s.status.busy = false →
    exec (.rdCsr 0x00) s = .next (s.answerData ⟨8, s.cmd⟩) ∧
    exec (.rdCsr 0x02) s = .next (s.answerData ⟨16, s.errInfo.word⟩) ∧
    exec (.rdCsr 0x03) s = .next (s.answerData ⟨40, s.errPos⟩) ∧
    exec (.rdCsr 0x04) s = .next (s.answerData ⟨8, s.ctrl.word⟩) ∧
    exec (.rdCsr 0x05) s = .next (s.answerData ⟨32, BitVec.ofNat 32 s.inMem.length⟩) ∧
    exec (.rdCsr 0x06) s = .next (s.answerData ⟨40, BitVec.ofNat 40 s.outMem.length⟩) ∧
    exec (.rdCsr 0x07) s = .next (s.answerData ⟨40, BitVec.ofNat 40 s.bits.length⟩) ∧
    exec (.rdCsr 0x08) s = .next (s.answerData ⟨40, BitVec.ofNat 40 s.pay.length⟩) ∧
    exec (.rdCsr 0x09) s = .next (s.answerData ⟨3, s.pad⟩) ∧
    exec (.rdCsr 0x0A) s = .next (s.answerData ⟨9, s.nsym⟩) ∧
    exec (.rdCsr 0x0B) s = .next (s.answerData ⟨9, s.root⟩) ∧
    exec (.rdCsr 0x0F) s = .next (s.answerData ⟨32, s.cap⟩) ∧
    exec (.rdCsr 0x10) s = .next (s.answerData ⟨40, s.bitCap⟩) ∧
    (∀ index : Word40, index ∈ [0x0C, 0x0D, 0x0E] ∨ 0x11 ≤ index.toNat →
      exec (.rdCsr index) s = .next s.refuse)

/-- R22, R23, R25: the words STATUS, ERRINFO and CTRL read as. The codes: the kinds of R301, the
phases of R39, and the table of R302, a row a cause: its code, the code of its kind, and the phases
it is raised in. -/
def Obligations.StatusWordsHoldTheirFields : Prop :=
  (∀ s : State,
    s.status.word.toNat = s.status.busy.toNat + 2 * s.status.done.toNat +
      4 * s.status.err.code.toNat + 32 * s.status.herr.toNat ∧
    s.errInfo.word.toNat = s.errInfo.cause.code.toNat + 256 * s.errInfo.phase.code.toNat ∧
    s.ctrl.word.toNat = s.ctrl.ie.toNat) ∧
  [ErrKind.none, .formatError, .usageError, .capacityError].map (·.code.toNat) = [0, 1, 2, 3] ∧
  [Phase.idle, .freq, .tree, .book, .xlat, .pack, .unpack, .ser, .des, .walk].map
    (·.code.toNat) = [0, 1, 2, 3, 4, 5, 6, 7, 8, 9] ∧
  [Cause.none, .trunc, .badNsym, .badOrder, .zeroCount, .badPad, .padNoPayload,
    .emptyWithPayload, .midPath, .badBit, .noTree, .badOpcode, .noCode, .bitsFull].map
    (fun c => (c.code.toNat, c.kind.code.toNat, c.phases.map (·.code.toNat))) =
  [(0x00, 0, [0]), (0x01, 1, [8]), (0x02, 1, [8]), (0x03, 1, [8]), (0x04, 1, [8]), (0x05, 1, [8]),
    (0x06, 1, [8, 6]), (0x07, 1, [8]), (0x08, 1, [9]), (0x09, 1, [9]), (0x0A, 1, [9]),
    (0x10, 2, [0]), (0x11, 2, [4]), (0x20, 3, [4])]

/-- R271, R22, R25, R30: the registers that store or clear, and the read-only ones. -/
def Obligations.RegisterWrites : Prop :=
  ∀ (s : State) (d : Word40), s.status.busy = false →
    exec (.wrCsr 0x01 d) s = .next { s with
      status := { s.status with
        done := s.status.done && !d.getLsbD 1
        herr := s.status.herr && !d.getLsbD 5 }
      answer := some .ok } ∧
    exec (.wrCsr 0x04 d) s = .next { s with ctrl := ⟨d.getLsbD 0⟩, answer := some .ok } ∧
    (d.toNat ≤ 7 → ∃ p : BitVec 3, p.toNat = d.toNat ∧
      exec (.wrCsr 0x09 d) s = .next { s with pad := p, answer := some .ok }) ∧
    (7 < d.toNat → exec (.wrCsr 0x09 d) s = .next s.refuse) ∧
    ∀ index : Word40, index ∈ [0x02, 0x03, 0x06, 0x0A, 0x0B, 0x0F, 0x10] →
      exec (.wrCsr index d) s = .next s.refuse

/-- R271, R26, R28, R29: write-truncate of the three lengths; the units below stay. -/
def Obligations.LengthWritesTruncate : Prop :=
  ∀ (s : State) (d : Word40), s.status.busy = false →
    (d.toNat ≤ s.inMem.length → ∃ m, exec (.wrCsr 0x05 d) s =
        .next { s with inMem := m, answer := some .ok } ∧
      m.length = d.toNat ∧ ∀ a < d.toNat, m[a]? = s.inMem[a]?) ∧
    (s.inMem.length < d.toNat → exec (.wrCsr 0x05 d) s = .next s.refuse) ∧
    (d.toNat ≤ s.bits.length → ∃ m, exec (.wrCsr 0x07 d) s =
        .next { s with bits := m, answer := some .ok } ∧
      m.length = d.toNat ∧ ∀ a < d.toNat, m[a]? = s.bits[a]?) ∧
    (s.bits.length < d.toNat → exec (.wrCsr 0x07 d) s = .next s.refuse) ∧
    (d.toNat ≤ s.pay.length → ∃ m, exec (.wrCsr 0x08 d) s =
        .next { s with pay := m, answer := some .ok } ∧
      m.length = d.toNat ∧ ∀ a < d.toNat, m[a]? = s.pay[a]?) ∧
    (s.pay.length < d.toNat → exec (.wrCsr 0x08 d) s = .next s.refuse)

/-- R33, R34, R35, R271: a push stores its unit at the address the length register names, every
other address of the memory reads as before, and the length grows by one; into a full memory it is
refused. -/
def Obligations.PushesAppendAtTheLength : Prop :=
  ∀ (s : State) (d : Word40), s.status.busy = false →
    (s.inMem.length < s.cap.toNat → ∃ m, exec (.wrCsr 0x0C d) s =
        .next { s with inMem := m, answer := some .ok } ∧ m.length = s.inMem.length + 1 ∧
      m[s.inMem.length]? = some (d.setWidth 8) ∧
      ∀ a, a ≠ s.inMem.length → m[a]? = s.inMem[a]?) ∧
    (s.cap.toNat ≤ s.inMem.length → exec (.wrCsr 0x0C d) s = .next s.refuse) ∧
    (s.bits.length < s.bitCap.toNat → ∃ m, exec (.wrCsr 0x0D d) s =
        .next { s with bits := m, answer := some .ok } ∧ m.length = s.bits.length + 1 ∧
      m[s.bits.length]? = some (d.getLsbD 0) ∧
      ∀ a, a ≠ s.bits.length → m[a]? = s.bits[a]?) ∧
    (s.bitCap.toNat ≤ s.bits.length → exec (.wrCsr 0x0D d) s = .next s.refuse) ∧
    (s.pay.length < s.bitCap.toNat / 8 → ∃ m, exec (.wrCsr 0x0E d) s =
        .next { s with pay := m, answer := some .ok } ∧ m.length = s.pay.length + 1 ∧
      m[s.pay.length]? = some (d.setWidth 8) ∧
      ∀ a, a ≠ s.pay.length → m[a]? = s.pay[a]?) ∧
    (s.bitCap.toNat / 8 ≤ s.pay.length → exec (.wrCsr 0x0E d) s = .next s.refuse)

/-- R272, R277: the reads of the four memories, bounded by the current length. -/
def Obligations.MemoryReadsAreBoundedByTheLength : Prop :=
  ∀ (s : State) (index : Word40), s.status.busy = false →
    (index.toNat < s.inMem.length →
      exec (.rdIn index) s = .next (s.answerData ⟨8, s.inMem.getD index.toNat 0⟩)) ∧
    (s.inMem.length ≤ index.toNat → exec (.rdIn index) s = .next s.refuse) ∧
    (index.toNat < s.outMem.length →
      exec (.rdOut index) s = .next (s.answerData ⟨8, s.outMem.getD index.toNat 0⟩)) ∧
    (s.outMem.length ≤ index.toNat → exec (.rdOut index) s = .next s.refuse) ∧
    (index.toNat < s.bits.length → exec (.rdBits index) s =
      .next (s.answerData ⟨1, BitVec.ofBool (s.bits.getD index.toNat false)⟩)) ∧
    (s.bits.length ≤ index.toNat → exec (.rdBits index) s = .next s.refuse) ∧
    (index.toNat < s.pay.length →
      exec (.rdPay index) s = .next (s.answerData ⟨8, s.pay.getD index.toNat 0⟩)) ∧
    (s.pay.length ≤ index.toNat → exec (.rdPay index) s = .next s.refuse)

/-- R273, R274: FT through the port; a write changes the one entry it names. -/
def Obligations.FrequencyTableThroughThePort : Prop :=
  ∀ (s : State) (index data : Word40), s.status.busy = false →
    (index.toNat ≤ 255 →
      exec (.rdFt index) s = .next (s.answerData ⟨32, ftAt s.ft (index.setWidth 8)⟩) ∧
      ∃ ft : FreqTable,
        exec (.wrFt index data) s = .next { s with ft := ft, answer := some .ok } ∧
        ftAt ft (index.setWidth 8) = data.setWidth 32 ∧
        ∀ b : Byte, b ≠ index.setWidth 8 → ftAt ft b = ftAt s.ft b) ∧
    (256 ≤ index.toNat →
      exec (.rdFt index) s = .next s.refuse ∧ exec (.wrFt index data) s = .next s.refuse)

/-- R275, R276, R126: NODE and CB through the port, read only. -/
def Obligations.TreeAndCodebookThroughThePort : Prop :=
  ∀ (s : State) (index : Word40), s.status.busy = false →
    (index.toNat ≤ 510 → ∃ w : BitVec 58,
      exec (.rdNode index) s = .next (s.answerData ⟨58, w⟩) ∧
      w.toNat = (nodeAt s.node index.toNat).w.toNat +
        (nodeAt s.node index.toNat).l.toNat * 2 ^ 40 +
        (nodeAt s.node index.toNat).r.toNat * 2 ^ 49) ∧
    (511 ≤ index.toNat → exec (.rdNode index) s = .next s.refuse) ∧
    (index.toNat ≤ 255 → exec (.rdCb index) s =
      .next (s.answerData ⟨263, codeWord (cbAt s.cb (index.setWidth 8))⟩)) ∧
    (256 ≤ index.toNat → exec (.rdCb index) s = .next s.refuse)

/-- R127: LEN in the low 8 bits, bit `j` of the code at bit `262 - j`, zero between. -/
def Obligations.CodeWordIsLeftAligned : Prop :=
  ∀ c : Code, c.length ≤ 255 →
    (codeWord c).toNat % 256 = c.length ∧
    (∀ j < c.length, (codeWord c).getLsbD (262 - j) = c.getD j false) ∧
    ∀ k, 8 ≤ k → k < 263 - c.length → (codeWord c).getLsbD k = false

/-- R280: an accepted transaction is answered, and one answered ERR changes nothing but HERR. -/
def Obligations.RefusedTransactionChangesOnlyHerr : Prop :=
  ∀ (t : Txn) (s u : State), s.status.busy = false → accept t s = .next u →
    u.answer ≠ none ∧
    (u.answer = some .err →
      u = { s with answer := some .err, status := { s.status with herr := true } })

/-- R137, `load.in`, with the port as data (log 4): after its statements have been accepted IN holds
exactly the bytes. -/
def Obligations.LoadInPutsTheBytesIn : Prop :=
  ∀ (s : State) (bytes : List Byte) (rest : List HostEvent), s.status.busy = false →
    bytes.length ≤ s.cap.toNat → s.port = Script.loadIn bytes ++ rest →
    Sys2Proof.core.run (1 + bytes.length) s =
      .next { s with inMem := bytes, port := rest, answer := some .ok }
end

