-- ==== Sys2Proof/Laws/State.lean ====
section
/-! SUPPORT. One lemma per field for each named update of the state (true by `rfl`), so that no proof
unfolds a record update. -/

namespace Sys2Proof.Machine

/-! ### `State.start` -/

@[simp] theorem State.start_cmd (w : Byte) (s : State) : (s.start w).cmd = w := rfl
@[simp] theorem State.start_status (w : Byte) (s : State) :
    (s.start w).status = s.status.started := rfl
@[simp] theorem State.start_errInfo (w : Byte) (s : State) :
    (s.start w).errInfo = ⟨.none, .idle⟩ := rfl
@[simp] theorem State.start_errPos (w : Byte) (s : State) : (s.start w).errPos = 0 := rfl
@[simp] theorem State.start_ctrl (w : Byte) (s : State) : (s.start w).ctrl = s.ctrl := rfl
@[simp] theorem State.start_inMem (w : Byte) (s : State) : (s.start w).inMem = s.inMem := rfl
@[simp] theorem State.start_outMem (w : Byte) (s : State) : (s.start w).outMem = s.outMem := rfl
@[simp] theorem State.start_bits (w : Byte) (s : State) : (s.start w).bits = s.bits := rfl
@[simp] theorem State.start_pay (w : Byte) (s : State) : (s.start w).pay = s.pay := rfl
@[simp] theorem State.start_pad (w : Byte) (s : State) : (s.start w).pad = s.pad := rfl
@[simp] theorem State.start_nsym (w : Byte) (s : State) : (s.start w).nsym = s.nsym := rfl
@[simp] theorem State.start_root (w : Byte) (s : State) : (s.start w).root = s.root := rfl
@[simp] theorem State.start_cap (w : Byte) (s : State) : (s.start w).cap = s.cap := rfl
@[simp] theorem State.start_bitCap (w : Byte) (s : State) : (s.start w).bitCap = s.bitCap := rfl
@[simp] theorem State.start_phase (w : Byte) (s : State) : (s.start w).phase = firstPhase w := rfl
@[simp] theorem State.start_ft (w : Byte) (s : State) : (s.start w).ft = s.ft := rfl
@[simp] theorem State.start_node (w : Byte) (s : State) : (s.start w).node = s.node := rfl
@[simp] theorem State.start_cb (w : Byte) (s : State) : (s.start w).cb = s.cb := rfl
@[simp] theorem State.start_answer (w : Byte) (s : State) : (s.start w).answer = s.answer := rfl
@[simp] theorem State.start_port (w : Byte) (s : State) : (s.start w).port = s.port := rfl
@[simp] theorem State.start_pace (w : Byte) (s : State) : (s.start w).pace = s.pace := rfl

/-! ### `State.enter` -/

@[simp] theorem State.enter_cmd (p : Phase) (s : State) : (s.enter p).cmd = s.cmd := rfl
@[simp] theorem State.enter_status (p : Phase) (s : State) : (s.enter p).status = s.status := rfl
@[simp] theorem State.enter_errInfo (p : Phase) (s : State) : (s.enter p).errInfo = s.errInfo := rfl
@[simp] theorem State.enter_errPos (p : Phase) (s : State) : (s.enter p).errPos = s.errPos := rfl
@[simp] theorem State.enter_ctrl (p : Phase) (s : State) : (s.enter p).ctrl = s.ctrl := rfl
@[simp] theorem State.enter_inMem (p : Phase) (s : State) : (s.enter p).inMem = s.inMem := rfl
@[simp] theorem State.enter_outMem (p : Phase) (s : State) : (s.enter p).outMem = s.outMem := rfl
@[simp] theorem State.enter_bits (p : Phase) (s : State) : (s.enter p).bits = s.bits := rfl
@[simp] theorem State.enter_pay (p : Phase) (s : State) : (s.enter p).pay = s.pay := rfl
@[simp] theorem State.enter_pad (p : Phase) (s : State) : (s.enter p).pad = s.pad := rfl
@[simp] theorem State.enter_nsym (p : Phase) (s : State) : (s.enter p).nsym = s.nsym := rfl
@[simp] theorem State.enter_root (p : Phase) (s : State) : (s.enter p).root = s.root := rfl
@[simp] theorem State.enter_cap (p : Phase) (s : State) : (s.enter p).cap = s.cap := rfl
@[simp] theorem State.enter_bitCap (p : Phase) (s : State) : (s.enter p).bitCap = s.bitCap := rfl
@[simp] theorem State.enter_phase (p : Phase) (s : State) : (s.enter p).phase = p := rfl
@[simp] theorem State.enter_ft (p : Phase) (s : State) : (s.enter p).ft = s.ft := rfl
@[simp] theorem State.enter_node (p : Phase) (s : State) : (s.enter p).node = s.node := rfl
@[simp] theorem State.enter_cb (p : Phase) (s : State) : (s.enter p).cb = s.cb := rfl
@[simp] theorem State.enter_answer (p : Phase) (s : State) : (s.enter p).answer = s.answer := rfl
@[simp] theorem State.enter_port (p : Phase) (s : State) : (s.enter p).port = s.port := rfl
@[simp] theorem State.enter_pace (p : Phase) (s : State) : (s.enter p).pace = s.pace := rfl

/-! ### `State.complete` -/

@[simp] theorem State.complete_cmd (s : State) : (s.complete).cmd = s.cmd := rfl
@[simp] theorem State.complete_status (s : State) : (s.complete).status = s.status.completed := rfl
@[simp] theorem State.complete_errInfo (s : State) : (s.complete).errInfo = s.errInfo := rfl
@[simp] theorem State.complete_errPos (s : State) : (s.complete).errPos = s.errPos := rfl
@[simp] theorem State.complete_ctrl (s : State) : (s.complete).ctrl = s.ctrl := rfl
@[simp] theorem State.complete_inMem (s : State) : (s.complete).inMem = s.inMem := rfl
@[simp] theorem State.complete_outMem (s : State) : (s.complete).outMem = s.outMem := rfl
@[simp] theorem State.complete_bits (s : State) : (s.complete).bits = s.bits := rfl
@[simp] theorem State.complete_pay (s : State) : (s.complete).pay = s.pay := rfl
@[simp] theorem State.complete_pad (s : State) : (s.complete).pad = s.pad := rfl
@[simp] theorem State.complete_nsym (s : State) : (s.complete).nsym = s.nsym := rfl
@[simp] theorem State.complete_root (s : State) : (s.complete).root = s.root := rfl
@[simp] theorem State.complete_cap (s : State) : (s.complete).cap = s.cap := rfl
@[simp] theorem State.complete_bitCap (s : State) : (s.complete).bitCap = s.bitCap := rfl
@[simp] theorem State.complete_phase (s : State) : (s.complete).phase = .idle := rfl
@[simp] theorem State.complete_ft (s : State) : (s.complete).ft = s.ft := rfl
@[simp] theorem State.complete_node (s : State) : (s.complete).node = s.node := rfl
@[simp] theorem State.complete_cb (s : State) : (s.complete).cb = s.cb := rfl
@[simp] theorem State.complete_answer (s : State) : (s.complete).answer = s.answer := rfl
@[simp] theorem State.complete_port (s : State) : (s.complete).port = s.port := rfl
@[simp] theorem State.complete_pace (s : State) : (s.complete).pace = s.pace := rfl

/-! ### `State.raise` -/

@[simp] theorem State.raise_cmd (e : Raise) (s : State) : (s.raise e).cmd = s.cmd := rfl
@[simp] theorem State.raise_status (e : Raise) (s : State) :
    (s.raise e).status = { s.status.completed with err := e.kind } := rfl
@[simp] theorem State.raise_errInfo (e : Raise) (s : State) :
    (s.raise e).errInfo = ⟨e.cause, s.phase⟩ := rfl
@[simp] theorem State.raise_errPos (e : Raise) (s : State) :
    (s.raise e).errPos = BitVec.ofNat 40 e.pos := rfl
@[simp] theorem State.raise_ctrl (e : Raise) (s : State) : (s.raise e).ctrl = s.ctrl := rfl
@[simp] theorem State.raise_inMem (e : Raise) (s : State) : (s.raise e).inMem = s.inMem := rfl
@[simp] theorem State.raise_outMem (e : Raise) (s : State) : (s.raise e).outMem = s.outMem := rfl
@[simp] theorem State.raise_bits (e : Raise) (s : State) : (s.raise e).bits = s.bits := rfl
@[simp] theorem State.raise_pay (e : Raise) (s : State) : (s.raise e).pay = s.pay := rfl
@[simp] theorem State.raise_pad (e : Raise) (s : State) : (s.raise e).pad = s.pad := rfl
@[simp] theorem State.raise_nsym (e : Raise) (s : State) : (s.raise e).nsym = s.nsym := rfl
@[simp] theorem State.raise_root (e : Raise) (s : State) : (s.raise e).root = s.root := rfl
@[simp] theorem State.raise_cap (e : Raise) (s : State) : (s.raise e).cap = s.cap := rfl
@[simp] theorem State.raise_bitCap (e : Raise) (s : State) : (s.raise e).bitCap = s.bitCap := rfl
@[simp] theorem State.raise_phase (e : Raise) (s : State) : (s.raise e).phase = .idle := rfl
@[simp] theorem State.raise_ft (e : Raise) (s : State) : (s.raise e).ft = s.ft := rfl
@[simp] theorem State.raise_node (e : Raise) (s : State) : (s.raise e).node = s.node := rfl
@[simp] theorem State.raise_cb (e : Raise) (s : State) : (s.raise e).cb = s.cb := rfl
@[simp] theorem State.raise_answer (e : Raise) (s : State) : (s.raise e).answer = s.answer := rfl
@[simp] theorem State.raise_port (e : Raise) (s : State) : (s.raise e).port = s.port := rfl
@[simp] theorem State.raise_pace (e : Raise) (s : State) : (s.raise e).pace = s.pace := rfl

/-! ### `State.answerOk` -/

@[simp] theorem State.answerOk_cmd (s : State) : (s.answerOk).cmd = s.cmd := rfl
@[simp] theorem State.answerOk_status (s : State) : (s.answerOk).status = s.status := rfl
@[simp] theorem State.answerOk_errInfo (s : State) : (s.answerOk).errInfo = s.errInfo := rfl
@[simp] theorem State.answerOk_errPos (s : State) : (s.answerOk).errPos = s.errPos := rfl
@[simp] theorem State.answerOk_ctrl (s : State) : (s.answerOk).ctrl = s.ctrl := rfl
@[simp] theorem State.answerOk_inMem (s : State) : (s.answerOk).inMem = s.inMem := rfl
@[simp] theorem State.answerOk_outMem (s : State) : (s.answerOk).outMem = s.outMem := rfl
@[simp] theorem State.answerOk_bits (s : State) : (s.answerOk).bits = s.bits := rfl
@[simp] theorem State.answerOk_pay (s : State) : (s.answerOk).pay = s.pay := rfl
@[simp] theorem State.answerOk_pad (s : State) : (s.answerOk).pad = s.pad := rfl
@[simp] theorem State.answerOk_nsym (s : State) : (s.answerOk).nsym = s.nsym := rfl
@[simp] theorem State.answerOk_root (s : State) : (s.answerOk).root = s.root := rfl
@[simp] theorem State.answerOk_cap (s : State) : (s.answerOk).cap = s.cap := rfl
@[simp] theorem State.answerOk_bitCap (s : State) : (s.answerOk).bitCap = s.bitCap := rfl
@[simp] theorem State.answerOk_phase (s : State) : (s.answerOk).phase = s.phase := rfl
@[simp] theorem State.answerOk_ft (s : State) : (s.answerOk).ft = s.ft := rfl
@[simp] theorem State.answerOk_node (s : State) : (s.answerOk).node = s.node := rfl
@[simp] theorem State.answerOk_cb (s : State) : (s.answerOk).cb = s.cb := rfl
@[simp] theorem State.answerOk_answer (s : State) : (s.answerOk).answer = some .ok := rfl
@[simp] theorem State.answerOk_port (s : State) : (s.answerOk).port = s.port := rfl
@[simp] theorem State.answerOk_pace (s : State) : (s.answerOk).pace = s.pace := rfl

/-! ### `State.answerData` -/

@[simp] theorem State.answerData_cmd (d : RData) (s : State) : (s.answerData d).cmd = s.cmd := rfl
@[simp] theorem State.answerData_status (d : RData) (s : State) :
    (s.answerData d).status = s.status := rfl
@[simp] theorem State.answerData_errInfo (d : RData) (s : State) :
    (s.answerData d).errInfo = s.errInfo := rfl
@[simp] theorem State.answerData_errPos (d : RData) (s : State) :
    (s.answerData d).errPos = s.errPos := rfl
@[simp] theorem State.answerData_ctrl (d : RData) (s : State) :
    (s.answerData d).ctrl = s.ctrl := rfl
@[simp] theorem State.answerData_inMem (d : RData) (s : State) :
    (s.answerData d).inMem = s.inMem := rfl
@[simp] theorem State.answerData_outMem (d : RData) (s : State) :
    (s.answerData d).outMem = s.outMem := rfl
@[simp] theorem State.answerData_bits (d : RData) (s : State) :
    (s.answerData d).bits = s.bits := rfl
@[simp] theorem State.answerData_pay (d : RData) (s : State) : (s.answerData d).pay = s.pay := rfl
@[simp] theorem State.answerData_pad (d : RData) (s : State) : (s.answerData d).pad = s.pad := rfl
@[simp] theorem State.answerData_nsym (d : RData) (s : State) :
    (s.answerData d).nsym = s.nsym := rfl
@[simp] theorem State.answerData_root (d : RData) (s : State) :
    (s.answerData d).root = s.root := rfl
@[simp] theorem State.answerData_cap (d : RData) (s : State) : (s.answerData d).cap = s.cap := rfl
@[simp] theorem State.answerData_bitCap (d : RData) (s : State) :
    (s.answerData d).bitCap = s.bitCap := rfl
@[simp] theorem State.answerData_phase (d : RData) (s : State) :
    (s.answerData d).phase = s.phase := rfl
@[simp] theorem State.answerData_ft (d : RData) (s : State) : (s.answerData d).ft = s.ft := rfl
@[simp] theorem State.answerData_node (d : RData) (s : State) :
    (s.answerData d).node = s.node := rfl
@[simp] theorem State.answerData_cb (d : RData) (s : State) : (s.answerData d).cb = s.cb := rfl
@[simp] theorem State.answerData_answer (d : RData) (s : State) :
    (s.answerData d).answer = some (.data d) := rfl
@[simp] theorem State.answerData_port (d : RData) (s : State) :
    (s.answerData d).port = s.port := rfl
@[simp] theorem State.answerData_pace (d : RData) (s : State) :
    (s.answerData d).pace = s.pace := rfl

/-! ### `State.refuse` -/

@[simp] theorem State.refuse_cmd (s : State) : (s.refuse).cmd = s.cmd := rfl
@[simp] theorem State.refuse_status (s : State) :
    (s.refuse).status = { s.status with herr := true } := rfl
@[simp] theorem State.refuse_errInfo (s : State) : (s.refuse).errInfo = s.errInfo := rfl
@[simp] theorem State.refuse_errPos (s : State) : (s.refuse).errPos = s.errPos := rfl
@[simp] theorem State.refuse_ctrl (s : State) : (s.refuse).ctrl = s.ctrl := rfl
@[simp] theorem State.refuse_inMem (s : State) : (s.refuse).inMem = s.inMem := rfl
@[simp] theorem State.refuse_outMem (s : State) : (s.refuse).outMem = s.outMem := rfl
@[simp] theorem State.refuse_bits (s : State) : (s.refuse).bits = s.bits := rfl
@[simp] theorem State.refuse_pay (s : State) : (s.refuse).pay = s.pay := rfl
@[simp] theorem State.refuse_pad (s : State) : (s.refuse).pad = s.pad := rfl
@[simp] theorem State.refuse_nsym (s : State) : (s.refuse).nsym = s.nsym := rfl
@[simp] theorem State.refuse_root (s : State) : (s.refuse).root = s.root := rfl
@[simp] theorem State.refuse_cap (s : State) : (s.refuse).cap = s.cap := rfl
@[simp] theorem State.refuse_bitCap (s : State) : (s.refuse).bitCap = s.bitCap := rfl
@[simp] theorem State.refuse_phase (s : State) : (s.refuse).phase = s.phase := rfl
@[simp] theorem State.refuse_ft (s : State) : (s.refuse).ft = s.ft := rfl
@[simp] theorem State.refuse_node (s : State) : (s.refuse).node = s.node := rfl
@[simp] theorem State.refuse_cb (s : State) : (s.refuse).cb = s.cb := rfl
@[simp] theorem State.refuse_answer (s : State) : (s.refuse).answer = some .err := rfl
@[simp] theorem State.refuse_port (s : State) : (s.refuse).port = s.port := rfl
@[simp] theorem State.refuse_pace (s : State) : (s.refuse).pace = s.pace := rfl

/-! ### `State.ended` -/

@[simp] theorem State.ended_cmd (w : Byte) (s : State) : (s.ended w).cmd = w := rfl
@[simp] theorem State.ended_status (w : Byte) (s : State) :
    (s.ended w).status = ⟨false, true, .none, s.status.herr⟩ := rfl
@[simp] theorem State.ended_errInfo (w : Byte) (s : State) :
    (s.ended w).errInfo = ⟨.none, .idle⟩ := rfl
@[simp] theorem State.ended_errPos (w : Byte) (s : State) : (s.ended w).errPos = 0 := rfl
@[simp] theorem State.ended_ctrl (w : Byte) (s : State) : (s.ended w).ctrl = s.ctrl := rfl
@[simp] theorem State.ended_inMem (w : Byte) (s : State) : (s.ended w).inMem = s.inMem := rfl
@[simp] theorem State.ended_outMem (w : Byte) (s : State) : (s.ended w).outMem = s.outMem := rfl
@[simp] theorem State.ended_bits (w : Byte) (s : State) : (s.ended w).bits = s.bits := rfl
@[simp] theorem State.ended_pay (w : Byte) (s : State) : (s.ended w).pay = s.pay := rfl
@[simp] theorem State.ended_pad (w : Byte) (s : State) : (s.ended w).pad = s.pad := rfl
@[simp] theorem State.ended_nsym (w : Byte) (s : State) : (s.ended w).nsym = s.nsym := rfl
@[simp] theorem State.ended_root (w : Byte) (s : State) : (s.ended w).root = s.root := rfl
@[simp] theorem State.ended_cap (w : Byte) (s : State) : (s.ended w).cap = s.cap := rfl
@[simp] theorem State.ended_bitCap (w : Byte) (s : State) : (s.ended w).bitCap = s.bitCap := rfl
@[simp] theorem State.ended_phase (w : Byte) (s : State) : (s.ended w).phase = .idle := rfl
@[simp] theorem State.ended_ft (w : Byte) (s : State) : (s.ended w).ft = s.ft := rfl
@[simp] theorem State.ended_node (w : Byte) (s : State) : (s.ended w).node = s.node := rfl
@[simp] theorem State.ended_cb (w : Byte) (s : State) : (s.ended w).cb = s.cb := rfl
@[simp] theorem State.ended_answer (w : Byte) (s : State) : (s.ended w).answer = s.answer := rfl
@[simp] theorem State.ended_port (w : Byte) (s : State) : (s.ended w).port = s.port := rfl
@[simp] theorem State.ended_pace (w : Byte) (s : State) : (s.ended w).pace = s.pace := rfl

/-! ### `State.failed` -/

@[simp] theorem State.failed_cmd (w : Byte) (p : Phase) (e : Raise) (s : State) :
    (s.failed w p e).cmd = w := rfl
@[simp] theorem State.failed_status (w : Byte) (p : Phase) (e : Raise) (s : State) :
    (s.failed w p e).status = ⟨false, true, e.kind, s.status.herr⟩ := rfl
@[simp] theorem State.failed_errInfo (w : Byte) (p : Phase) (e : Raise) (s : State) :
    (s.failed w p e).errInfo = ⟨e.cause, p⟩ := rfl
@[simp] theorem State.failed_errPos (w : Byte) (p : Phase) (e : Raise) (s : State) :
    (s.failed w p e).errPos = BitVec.ofNat 40 e.pos := rfl
@[simp] theorem State.failed_ctrl (w : Byte) (p : Phase) (e : Raise) (s : State) :
    (s.failed w p e).ctrl = s.ctrl := rfl
@[simp] theorem State.failed_inMem (w : Byte) (p : Phase) (e : Raise) (s : State) :
    (s.failed w p e).inMem = s.inMem := rfl
@[simp] theorem State.failed_outMem (w : Byte) (p : Phase) (e : Raise) (s : State) :
    (s.failed w p e).outMem = s.outMem := rfl
@[simp] theorem State.failed_bits (w : Byte) (p : Phase) (e : Raise) (s : State) :
    (s.failed w p e).bits = s.bits := rfl
@[simp] theorem State.failed_pay (w : Byte) (p : Phase) (e : Raise) (s : State) :
    (s.failed w p e).pay = s.pay := rfl
@[simp] theorem State.failed_pad (w : Byte) (p : Phase) (e : Raise) (s : State) :
    (s.failed w p e).pad = s.pad := rfl
@[simp] theorem State.failed_nsym (w : Byte) (p : Phase) (e : Raise) (s : State) :
    (s.failed w p e).nsym = s.nsym := rfl
@[simp] theorem State.failed_root (w : Byte) (p : Phase) (e : Raise) (s : State) :
    (s.failed w p e).root = s.root := rfl
@[simp] theorem State.failed_cap (w : Byte) (p : Phase) (e : Raise) (s : State) :
    (s.failed w p e).cap = s.cap := rfl
@[simp] theorem State.failed_bitCap (w : Byte) (p : Phase) (e : Raise) (s : State) :
    (s.failed w p e).bitCap = s.bitCap := rfl
@[simp] theorem State.failed_phase (w : Byte) (p : Phase) (e : Raise) (s : State) :
    (s.failed w p e).phase = .idle := rfl
@[simp] theorem State.failed_ft (w : Byte) (p : Phase) (e : Raise) (s : State) :
    (s.failed w p e).ft = s.ft := rfl
@[simp] theorem State.failed_node (w : Byte) (p : Phase) (e : Raise) (s : State) :
    (s.failed w p e).node = s.node := rfl
@[simp] theorem State.failed_cb (w : Byte) (p : Phase) (e : Raise) (s : State) :
    (s.failed w p e).cb = s.cb := rfl
@[simp] theorem State.failed_answer (w : Byte) (p : Phase) (e : Raise) (s : State) :
    (s.failed w p e).answer = s.answer := rfl
@[simp] theorem State.failed_port (w : Byte) (p : Phase) (e : Raise) (s : State) :
    (s.failed w p e).port = s.port := rfl
@[simp] theorem State.failed_pace (w : Byte) (p : Phase) (e : Raise) (s : State) :
    (s.failed w p e).pace = s.pace := rfl

/-! ### Status -/

@[simp] theorem Status.started_busy (t : Status) : t.started.busy = true := rfl
@[simp] theorem Status.started_done (t : Status) : t.started.done = false := rfl
@[simp] theorem Status.started_err (t : Status) : t.started.err = .none := rfl
@[simp] theorem Status.started_herr (t : Status) : t.started.herr = t.herr := rfl
@[simp] theorem Status.completed_busy (t : Status) : t.completed.busy = false := rfl
@[simp] theorem Status.completed_done (t : Status) : t.completed.done = true := rfl
@[simp] theorem Status.completed_err (t : Status) : t.completed.err = t.err := rfl
@[simp] theorem Status.completed_herr (t : Status) : t.completed.herr = t.herr := rfl

/-- Starting a command that has been started already changes nothing (log 7). -/
theorem State.start_start (w : Byte) (s : State) : (s.start w).start w = s.start w := rfl

end Sys2Proof.Machine
end

