-- ==== Sys2Proof/Laws/Ops.lean ====
section
/-! SUPPORT. What each shared operation of Machine/Ops.lean and Machine/Operands.lean can do, said once:
a command from start to completion, a row of stages, a transaction, the memories and the tables. -/

namespace Sys2Proof.Machine

/-! ### Commands -/

/-- A command always completes: it is its body on the started state, then its end. -/
theorem command_eq (w : Byte) (body : State → StageResult) (s : State) :
    command w body s = .next (body (s.start w)).finish := rfl

/-- What a command answers next is the end of its body. -/
theorem command_next {w : Byte} {body : State → StageResult} {s t : State} :
    command w body s = .next t ↔ t = (body (s.start w)).finish := by
  simp [command, eq_comm]

@[simp] theorem finish_done (s : State) : (StageResult.done s).finish = s.complete := rfl
@[simp] theorem finish_raised (s : State) (e : Raise) :
    (StageResult.raised s e).finish = s.raise e := rfl

@[simp] theorem runStages_nil (s : State) : runStages [] s = .done s := rfl

/-- A stage that is done hands its state on; one that raises ends the row. -/
theorem runStages_cons (p : Phase) (f : State → StageResult)
    (rest : List (Phase × (State → StageResult))) (s : State) :
    runStages ((p, f) :: rest) s =
      match f (s.enter p) with
      | .done s' => runStages rest s'
      | .raised s' e => .raised s' e := rfl

/-- A row of one stage is that stage, entered. -/
theorem runStages_single (p : Phase) (f : State → StageResult) (s : State) :
    runStages [(p, f)] s = f (s.enter p) := by
  rw [runStages_cons]; cases f (s.enter p) <;> rfl

/-- The end of a command sets BUSY = 0, DONE = 1 and PHASE = 0 and leaves HERR, whatever its body. -/
theorem finish_lifeCycle (r : StageResult) :
    r.finish.status.busy = false ∧ r.finish.status.done = true ∧ r.finish.phase = .idle := by
  cases r <;> exact ⟨rfl, rfl, rfl⟩

/-! ### Transactions -/

/-- A transaction has two outcomes: held without effect, or performed. -/
theorem transact_eq (b : Bool) (f : State → State) (s : State) :
    transact b f s = .next (if s.holds b then s else f s) := by
  unfold transact; split <;> rfl

/-- While idle every transaction is performed (R261). -/
theorem transact_idle {s : State} (h : s.status.busy = false) (b : Bool) (f : State → State) :
    transact b f s = .next (f s) := by
  simp [transact_eq, State.holds, h]

/-- While busy every transaction but the read of STATUS is held (R82, R261). -/
theorem transact_busy {s : State} (h : s.status.busy = true) (f : State → State) :
    transact false f s = .next s := by
  simp [transact_eq, State.holds, h]

/-- The read of STATUS is performed in every state (R261). -/
theorem transact_statusRead (f : State → State) (s : State) :
    transact true f s = .next (f s) := by
  simp [transact_eq, State.holds]

@[simp] theorem reply_some (d : RData) (s : State) : s.reply (some d) = s.answerData d := rfl
@[simp] theorem reply_none (s : State) : s.reply none = s.refuse := rfl
@[simp] theorem settle_some (t s : State) : s.settle (some t) = t.answerOk := rfl
@[simp] theorem settle_none (s : State) : s.settle none = s.refuse := rfl

/-! ### Memories -/

/-- A push appends at the length, below the capacity (R33 to R35). -/
theorem push_eq_some {α : Type} {mem m : List α} {capacity : Nat} {x : α} :
    push mem capacity x = some m ↔ mem.length < capacity ∧ m = mem ++ [x] := by
  unfold push; split <;> simp_all [eq_comm]

theorem push_eq_none {α : Type} {mem : List α} {capacity : Nat} {x : α} :
    push mem capacity x = none ↔ capacity ≤ mem.length := by
  unfold push; split <;> simp_all

/-- A write-truncate keeps the units below the new length (R26). -/
theorem truncate_eq_some {α : Type} {mem m : List α} {v : Nat} :
    truncate mem v = some m ↔ v ≤ mem.length ∧ m = mem.take v := by
  unfold truncate; split <;> simp_all [eq_comm]

theorem truncate_eq_none {α : Type} {mem : List α} {v : Nat} :
    truncate mem v = none ↔ mem.length < v := by
  unfold truncate; split <;> simp_all

/-! ### Tables -/

@[simp] theorem getElem_tabulate {α : Type} {n : Nat} (f : Nat → α) {i : Nat} (h : i < n) :
    (tabulate n f)[i] = f i := by
  simp [tabulate]

theorem getElem_padTo {α : Type} {n : Nat} (d : α) (xs : List α) {i : Nat} (h : i < n) :
    (padTo n d xs)[i] = xs.getD i d := by
  simp only [padTo, Vector.getElem_mk, List.getElem_toArray, List.getElem_take]
  rw [List.getElem_append]
  split
  · rename_i h'; simp [List.getD, List.getElem?_eq_getElem h']
  · rename_i h'; simp [List.getD, List.getElem?_eq_none (Nat.le_of_not_lt h')]

@[simp] theorem ftAt_set_self (t : FreqTable) (b : Byte) (c : Count) :
    ftAt (ftSet t b c) b = c := by
  simp [ftAt, ftSet]

theorem ftAt_set_ne (t : FreqTable) {a b : Byte} (c : Count) (h : a ≠ b) :
    ftAt (ftSet t b c) a = ftAt t a := by
  have : b.toNat ≠ a.toNat := fun e => h (BitVec.eq_of_toNat_eq e.symm)
  simp [ftAt, ftSet, Vector.getElem_set_ne _ _ this]

@[simp] theorem ftAt_empty (b : Byte) : ftAt (Vector.replicate 256 0#32) b = 0#32 := by
  simp [ftAt]

/-- A table is known by its entries at the symbols. -/
theorem ft_ext {t u : FreqTable} (h : ∀ b, ftAt t b = ftAt u b) : t = u := by
  apply Vector.ext
  intro i hi
  have := h (BitVec.ofNat 8 i)
  simpa [ftAt, Nat.mod_eq_of_lt hi] using this

theorem cb_ext {t u : CodeBook} (h : ∀ b, cbAt t b = cbAt u b) : t = u := by
  apply Vector.ext
  intro i hi
  have := h (BitVec.ofNat 8 i)
  simpa [cbAt, Nat.mod_eq_of_lt hi] using this

theorem nodeAt_lt {n : NodeStore} {i : Nat} (h : i < 511) : nodeAt n i = n[i] := by
  simp [nodeAt, h]

theorem node_ext {n m : NodeStore} (h : ∀ i < 511, nodeAt n i = nodeAt m i) : n = m := by
  apply Vector.ext
  intro i hi
  simpa [nodeAt, hi] using h i hi

end Sys2Proof.Machine
end

