-- ==== Sys2Proof/Laws/Bits.lean ====
section
/-! SUPPORT. Bytes and bits (R72), big-endian numbers (R73), and what one byte of PACK and UNPACK is. -/

namespace Sys2Proof.Machine

@[simp] theorem byteBits_length (b : Byte) : (byteBits b).length = 8 := rfl

/-- Bit `k` of the eight, most significant first (R72). -/
theorem byteBits_getD (b : Byte) {k : Nat} (h : k < 8) :
    (byteBits b).getD k false = b.getLsbD (7 - k) := by
  match k, h with
  | 0, _ | 1, _ | 2, _ | 3, _ | 4, _ | 5, _ | 6, _ | 7, _ => rfl

theorem bitsToByte_byteBits (b : Byte) : bitsToByte (byteBits b) = b := by
  revert b; decide +kernel

theorem byteBits_bitsToByte {bs : List Bool} (h : bs.length = 8) :
    byteBits (bitsToByte bs) = bs := by
  match bs, h with
  | [a, b, c, d, e, f, g, i], _ =>
    revert a b c d e f g i
    decide +kernel

/-- `be32` reads what `BE32` writes (R73). -/
theorem be32_bytesBE32 (v : BitVec 32) :
    be32 (v.extractLsb' 24 8) (v.extractLsb' 16 8) (v.extractLsb' 8 8) (v.extractLsb' 0 8) =
      v.toNat := by
  have := v.isLt
  simp only [be32, BitVec.extractLsb'_toNat, Nat.shiftRight_eq_div_pow]
  omega

theorem bytesBE32_be32 (b0 b1 b2 b3 : Byte) :
    bytesBE32 (BitVec.ofNat 32 (be32 b0 b1 b2 b3)) = [b0, b1, b2, b3] := by
  have h0 := b0.isLt
  have h1 := b1.isLt
  have h2 := b2.isLt
  have h3 := b3.isLt
  simp only [bytesBE32, List.cons.injEq, and_true]
  refine ⟨?_, ?_, ?_, ?_⟩ <;> apply BitVec.eq_of_toNat_eq <;>
    simp only [be32, BitVec.extractLsb'_toNat, BitVec.toNat_ofNat,
      Nat.shiftRight_eq_div_pow] <;> omega

theorem be16_bytesBE16 (v : BitVec 16) :
    be16 (v.extractLsb' 8 8) (v.extractLsb' 0 8) = v.toNat := by
  have := v.isLt
  simp only [be16, BitVec.extractLsb'_toNat, Nat.shiftRight_eq_div_pow]
  omega

theorem bytesBE16_be16 (b0 b1 : Byte) :
    bytesBE16 (BitVec.ofNat 16 (be16 b0 b1)) = [b0, b1] := by
  have h0 := b0.isLt
  have h1 := b1.isLt
  simp only [bytesBE16, List.cons.injEq, and_true]
  refine ⟨?_, ?_⟩ <;> apply BitVec.eq_of_toNat_eq <;>
    simp only [be16, BitVec.extractLsb'_toNat, BitVec.toNat_ofNat,
      Nat.shiftRight_eq_div_pow] <;> omega

/-! ### Packing -/

@[simp] theorem packBytes_length (n : Nat) (bs : List Bool) : (packBytes n bs).length = n := by
  induction n generalizing bs with
  | zero => rfl
  | succ n ih => simp [packBytes, ih]

/-- The bits of packed bytes are the bits that were packed. -/
theorem packBytes_bits {n : Nat} {bs : List Bool} (h : bs.length = 8 * n) :
    (packBytes n bs).flatMap byteBits = bs := by
  induction n generalizing bs with
  | zero => rw [List.length_eq_zero_iff.mp (by omega : bs.length = 0)]; rfl
  | succ n ih =>
    rw [packBytes, List.flatMap_cons, byteBits_bitsToByte (by simp; omega),
      ih (by simp; omega), List.take_append_drop]

/-- Packing the bits of bytes gives the bytes. -/
theorem packBytes_flatMap (bytes : List Byte) :
    packBytes bytes.length (bytes.flatMap byteBits) = bytes := by
  induction bytes with
  | nil => rfl
  | cons b l ih =>
    rw [List.flatMap_cons, List.length_cons, packBytes,
      List.take_left' (byteBits_length b), List.drop_left' (byteBits_length b), ih,
      bitsToByte_byteBits]

theorem flatMap_byteBits_length (bytes : List Byte) :
    (bytes.flatMap byteBits).length = 8 * bytes.length := by
  induction bytes with
  | nil => rfl
  | cons b l ih => rw [List.flatMap_cons, List.length_append, ih]; simp; omega

/-- Bit `i` of the bytes in order (R186). -/
theorem flatMap_byteBits_getD (bytes : List Byte) {i : Nat} (h : i < 8 * bytes.length) :
    (bytes.flatMap byteBits).getD i false = (bytes.getD (i / 8) 0).getLsbD (7 - i % 8) := by
  induction bytes generalizing i with
  | nil => simp at h
  | cons b l ih =>
    rw [List.flatMap_cons]
    by_cases hi : i < 8
    · rw [List.getD_append _ _ _ _ (by simpa using hi), byteBits_getD b hi,
        Nat.div_eq_of_lt hi, Nat.mod_eq_of_lt hi]
      rfl
    · rw [List.getD_append_right _ _ _ _ (by simp; omega), byteBits_length,
        ih (by simp at h; omega)]
      have h1 : i / 8 = (i - 8) / 8 + 1 := by omega
      have h2 : (i - 8) % 8 = i % 8 := by omega
      rw [h1, h2]
      rfl

end Sys2Proof.Machine
end

