-- ==== Sys2Proof/Laws/Freq.lean ====
section
/-! SUPPORT. The 256 symbols, and the entries of a counted table. -/

namespace Sys2Proof.Machine

@[simp] theorem mem_symbols (b : Byte) : b ∈ symbols := by
  rw [symbols, List.mem_map]
  exact ⟨b.toNat, List.mem_range.mpr b.isLt, by simp⟩

theorem symbols_nodup : symbols.Nodup := by
  refine List.Nodup.map_on (fun i hi j hj h => ?_) List.nodup_range
  have := congrArg BitVec.toNat h
  have hi := List.mem_range.mp hi
  have hj := List.mem_range.mp hj
  simp only [BitVec.toNat_ofNat] at this
  omega

/-- R141: an entry of a counted table. -/
theorem ftAt_freq (bytes : List Byte) (b : Byte) :
    ftAt (freq bytes) b = BitVec.ofNat 32 (bytes.count b) := by
  simp [ftAt, freq]

/-- R143: below 2^32 bytes no counter wraps. -/
theorem ftAt_freq_toNat {bytes : List Byte} (h : bytes.length < 2 ^ 32) (b : Byte) :
    (ftAt (freq bytes) b).toNat = bytes.count b := by
  have := List.count_le_length (a := b) (l := bytes)
  rw [ftAt_freq, BitVec.toNat_ofNat, Nat.mod_eq_of_lt (by omega)]

/-- A sum over the bytes is the sum over the symbols, each as often as it occurs. -/
theorem sum_bytes (f : Byte → Nat) (bytes : List Byte) :
    (bytes.map f).sum = (symbols.map (fun b => bytes.count b * f b)).sum := by
  have key : ∀ (all : List Byte), all.Nodup → (∀ b, b ∈ all) →
      (bytes.map f).sum = (all.map (fun b => bytes.count b * f b)).sum := by
    intro all hnd hall
    induction bytes with
    | nil => simp
    | cons b l ih =>
      have hperm := List.perm_cons_erase (hall b)
      rw [List.map_cons, List.sum_cons, ih,
        (hperm.map (fun c => (b :: l).count c * f c)).sum_eq,
        (hperm.map (fun c => l.count c * f c)).sum_eq]
      simp only [List.map_cons, List.sum_cons, List.count_cons_self]
      have : (all.erase b).map (fun c => (b :: l).count c * f c) =
          (all.erase b).map (fun c => l.count c * f c) := by
        refine List.map_congr_left (fun c hc => ?_)
        have hne : c ≠ b := ((List.Nodup.mem_erase_iff hnd).mp hc).1
        rw [List.count_cons_of_ne (Ne.symm hne)]
      rw [this, Nat.add_mul]
      omega
  exact key symbols symbols_nodup mem_symbols

/-- The sum of all counts, over the symbols. -/
theorem totalCount_eq (t : FreqTable) :
    totalCount t = (symbols.map (fun b => (ftAt t b).toNat)).sum := by
  unfold totalCount
  refine congrArg List.sum (List.ext_getElem (by simp [symbols]) (fun i h1 h2 => ?_))
  have h1 : i < 256 := by simpa using h1
  simp [symbols, ftAt, Nat.mod_eq_of_lt h1]

end Sys2Proof.Machine
end

