-- ==== Sys2Proof/Laws/Huffman.lean ====
section
/-! SUPPORT. R151's loop seen as the building of trees: `HTree` is the tree below a node, `build` is the
loop over a collection of such trees, and the lemmas say what it keeps. Nothing here is a claim. -/

namespace Sys2Proof.Machine

/-- The tree below a node: a Leaf with its symbol and weight, or the `k`-th Internal node. -/
inductive HTree where
  | leaf (sym weight : Nat)
  | join (k : Nat) (l r : HTree)
deriving DecidableEq, Repr

namespace HTree

def weight : HTree → Nat
  | leaf _ w => w
  | join _ l r => l.weight + r.weight

def id : HTree → Nat
  | leaf s _ => s
  | join k _ _ => 256 + k

/-- The member of the priority collection that stands for the tree. -/
def item (x : HTree) : QItem := (x.weight, x.id)

/-- The leaves as (weight, symbol), left to right. -/
def leaves : HTree → List QItem
  | leaf s w => [(w, s)]
  | join _ l r => l.leaves ++ r.leaves

/-- The leaves with their paths, the tree standing at path `p` (R171). -/
def codes : HTree → Code → List (Nat × Code)
  | leaf s _, p => [(s, p)]
  | join _ l r, p => l.codes (p ++ [false]) ++ r.codes (p ++ [true])

def depth : HTree → Nat
  | leaf _ _ => 0
  | join _ l r => max l.depth r.depth + 1

/-- The weights of the Internal nodes, summed: the leaves' weights times their depths. -/
def cost : HTree → Nat
  | leaf _ _ => 0
  | join _ l r => l.cost + r.cost + (l.weight + r.weight)

/-- The number of Internal nodes. -/
def size : HTree → Nat
  | leaf _ _ => 0
  | join _ l r => l.size + r.size + 1

/-- The two children's ids of an Internal node. -/
def childIds : HTree → List Nat
  | leaf _ _ => []
  | join _ l r => [l.id, r.id]

/-- The node as R151 stores it. -/
def node : HTree → Node
  | leaf _ w => ⟨BitVec.ofNat 40 w, 511, 511⟩
  | join _ l r => joinNodes l.item r.item

/-- The tree is in the node store, at its own id, with all below it. -/
def Stored (n : NodeStore) : HTree → Prop
  | leaf s w => s < 256 ∧ nodeAt n s = (leaf s w).node
  | join k l r => 256 + k < 511 ∧ nodeAt n (256 + k) = (join k l r).node ∧
      Stored n l ∧ Stored n r

@[simp] theorem id_leaf (s w : Nat) : (leaf s w).id = s := rfl
@[simp] theorem id_join (k : Nat) (l r : HTree) : (join k l r).id = 256 + k := rfl

end HTree

/-- `insertQ` on trees. -/
def plant (x : HTree) : List HTree → List HTree
  | [] => [x]
  | y :: ys => if QItem.before x.item y.item then x :: y :: ys else y :: plant x ys

/-- `mergeLoop` on trees: the Internal nodes in creation order, and the one tree left. -/
def build : Nat → Nat → List HTree → List HTree × Option HTree
  | fuel + 1, k, a :: b :: q =>
    let c := HTree.join k a b
    let rest := build fuel (k + 1) (plant c q)
    (c :: rest.1, rest.2)
  | _, _, r :: _ => ([], some r)
  | _, _, [] => ([], none)

theorem insertQ_item (x : HTree) (q : List HTree) :
    insertQ x.item (q.map HTree.item) = (plant x q).map HTree.item := by
  induction q with
  | nil => rfl
  | cons y ys ih =>
    simp only [List.map_cons, insertQ, plant]
    split <;> simp [ih]

/-- The loop over (weight, id) pairs is the loop over trees. -/
theorem mergeLoop_eq (fuel : Nat) : ∀ (k : Nat) (q : List HTree),
    mergeLoop fuel k (q.map HTree.item) =
      ((build fuel k q).1.map HTree.node,
        match (build fuel k q).2 with
        | some r => BitVec.ofNat 9 r.id
        | none => 511) := by
  induction fuel with
  | zero => intro k q; cases q <;> rfl
  | succ fuel ih =>
    intro k q
    match q with
    | [] => rfl
    | [_] => rfl
    | a :: b :: q =>
      have h : insertQ (a.item.1 + b.item.1, 256 + k) (q.map HTree.item) =
          (plant (.join k a b) q).map HTree.item := insertQ_item (.join k a b) q
      simp only [List.map_cons, mergeLoop, build, h, ih, HTree.node]

theorem plant_perm (x : HTree) (q : List HTree) : (plant x q).Perm (x :: q) := by
  induction q with
  | nil => exact .refl _
  | cons y ys ih =>
    simp only [plant]
    split
    · exact .refl _
    · exact (ih.cons y).trans (.swap x y ys)

theorem plant_length (x : HTree) (q : List HTree) : (plant x q).length = q.length + 1 :=
  (plant_perm x q).length_eq

/-- A collection with members, and fuel enough, ends in one tree. -/
theorem build_some (fuel : Nat) : ∀ (k : Nat) (q : List HTree), q ≠ [] →
    ∃ r, (build fuel k q).2 = some r := by
  induction fuel with
  | zero =>
    intro k q h
    cases q with
    | nil => exact absurd rfl h
    | cons a q => exact ⟨a, rfl⟩
  | succ fuel ih =>
    intro k q h
    match q with
    | [] => exact absurd rfl h
    | [a] => exact ⟨a, rfl⟩
    | a :: b :: q =>
      exact ih (k + 1) _ (fun e => by have := plant_length (.join k a b) q; simp [e] at this)

/-- What the loop keeps, by induction over its rounds: a property of (round, collection, created
nodes, last tree) that holds at the end and is carried back over a round holds of the loop. -/
theorem build_induct (P : Nat → List HTree → List HTree → HTree → Prop)
    (one : ∀ k r, P k [r] [] r)
    (round : ∀ k a b q made r, P (k + 1) (plant (.join k a b) q) made r →
      P k (a :: b :: q) (HTree.join k a b :: made) r) :
    ∀ (fuel k : Nat) (q : List HTree) (r : HTree), q.length ≤ fuel + 1 →
      (build fuel k q).2 = some r → P k q (build fuel k q).1 r := by
  intro fuel
  induction fuel with
  | zero =>
    intro k q r hl h
    match q, hl with
    | [], _ => cases h
    | [a], _ => obtain rfl : a = r := Option.some.inj h; exact one k a
  | succ fuel ih =>
    intro k q r hl h
    match q, hl with
    | [], _ => cases h
    | [a], _ => obtain rfl : a = r := Option.some.inj h; exact one k a
    | a :: b :: q, hl =>
      refine round k a b q _ r (ih (k + 1) _ r ?_ h)
      rw [plant_length]; simp at hl; omega

/-- The members' leaves are the last tree's leaves. -/
theorem build_leaves {fuel k : Nat} {q : List HTree} {r : HTree} (hl : q.length ≤ fuel + 1)
    (h : (build fuel k q).2 = some r) : (r.leaves).Perm (q.flatMap HTree.leaves) := by
  refine build_induct (fun _ q _ r => (r.leaves).Perm (q.flatMap HTree.leaves)) ?_ ?_ fuel k q r hl h
  · intro k r; simp
  · intro k a b q made r ih
    refine ih.trans (((plant_perm _ _).flatMap_right _).trans ?_)
    simp [HTree.leaves]

/-- R157: one Internal node fewer than members, the `j`-th with id `256 + k + j`. -/
theorem build_ids {fuel k : Nat} {q : List HTree} {r : HTree} (hl : q.length ≤ fuel + 1)
    (h : (build fuel k q).2 = some r) :
    (build fuel k q).1.map HTree.id = (List.range (q.length - 1)).map (fun j => 256 + (k + j)) := by
  refine build_induct (fun k q made _ => made.map HTree.id =
    (List.range (q.length - 1)).map (fun j => 256 + (k + j))) ?_ ?_ fuel k q r hl h
  · intro k r; rfl
  · intro k a b q made r ih
    rw [plant_length] at ih
    simp only [List.map_cons, ih, List.length_cons, Nat.add_sub_cancel, List.range_succ_eq_map,
      List.map_map]
    simp [HTree.id, Function.comp_def]
    omega

/-- The last tree's cost is what the members had and the weights of the created nodes. -/
theorem build_cost {fuel k : Nat} {q : List HTree} {r : HTree} (hl : q.length ≤ fuel + 1)
    (h : (build fuel k q).2 = some r) :
    r.cost = (q.map HTree.cost).sum + ((build fuel k q).1.map HTree.weight).sum := by
  refine build_induct (fun _ q made r => r.cost = (q.map HTree.cost).sum +
    (made.map HTree.weight).sum) ?_ ?_ fuel k q r hl h
  · intro k r; simp
  · intro k a b q made r ih
    rw [ih, ((plant_perm _ _).map HTree.cost).sum_eq]
    simp [HTree.cost, HTree.weight]
    omega

/-- R43 (c), R160: every node, given or created, is the child of one created node, but for the last
tree; no node is a child twice. -/
theorem build_childIds {fuel k : Nat} {q : List HTree} {r : HTree} (hl : q.length ≤ fuel + 1)
    (h : (build fuel k q).2 = some r) :
    ((build fuel k q).1.flatMap HTree.childIds ++ [r.id]).Perm
      (q.map HTree.id ++ (build fuel k q).1.map HTree.id) := by
  refine build_induct (fun _ q made r => (made.flatMap HTree.childIds ++ [r.id]).Perm
    (q.map HTree.id ++ made.map HTree.id)) ?_ ?_ fuel k q r hl h
  · intro k r; simp
  · intro k a b q made r ih
    simp only [List.flatMap_cons, HTree.childIds, List.cons_append, List.nil_append, List.map_cons]
    refine .cons _ (.cons _ (ih.trans ?_))
    refine (((plant_perm _ _).map HTree.id).append_right _).trans ?_
    simp only [List.map_cons, List.cons_append]
    exact List.perm_middle.symm

/-- R160: children are created before their parents. -/
theorem build_childIds_lt {fuel k : Nat} {q : List HTree} {r : HTree} (hl : q.length ≤ fuel + 1)
    (h : (build fuel k q).2 = some r) (hq : ∀ x ∈ q, x.id < 256 + k) :
    ∀ c ∈ (build fuel k q).1, ∀ i ∈ c.childIds, i < c.id := by
  refine build_induct (fun k q made _ => (∀ x ∈ q, x.id < 256 + k) →
    ∀ c ∈ made, ∀ i ∈ c.childIds, i < c.id) ?_ ?_ fuel k q r hl h hq
  · intro k r _ c hc; cases hc
  · intro k a b q made r ih hq c hc i hi
    rcases List.mem_cons.mp hc with rfl | hc
    · have ha := hq a (by simp)
      have hb := hq b (by simp)
      simp only [HTree.childIds, List.mem_cons, List.not_mem_nil, or_false] at hi
      rw [HTree.id_join]
      omega
    · refine ih (fun x hx => ?_) c hc i hi
      rcases List.mem_cons.mp ((plant_perm _ _).mem_iff.mp hx) with rfl | hx
      · rw [HTree.id_join]; omega
      · have := hq x (by simp [hx])
        omega

/-- The last tree is the one member, or the last node created. -/
theorem build_last {fuel k : Nat} {q : List HTree} {r : HTree} (hl : q.length ≤ fuel + 1)
    (h : (build fuel k q).2 = some r) :
    ((build fuel k q).1 = [] ∧ q = [r]) ∨ (build fuel k q).1.getLast? = some r := by
  refine build_induct (fun _ q made r => (made = [] ∧ q = [r]) ∨ made.getLast? = some r)
    ?_ ?_ fuel k q r hl h
  · intro k r; simp
  · intro k a b q made r ih
    right
    rcases ih with ⟨rfl, h2⟩ | ih
    · have := plant_perm (.join k a b) q
      rw [h2] at this
      obtain ⟨rfl, rfl⟩ : r = HTree.join k a b ∧ q = [] := by
        simpa using List.singleton_perm.mp this
      rfl
    · cases made with
      | nil => cases ih
      | cons x made => simpa using ih

/-- The weights add up to the last tree's. -/
theorem build_weight {fuel k : Nat} {q : List HTree} {r : HTree} (hl : q.length ≤ fuel + 1)
    (h : (build fuel k q).2 = some r) : r.weight = (q.map HTree.weight).sum := by
  refine build_induct (fun _ q _ r => r.weight = (q.map HTree.weight).sum) ?_ ?_ fuel k q r hl h
  · intro k r; simp
  · intro k a b q made r ih
    rw [ih, ((plant_perm _ _).map HTree.weight).sum_eq]
    simp [HTree.weight]
    omega

/-- No created node weighs more than all members together, and none weighs nothing unless a member
does. -/
theorem build_weights {fuel k : Nat} {q : List HTree} {r : HTree} (hl : q.length ≤ fuel + 1)
    (h : (build fuel k q).2 = some r) (hq : ∀ x ∈ q, 0 < x.weight) :
    ∀ c ∈ (build fuel k q).1, 0 < c.weight ∧ c.weight ≤ (q.map HTree.weight).sum := by
  refine build_induct (fun _ q made _ => (∀ x ∈ q, 0 < x.weight) →
    ∀ c ∈ made, 0 < c.weight ∧ c.weight ≤ (q.map HTree.weight).sum) ?_ ?_ fuel k q r hl h hq
  · intro k r _ c hc; cases hc
  · intro k a b q made r ih hq c hc
    have ha := hq a (by simp)
    rcases List.mem_cons.mp hc with rfl | hc
    · simp [HTree.weight]; omega
    · have := ih (fun x hx => ?_) c hc
      · rw [((plant_perm _ _).map HTree.weight).sum_eq] at this
        simp [HTree.weight] at this ⊢
        omega
      · rcases List.mem_cons.mp ((plant_perm _ _).mem_iff.mp hx) with rfl | hx
        · simp [HTree.weight]; omega
        · exact hq x (by simp [hx])

/-- What is made of stored members, each created node being in the store, is stored. -/
theorem build_stored {fuel k : Nat} {q : List HTree} {r : HTree} (n : NodeStore)
    (hl : q.length ≤ fuel + 1) (h : (build fuel k q).2 = some r) (hq : ∀ x ∈ q, x.Stored n)
    (hm : ∀ c ∈ (build fuel k q).1, c.id < 511 ∧ nodeAt n c.id = c.node) :
    r.Stored n ∧ ∀ c ∈ (build fuel k q).1, c.Stored n := by
  refine build_induct (fun _ q made r => (∀ x ∈ q, x.Stored n) →
    (∀ c ∈ made, c.id < 511 ∧ nodeAt n c.id = c.node) → r.Stored n ∧ ∀ c ∈ made, c.Stored n)
    ?_ ?_ fuel k q r hl h hq hm
  · intro k r hq _; exact ⟨hq r (by simp), fun c hc => by cases hc⟩
  · intro k a b q made r ih hq hm
    have hc : (HTree.join k a b).Stored n :=
      have hj := hm (.join k a b) (by simp)
      ⟨hj.1, hj.2, hq a (by simp), hq b (by simp)⟩
    have := ih (fun x hx => ?_) (fun c hc => hm c (by simp [hc]))
    · exact ⟨this.1, fun c hc' => by rcases List.mem_cons.mp hc' with rfl | h'
                                     · exact hc
                                     · exact this.2 c h'⟩
    · rcases List.mem_cons.mp ((plant_perm _ _).mem_iff.mp hx) with rfl | hx
      · exact hc
      · exact hq x (by simp [hx])

/-- Only as many Internal nodes lie below the last tree as were given or created. -/
theorem build_size {fuel k : Nat} {q : List HTree} {r : HTree} (hl : q.length ≤ fuel + 1)
    (h : (build fuel k q).2 = some r) :
    r.size = (q.map HTree.size).sum + (q.length - 1) := by
  refine build_induct (fun _ q _ r => r.size = (q.map HTree.size).sum + (q.length - 1))
    ?_ ?_ fuel k q r hl h
  · intro k r; simp
  · intro k a b q made r ih
    rw [ih, ((plant_perm _ _).map HTree.size).sum_eq, plant_length]
    simp [HTree.size]
    omega

theorem HTree.depth_le_size (x : HTree) : x.depth ≤ x.size := by
  induction x with
  | leaf => exact Nat.le_refl _
  | join k l r ihl ihr => show max l.depth r.depth + 1 ≤ l.size + r.size + 1; omega

/-! ### The order of the collection -/

/-- The members stand in ascending weight. -/
def Ascending (q : List HTree) : Prop := q.Pairwise (fun a b => a.weight ≤ b.weight)

/-- R153: "smaller weight first; among equal weights, smaller node id first". -/
theorem before_iff (x y : QItem) :
    QItem.before x y = true ↔ x.1 < y.1 ∨ (x.1 = y.1 ∧ x.2 < y.2) := by
  simp [QItem.before]

theorem before_weight {x y : HTree} (h : QItem.before x.item y.item = true) :
    x.weight ≤ y.weight := by
  have : x.weight < y.weight ∨ (x.weight = y.weight ∧ x.id < y.id) := (before_iff _ _).mp h
  omega

theorem not_before_weight {x y : HTree} (h : ¬ QItem.before x.item y.item = true) :
    y.weight ≤ x.weight := by
  have : ¬ (x.weight < y.weight ∨ (x.weight = y.weight ∧ x.id < y.id)) :=
    fun e => h ((before_iff _ _).mpr e)
  omega

/-- R153: inserting keeps the order. -/
theorem plant_ascending {x : HTree} {q : List HTree} (h : Ascending q) :
    Ascending (plant x q) := by
  induction q with
  | nil => simp [plant, Ascending]
  | cons y ys ih =>
    obtain ⟨h1, h2⟩ := List.pairwise_cons.mp h
    simp only [plant]
    split
    · rename_i hb
      refine List.pairwise_cons.mpr ⟨fun z hz => ?_, h⟩
      rcases List.mem_cons.mp hz with rfl | hz
      · exact before_weight hb
      · exact Nat.le_trans (before_weight hb) (h1 z hz)
    · rename_i hb
      refine List.pairwise_cons.mpr ⟨fun z hz => ?_, ih h2⟩
      rcases List.mem_cons.mp ((plant_perm _ _).mem_iff.mp hz) with rfl | hz
      · exact not_before_weight hb
      · exact h1 z hz

/-- R163: the weights never decrease in creation order. -/
theorem build_ascending {fuel k : Nat} {q : List HTree} {r : HTree} (hl : q.length ≤ fuel + 1)
    (h : (build fuel k q).2 = some r) (hq : Ascending q) : Ascending (build fuel k q).1 := by
  refine (build_induct (fun _ q made _ => Ascending q → made.length + 1 = q.length ∧
    (∀ a b q', q = a :: b :: q' → ∀ c ∈ made, a.weight + b.weight ≤ c.weight) ∧ Ascending made)
    ?_ ?_ fuel k q r hl h hq).2.2
  · intro k r _
    exact ⟨rfl, fun _ _ _ _ c hc => (by cases hc), List.Pairwise.nil⟩
  · intro k a b q made r ih hq
    obtain ⟨hab, hb⟩ := List.pairwise_cons.mp hq
    obtain ⟨hbq, hq'⟩ := List.pairwise_cons.mp hb
    obtain ⟨h0, h2, h1⟩ := ih (plant_ascending hq')
    have hlen := plant_length (.join k a b) q
    have key : ∀ c ∈ made, a.weight + b.weight ≤ c.weight := by
      intro c hc
      have low : ∀ z ∈ plant (.join k a b) q, b.weight ≤ z.weight := by
        intro z hz
        rcases List.mem_cons.mp ((plant_perm _ _).mem_iff.mp hz) with rfl | hz
        · simp [HTree.weight]
        · exact hbq z hz
      match hp : plant (.join k a b) q with
      | [] => simp [hp] at hlen
      | [x] =>
        rw [hp] at h0
        have : made = [] := List.eq_nil_of_length_eq_zero (by simpa using h0)
        simp [this] at hc
      | x :: y :: q' =>
        have := h2 x y q' hp c hc
        have hx := low x (by simp [hp])
        have hy := low y (by simp [hp])
        have := hab b (by simp)
        omega
    refine ⟨by simp [h0, hlen], ?_, List.pairwise_cons.mpr ⟨fun c hc => ?_, h1⟩⟩
    · rintro a' b' q' ⟨⟩ c hc
      rcases List.mem_cons.mp hc with rfl | hc
      · simp [HTree.weight]
      · exact key c hc
    · simpa [HTree.weight] using key c hc

/-- The members stand in the canonical order of R153, equal weights included. -/
def Ordered (q : List HTree) : Prop :=
  q.Pairwise (fun a b => QItem.before a.item b.item = true)

/-- R154: the left child of an Internal node precedes the right one. -/
def HTree.leftFirst : HTree → Prop
  | .leaf _ _ => True
  | .join _ l r => QItem.before l.item r.item = true

theorem before_trans {x y z : QItem} (h1 : QItem.before x y = true)
    (h2 : QItem.before y z = true) : QItem.before x z = true := by
  rw [before_iff] at *
  omega

/-- R153: the order is total on members with different ids. -/
theorem before_of_not_before {x y : QItem} (h : ¬ QItem.before x y = true) (hid : y.2 ≠ x.2) :
    QItem.before y x = true := by
  rw [before_iff] at *
  omega

/-- R153: inserting a member with an id of its own keeps the order. -/
theorem plant_ordered {x : HTree} {q : List HTree} (h : Ordered q) (hid : ∀ y ∈ q, y.id ≠ x.id) :
    Ordered (plant x q) := by
  induction q with
  | nil => simp [plant, Ordered]
  | cons y ys ih =>
    obtain ⟨h1, h2⟩ := List.pairwise_cons.mp h
    simp only [plant]
    split
    · rename_i hb
      refine List.pairwise_cons.mpr ⟨fun z hz => ?_, h⟩
      rcases List.mem_cons.mp hz with rfl | hz
      · exact hb
      · exact before_trans hb (h1 z hz)
    · rename_i hb
      refine List.pairwise_cons.mpr ⟨fun z hz => ?_, ih h2 fun w hw => hid w (by simp [hw])⟩
      rcases List.mem_cons.mp ((plant_perm _ _).mem_iff.mp hz) with rfl | hz
      · exact before_of_not_before hb (hid y (by simp))
      · exact h1 z hz

/-- R153, R154: from an ordered collection every node the loop creates has its left child first. -/
theorem build_leftFirst {fuel k : Nat} {q : List HTree} {r : HTree} (hl : q.length ≤ fuel + 1)
    (h : (build fuel k q).2 = some r) (hq : Ordered q) (hid : ∀ x ∈ q, x.id < 256 + k) :
    ∀ c ∈ (build fuel k q).1, c.leftFirst := by
  refine build_induct (fun k q made _ => Ordered q → (∀ x ∈ q, x.id < 256 + k) →
    ∀ c ∈ made, c.leftFirst) ?_ ?_ fuel k q r hl h hq hid
  · intro k r _ _ c hc; cases hc
  · intro k a b q made r ih hq hid c hc
    obtain ⟨hab, hb⟩ := List.pairwise_cons.mp hq
    rcases List.mem_cons.mp hc with rfl | hc
    · exact hab b (by simp)
    · refine ih (plant_ordered (List.pairwise_cons.mp hb).2 fun y hy => ?_) (fun x hx => ?_) c hc
      · have := hid y (by simp [hy])
        rw [HTree.id_join]
        omega
      · rcases List.mem_cons.mp ((plant_perm _ _).mem_iff.mp hx) with rfl | hx
        · rw [HTree.id_join]; omega
        · have := hid x (by simp [hx])
          omega

/-! ### The bound of R205 (b) -/

/-- In an ascending collection the first `y` members weigh no more than the next `y`. -/
theorem sum_take_succ {z : HTree} {q : List HTree} (h1 : ∀ x ∈ q, z.weight ≤ x.weight)
    (h2 : Ascending q) : ∀ y, y ≤ q.length →
      (((z :: q).take y).map HTree.weight).sum ≤ ((q.take y).map HTree.weight).sum := by
  induction q generalizing z with
  | nil => intro y hy; simp at hy; simp [hy]
  | cons x q ih =>
    intro y hy
    obtain ⟨h3, h4⟩ := List.pairwise_cons.mp h2
    cases y with
    | zero => simp
    | succ y =>
      have := ih h3 h4 y (by simpa using hy)
      have := h1 x (by simp)
      simp only [List.take_succ_cons, List.map_cons, List.sum_cons] at *
      omega

/-- The sum of the `y` least weights does not grow by planting one more tree. -/
theorem sum_take_plant {x : HTree} {q : List HTree} (h : Ascending q) :
    ∀ y, y ≤ q.length →
      (((plant x q).take y).map HTree.weight).sum ≤ ((q.take y).map HTree.weight).sum := by
  induction q with
  | nil => intro y hy; simp at hy; simp [hy]
  | cons z q ih =>
    intro y hy
    obtain ⟨h1, h2⟩ := List.pairwise_cons.mp h
    cases y with
    | zero => simp
    | succ y =>
      simp only [plant]
      split
      · rename_i hb
        have hxz := before_weight hb
        clear ih
        simp only [List.take_succ_cons, List.map_cons, List.sum_cons]
        have := sum_take_succ h1 h2 y (by simpa using hy)
        omega
      · simp only [List.take_succ_cons, List.map_cons, List.sum_cons]
        have := ih h2 y (by simpa using hy)
        omega

/-- Where `2^d ≤ m ≤ 2^(d+1)` members stand in ascending weight, the nodes the loop creates weigh
at most `d` times all members and the `2 (m - 2^d)` least of them once more: the weighted length of
the code that gives the least members `d + 1` bits and the others `d`. -/
theorem build_made_le {fuel k : Nat} {q : List HTree} {r : HTree} (hl : q.length ≤ fuel + 1)
    (h : (build fuel k q).2 = some r) (hq : Ascending q) {d : Nat} (h1 : 2 ^ d ≤ q.length)
    (h2 : q.length ≤ 2 ^ (d + 1)) :
    ((build fuel k q).1.map HTree.weight).sum ≤ d * (q.map HTree.weight).sum +
      ((q.take (2 * (q.length - 2 ^ d))).map HTree.weight).sum := by
  refine build_induct (fun _ q made _ => Ascending q → ∀ d, 2 ^ d ≤ q.length →
    q.length ≤ 2 ^ (d + 1) → (made.map HTree.weight).sum ≤ d * (q.map HTree.weight).sum +
      ((q.take (2 * (q.length - 2 ^ d))).map HTree.weight).sum) ?_ ?_ fuel k q r hl h hq d h1 h2
  · intro k r _ d _ _; simp
  · intro k a b q made r ih hq d h1 h2
    obtain ⟨_, hb⟩ := List.pairwise_cons.mp hq
    obtain ⟨_, hq'⟩ := List.pairwise_cons.mp hb
    have hlen := plant_length (.join k a b) q
    have hsum := ((plant_perm (.join k a b) q).map HTree.weight).sum_eq
    simp only [List.map_cons, List.sum_cons, HTree.weight] at hsum
    -- the round, for a `d` whose power lies below the number of members
    have round : ∀ d, 2 ^ d ≤ q.length + 1 → q.length + 2 ≤ 2 ^ (d + 1) →
        ((HTree.join k a b :: made).map HTree.weight).sum ≤
          d * ((a :: b :: q).map HTree.weight).sum +
            (((a :: b :: q).take (2 * (q.length + 2 - 2 ^ d))).map HTree.weight).sum := by
      intro d h1 h2
      have step := ih (plant_ascending hq') d (by omega) (by omega)
      have hp : 2 ^ (d + 1) = 2 * 2 ^ d := by rw [Nat.pow_succ]; omega
      have htake := sum_take_plant (x := .join k a b) hq' (2 * (q.length + 1 - 2 ^ d))
        (by omega)
      have hidx : 2 * (q.length + 2 - 2 ^ d) = 2 * (q.length + 1 - 2 ^ d) + 2 := by omega
      rw [hlen, hsum] at step
      rw [hidx]
      simp only [List.take_succ_cons, List.map_cons, List.sum_cons, HTree.weight]
      have : d * (a.weight + b.weight + (q.map HTree.weight).sum) =
          d * (a.weight + (b.weight + (q.map HTree.weight).sum)) := by rw [Nat.add_assoc]
      omega
    by_cases he : 2 ^ d = q.length + 2
    · cases d with
      | zero => simp at he
      | succ d =>
        have hp : 2 ^ (d + 1) = 2 * 2 ^ d := by rw [Nat.pow_succ]; omega
        have hd : 0 < 2 ^ d := Nat.two_pow_pos d
        have := round d (by omega) (by omega)
        have hidx : 2 * (q.length + 2 - 2 ^ d) = (a :: b :: q).length := by
          simp only [List.length_cons]; omega
        rw [hidx, List.take_length] at this
        have h0 : (a :: b :: q).length - 2 ^ (d + 1) = 0 := by
          simp only [List.length_cons]; omega
        rw [h0]
        simp only [Nat.mul_zero, List.take_zero, List.map_nil, List.sum_nil, Nat.add_zero]
        rw [Nat.add_mul]
        omega
    · exact round d (by simp only [List.length_cons] at h1; omega)
        (by simpa [Nat.add_assoc] using h2)

/-- R205 (b): of at most `2^n` ascending members the created nodes weigh at most `n` times the
members. -/
theorem build_made_le_mul {fuel k : Nat} {q : List HTree} {r : HTree} (hl : q.length ≤ fuel + 1)
    (h : (build fuel k q).2 = some r) (hq : Ascending q) {n : Nat} (hn : q.length ≤ 2 ^ n) :
    ((build fuel k q).1.map HTree.weight).sum ≤ n * (q.map HTree.weight).sum := by
  have h0 : q.length ≠ 0 := by
    intro e
    rw [List.length_eq_zero_iff] at e
    subst e
    cases fuel <;> cases h
  cases n with
  | zero =>
    have := build_made_le hl h hq (d := 0) (by omega) (by omega)
    have e : q.length = 1 := by simp at hn; omega
    simpa [e] using this
  | succ n =>
    -- the largest power of two up to the number of members
    have hd1 := Nat.pow_log_le_self 2 h0
    have hd2 := Nat.lt_pow_succ_log_self (b := 2) (by omega) q.length
    generalize hd : Nat.log 2 q.length = d at hd1 hd2
    have hbound := build_made_le hl h hq hd1 (Nat.le_of_lt hd2)
    have htake : ((q.take (2 * (q.length - 2 ^ d))).map HTree.weight).sum ≤
        (q.map HTree.weight).sum :=
      ((List.take_sublist _ q).map HTree.weight).sum_le_sum (fun _ _ => Nat.zero_le _)
    by_cases hdn : d ≤ n
    · have : d * (q.map HTree.weight).sum ≤ n * (q.map HTree.weight).sum :=
        Nat.mul_le_mul_right _ hdn
      rw [Nat.add_mul]
      omega
    · have hpow : 2 ^ (n + 1) ≤ 2 ^ d := Nat.pow_le_pow_right (by omega) (by omega)
      have he : q.length = 2 ^ d := by omega
      have hdn' : d = n + 1 := by
        have : 2 ^ d = 2 ^ (n + 1) := by omega
        exact Nat.pow_right_injective (le_refl 2) this
      subst hdn'
      simpa [he] using hbound

end Sys2Proof.Machine
end

