-- ==== Sys2Proof/Laws/Codes.lean ====
section
/-! SUPPORT. The codes of a tree: `HTree.codes` against `visit` (BOOK) and `walkFrom` (WALK) on a node store
that holds the tree, with the prefix property, the code space and the weighted length. -/

namespace Sys2Proof.Machine

namespace HTree

/-- Every code of a tree that stands at path `p` goes on from `p`. -/
theorem codes_prefix {x : HTree} {p : Code} : ∀ e ∈ x.codes p, p <+: e.2 := by
  induction x generalizing p with
  | leaf s w => intro e he; simp [codes] at he; simp [he]
  | join k l r ihl ihr =>
    intro e he
    rcases List.mem_append.mp he with he | he
    · exact (List.prefix_append p _).trans (ihl e he)
    · exact (List.prefix_append p _).trans (ihr e he)

/-- The codes at path `p` are the codes at the root, after `p`. -/
theorem codes_append (x : HTree) (p q : Code) :
    x.codes (p ++ q) = (x.codes q).map (fun e => (e.1, p ++ e.2)) := by
  induction x generalizing q with
  | leaf s w => rfl
  | join k l r ihl ihr => simp [codes, ihl, ihr, List.append_assoc]

theorem codes_eq (x : HTree) (p : Code) :
    x.codes p = (x.codes []).map (fun e => (e.1, p ++ e.2)) := by
  simpa using codes_append x p []

/-- The symbols that have codes are the leaves. -/
theorem codes_symbols (x : HTree) (p : Code) :
    (x.codes p).map Prod.fst = x.leaves.map Prod.snd := by
  induction x generalizing p with
  | leaf s w => rfl
  | join k l r ihl ihr => simp [codes, leaves, ihl, ihr]

/-- R176: of two codes that stand at different places none is a prefix of the other. -/
theorem codes_prefix_free (x : HTree) (p : Code) :
    (x.codes p).Pairwise (fun a b => ¬ a.2 <+: b.2 ∧ ¬ b.2 <+: a.2) := by
  induction x generalizing p with
  | leaf s w => simp [codes]
  | join k l r ihl ihr =>
    refine List.pairwise_append.mpr ⟨ihl _, ihr _, fun a ha b hb => ?_⟩
    have ha' := codes_prefix a ha
    have hb' := codes_prefix b hb
    have clash : ∀ c d : Code, p ++ [false] <+: c → p ++ [true] <+: d → ¬ c <+: d ∧ ¬ d <+: c := by
      intro c d hc hd
      constructor
      · intro h
        have := List.prefix_of_prefix_length_le (hc.trans h) hd (by simp)
        simpa using this.eq_of_length (by simp)
      · intro h
        have := List.prefix_of_prefix_length_le (hd.trans h) hc (by simp)
        simpa using this.eq_of_length (by simp)
    exact clash _ _ ha' hb'

/-- The depth of a code's leaf. -/
theorem codes_length {x : HTree} {p : Code} :
    ∀ e ∈ x.codes p, e.2.length ≤ p.length + x.depth := by
  induction x generalizing p with
  | leaf s w => intro e he; simp [codes] at he; simp [he]
  | join k l r ihl ihr =>
    intro e he
    simp only [depth]
    rcases List.mem_append.mp he with he | he
    · have := ihl e he; simp at this; omega
    · have := ihr e he; simp at this; omega

/-- A code of an Internal node's tree has at least one step. -/
theorem codes_join_length {k : Nat} {l r : HTree} {p : Code} :
    ∀ e ∈ (join k l r).codes p, p.length < e.2.length := by
  intro e he
  rcases List.mem_append.mp he with he | he
  · have := (codes_prefix e he).length_le; simp at this; omega
  · have := (codes_prefix e he).length_le; simp at this; omega

/-- R177: the codes fill the code space below `p`, in units of `2^-n`. -/
theorem codes_space (x : HTree) (p : Code) (n : Nat) (h : p.length + x.depth ≤ n) :
    ((x.codes p).map (fun e => 2 ^ (n - e.2.length))).sum = 2 ^ (n - p.length) := by
  induction x generalizing p with
  | leaf s w => simp [codes]
  | join k l r ihl ihr =>
    simp only [depth] at h
    simp only [codes, List.map_append, List.sum_append]
    rw [ihl _ (by simp; omega), ihr _ (by simp; omega)]
    have : n - p.length = (n - (p.length + 1)) + 1 := by omega
    simp only [List.length_append, List.length_cons, List.length_nil, Nat.zero_add]
    rw [this, Nat.pow_succ]
    omega

/-- The weighted length of the codes is the tree's cost. -/
theorem codes_cost (f : Nat → Nat) (x : HTree) (p : Code) (h : ∀ e ∈ x.leaves, e.1 = f e.2) :
    ((x.codes p).map (fun e => f e.1 * e.2.length)).sum = x.cost + x.weight * p.length := by
  induction x generalizing p with
  | leaf s w => simp [codes, cost, weight, ← h (w, s) (by simp [leaves])]
  | join k l r ihl ihr =>
    simp only [codes, List.map_append, List.sum_append]
    rw [ihl _ (fun e he => h e (by simp [leaves, he])),
      ihr _ (fun e he => h e (by simp [leaves, he]))]
    simp only [cost, weight, List.length_append, List.length_cons, List.length_nil]
    ring

theorem leaves_length (x : HTree) : x.leaves.length = x.size + 1 := by
  induction x with
  | leaf => rfl
  | join k l r ihl ihr => simp [leaves, size, ihl, ihr]; omega

theorem weight_eq (x : HTree) : x.weight = (x.leaves.map Prod.fst).sum := by
  induction x with
  | leaf => simp [weight, leaves]
  | join k l r ihl ihr => simp [weight, leaves, ihl, ihr]

/-! ### On a node store that holds the tree -/

theorem Stored.id_lt {n : NodeStore} {x : HTree} (h : x.Stored n) : x.id < 511 := by
  cases x with
  | leaf s w => exact Nat.lt_trans h.1 (by omega)
  | join k l r => exact h.1

theorem Stored.left {n : NodeStore} {k : Nat} {l r : HTree} (h : (join k l r).Stored n) :
    (nodeAt n (256 + k)).l.toNat = l.id := by
  have := h.2.2.1.id_lt
  rw [h.2.1]
  simp [node, joinNodes, item]
  omega

theorem Stored.right {n : NodeStore} {k : Nat} {l r : HTree} (h : (join k l r).Stored n) :
    (nodeAt n (256 + k)).r.toNat = r.id := by
  have := h.2.2.2.id_lt
  rw [h.2.1]
  simp [node, joinNodes, item]
  omega

theorem Stored.weight_eq {n : NodeStore} {x : HTree} (h : x.Stored n) :
    (nodeAt n x.id).w = BitVec.ofNat 40 x.weight := by
  cases x with
  | leaf s w => rw [id_leaf, h.2]; rfl
  | join k l r => rw [id_join, h.2.1]; rfl

/-- BOOK's visit gives the tree's codes (R171, R172). -/
theorem Stored.visit {n : NodeStore} {x : HTree} (h : x.Stored n) :
    ∀ {fuel : Nat} {p : Code}, x.depth < fuel → visit n fuel x.id p = x.codes p := by
  induction x with
  | leaf s w =>
    intro fuel p hf
    cases fuel with
    | zero => omega
    | succ fuel => simp [Machine.visit, h.1, codes]
  | join k l r ihl ihr =>
    intro fuel p hf
    cases fuel with
    | zero => omega
    | succ fuel =>
      simp only [depth] at hf
      rw [id_join, Machine.visit, if_neg (by omega), if_pos h.1, h.left, h.right,
        ihl h.2.2.1 (by omega), ihr h.2.2.2 (by omega)]
      rfl

/-- Following a code from the root ends at its leaf (R172). -/
theorem Stored.follow {n : NodeStore} {x : HTree} (h : x.Stored n) :
    ∀ e ∈ x.codes [], follow n x.id e.2 = e.1 := by
  induction x with
  | leaf s w => intro e he; simp [codes] at he; simp [he, Machine.follow, id]
  | join k l r ihl ihr =>
    intro e he
    simp only [codes, List.nil_append] at he
    rw [codes_eq l, codes_eq r] at he
    rcases List.mem_append.mp he with he | he
    · obtain ⟨e', he', rfl⟩ := List.mem_map.mp he
      have := ihl h.2.2.1 e' he'
      simpa [Machine.follow, id, h.left] using this
    · obtain ⟨e', he', rfl⟩ := List.mem_map.mp he
      have := ihr h.2.2.2 e' he'
      simpa [Machine.follow, id, h.right] using this

/-- R246's step: from an Internal node of the tree, the rest of a leaf's path emits the leaf and the
walk goes on from the root. -/
theorem Stored.walk_code {n : NodeStore} {root : Nat} {x : HTree} (h : x.Stored n)
    (hx : 256 ≤ x.id) : ∀ e ∈ x.codes [], ∀ (i : Nat) (bs : List Bool),
      walkFrom n root x.id i (e.2 ++ bs) =
        match walkFrom n root root (i + e.2.length) bs with
        | .ok out => .ok (BitVec.ofNat 8 e.1 :: out)
        | .error e => .error e := by
  induction x with
  | leaf s w => have := h.1; rw [id_leaf] at hx; omega
  | join k l r ihl ihr =>
    have child : ∀ (b : Bool) (y : HTree), y.Stored n →
        (if b then (nodeAt n (256 + k)).r.toNat else (nodeAt n (256 + k)).l.toNat) = y.id →
        (256 ≤ y.id → ∀ e ∈ y.codes [], ∀ (i : Nat) (bs : List Bool),
          walkFrom n root y.id i (e.2 ++ bs) =
            match walkFrom n root root (i + e.2.length) bs with
            | .ok out => .ok (BitVec.ofNat 8 e.1 :: out)
            | .error e => .error e) →
        ∀ e ∈ y.codes [], ∀ (i : Nat) (bs : List Bool),
          walkFrom n root (256 + k) i (b :: e.2 ++ bs) =
            match walkFrom n root root (i + (e.2.length + 1)) bs with
            | .ok out => .ok (BitVec.ofNat 8 e.1 :: out)
            | .error e => .error e := by
      intro b y hy hid ih e he i bs
      rw [List.cons_append, walkFrom]
      simp only [hid]
      have hi : i + 1 + e.2.length = i + (e.2.length + 1) := by omega
      cases y with
      | leaf s w =>
        rw [codes, List.mem_singleton] at he
        rw [if_pos (show (leaf s w).id < 256 from hy.1), he]
        rfl
      | join k' l' r' =>
        have hk : 256 ≤ (join k' l' r').id := by rw [id_join]; omega
        rw [if_neg (by omega), ih hk e he, hi]
    intro e he i bs
    simp only [codes, List.nil_append] at he
    rw [codes_eq l, codes_eq r] at he
    rw [id_join]
    rcases List.mem_append.mp he with he | he
    · obtain ⟨e', he', rfl⟩ := List.mem_map.mp he
      have := child false l h.2.2.1 (by simp [h.left]) (ihl h.2.2.1) e' he' i bs
      simpa using this
    · obtain ⟨e', he', rfl⟩ := List.mem_map.mp he
      have := child true r h.2.2.2 (by simp [h.right]) (ihr h.2.2.2) e' he' i bs
      simpa using this

end HTree

end Sys2Proof.Machine
end

