-- ==== Sys2Proof/Laws/Tree.lean ====
section
/-! SUPPORT. What TREE leaves, in terms of the tree it builds: the seeds, the node store slot by slot, and
that the store holds the tree below ROOT. -/

namespace Sys2Proof.Machine

/-! ### The present symbols -/

theorem mem_presentSymbols {t : FreqTable} {w i : Nat} :
    (w, i) ∈ presentSymbols t ↔ ∃ h : i < 256, w = (t[i]).toNat ∧ w ≠ 0 := by
  simp only [presentSymbols, List.mem_filterMap, Prod.exists]
  constructor
  · rintro ⟨c, j, hm, hc⟩
    rw [List.mem_zipIdx_iff_getElem?, List.getElem?_eq_some_iff] at hm
    obtain ⟨hj, hg⟩ := hm
    simp only [Vector.getElem_toList] at hg
    rw [Vector.length_toList] at hj
    split at hc
    · cases hc
    · rename_i h0
      cases hc
      exact ⟨hj, by rw [hg], fun h => h0 (BitVec.eq_of_toNat_eq (by simpa using h))⟩
  · rintro ⟨h, rfl, h0⟩
    refine ⟨t[i], i, ?_, ?_⟩
    · rw [List.mem_zipIdx_iff_getElem?]
      simp [h]
    · rw [if_neg]
      intro e; exact h0 (by simp [e])

/-- R152: the seeds stand in ascending symbol value. -/
theorem presentSymbols_ascending (t : FreqTable) :
    ((presentSymbols t).map Prod.snd).Pairwise (· < ·) := by
  have key : ∀ (l : List Count) (k : Nat),
      (((l.zipIdx k).filterMap (fun c => if c.1 = 0 then none else some (c.1.toNat, c.2))).map
        Prod.snd).Pairwise (· < ·) ∧
      ∀ x ∈ ((l.zipIdx k).filterMap (fun c => if c.1 = 0 then none
        else some (c.1.toNat, c.2))).map Prod.snd, k ≤ x := by
    intro l
    induction l with
    | nil => intro k; simp
    | cons c l ih =>
      intro k
      obtain ⟨h1, h2⟩ := ih (k + 1)
      rw [List.zipIdx_cons]
      by_cases hc : c = 0#32
      · rw [List.filterMap_cons_none (by simp [hc])]
        exact ⟨h1, fun x hx => by have := h2 x hx; omega⟩
      · rw [List.filterMap_cons_some (b := (c.toNat, k)) (by simp [hc]), List.map_cons]
        refine ⟨List.pairwise_cons.mpr ⟨fun x hx => h2 x hx, h1⟩, fun x hx => ?_⟩
        rcases List.mem_cons.mp hx with rfl | hx
        · exact Nat.le_refl _
        · have := h2 x hx; omega
  exact (key t.toList 0).1

theorem presentSymbols_length (t : FreqTable) : (presentSymbols t).length ≤ 256 := by
  have := List.length_filterMap_le (fun c : Count × Nat => if c.1 = 0 then none
    else some (c.1.toNat, c.2)) t.toList.zipIdx
  simpa [presentSymbols] using this

/-! ### The collection TREE starts with -/

/-- The Leaf of a present symbol. -/
def seedLeaf (x : QItem) : HTree := .leaf x.2 x.1

/-- `seedQ` as trees. -/
def forest (t : FreqTable) : List HTree :=
  (presentSymbols t).foldl (fun q x => plant (seedLeaf x) q) []

theorem forest_item (t : FreqTable) : (forest t).map HTree.item = seedQ t := by
  have key : ∀ (l : List QItem) (q : List HTree),
      (l.foldl (fun q x => plant (seedLeaf x) q) q).map HTree.item =
        l.foldl (fun q x => insertQ x q) (q.map HTree.item) := by
    intro l
    induction l with
    | nil => intro q; rfl
    | cons x l ih => intro q; rw [List.foldl_cons, ih, List.foldl_cons, ← insertQ_item]; rfl
  exact key _ []

theorem forest_perm (t : FreqTable) : (forest t).Perm ((presentSymbols t).map seedLeaf) := by
  have key : ∀ (l : List QItem) (q : List HTree),
      (l.foldl (fun q x => plant (seedLeaf x) q) q).Perm (q ++ l.map seedLeaf) := by
    intro l
    induction l with
    | nil => intro q; simp
    | cons x l ih =>
      intro q
      refine (ih _).trans (((plant_perm _ _).append_right _).trans ?_)
      simpa using List.perm_middle.symm
  exact key _ []

theorem forest_ascending (t : FreqTable) : Ascending (forest t) := by
  have key : ∀ (l : List QItem) (q : List HTree), Ascending q →
      Ascending (l.foldl (fun q x => plant (seedLeaf x) q) q) := by
    intro l
    induction l with
    | nil => intro q h; exact h
    | cons x l ih => intro q h; exact ih _ (plant_ascending h)
  exact key _ [] List.Pairwise.nil

/-- R152, R153: the seeds stand in the canonical order. -/
theorem forest_ordered (t : FreqTable) : Ordered (forest t) := by
  have key : ∀ (l : List QItem) (q : List HTree), Ordered q →
      (l.map Prod.snd).Pairwise (· < ·) → (∀ y ∈ q, ∀ x ∈ l, y.id ≠ x.2) →
      Ordered (l.foldl (fun q x => plant (seedLeaf x) q) q) := by
    intro l
    induction l with
    | nil => intro q h _ _; exact h
    | cons x l ih =>
      intro q h hl hid
      obtain ⟨h1, h2⟩ := List.pairwise_cons.mp hl
      refine ih _ (plant_ordered h fun y hy => hid y hy x (by simp)) h2 fun y hy z hz => ?_
      rcases List.mem_cons.mp ((plant_perm _ _).mem_iff.mp hy) with rfl | hy
      · exact Nat.ne_of_lt (h1 z.2 (List.mem_map_of_mem hz))
      · exact hid y hy z (by simp [hz])
  exact key _ [] List.Pairwise.nil (presentSymbols_ascending t) (fun y hy => by cases hy)

theorem forest_length (t : FreqTable) : (forest t).length = (presentSymbols t).length := by
  rw [(forest_perm t).length_eq, List.length_map]

theorem seedQ_length (t : FreqTable) : (seedQ t).length = (presentSymbols t).length := by
  rw [← forest_item, List.length_map, forest_length]

theorem mem_forest {t : FreqTable} {x : HTree} :
    x ∈ forest t ↔ ∃ i, ∃ h : i < 256, x = .leaf i (t[i]).toNat ∧ (t[i]).toNat ≠ 0 := by
  rw [(forest_perm t).mem_iff, List.mem_map]
  constructor
  · rintro ⟨⟨w, i⟩, hm, rfl⟩
    obtain ⟨h, rfl, h0⟩ := mem_presentSymbols.mp hm
    exact ⟨i, h, rfl, h0⟩
  · rintro ⟨i, h, rfl, h0⟩
    exact ⟨(_, i), mem_presentSymbols.mpr ⟨h, rfl, h0⟩, rfl⟩

theorem forest_flatMap_leaves (t : FreqTable) :
    ((forest t).flatMap HTree.leaves).Perm (presentSymbols t) := by
  refine ((forest_perm t).flatMap_right _).trans ?_
  simp [List.flatMap_map, seedLeaf, HTree.leaves]

theorem forest_ids (t : FreqTable) :
    ((forest t).map HTree.id).Perm ((presentSymbols t).map Prod.snd) := by
  refine ((forest_perm t).map _).trans ?_
  simp [seedLeaf, Function.comp_def]

theorem forest_weights (t : FreqTable) : ((forest t).map HTree.weight).sum = totalCount t := by
  rw [((forest_perm t).map _).sum_eq, List.map_map, totalCount, presentSymbols]
  have key : ∀ (l : List Count) (k : Nat), (((l.zipIdx k).filterMap
      (fun c => if c.1 = 0 then none else some (c.1.toNat, c.2))).map
        (HTree.weight ∘ seedLeaf)).sum = (l.map BitVec.toNat).sum := by
    intro l
    induction l with
    | nil => intro k; rfl
    | cons c l ih =>
      intro k
      rw [List.zipIdx_cons]
      by_cases hc : c = 0#32
      · rw [List.filterMap_cons_none (by simp [hc]), ih]; simp [hc]
      · rw [List.filterMap_cons_some (b := (c.toNat, k)) (by simp [hc]), List.map_cons,
          List.sum_cons, ih]
        simp [seedLeaf, HTree.weight]
  exact key _ 0

/-- R158: no weight passes 40 bits. -/
theorem totalCount_lt (t : FreqTable) : totalCount t < 2 ^ 40 := by
  have key : ∀ l : List Count, (l.map BitVec.toNat).sum ≤ l.length * (2 ^ 32 - 1) := by
    intro l
    induction l with
    | nil => simp
    | cons c l ih =>
      have := c.isLt
      simp only [List.map_cons, List.sum_cons, List.length_cons, Nat.add_mul]
      omega
  have := key t.toList
  simp only [Vector.length_toList] at this
  unfold totalCount
  omega

/-! ### The tree and its node store -/

/-- The Internal nodes TREE creates, in creation order. -/
def madeNodes (t : FreqTable) : List HTree := (build (seedQ t).length 0 (forest t)).1

/-- The tree below ROOT, if the table is not empty. -/
def rootTree (t : FreqTable) : Option HTree := (build (seedQ t).length 0 (forest t)).2

theorem forest_fuel (t : FreqTable) : (forest t).length ≤ (seedQ t).length + 1 := by
  rw [seedQ_length, forest_length]; omega

/-- R151: TREE's result in terms of the tree it builds. -/
theorem tree_eq (t : FreqTable) : tree t =
    ⟨padTo 511 Node.unused (t.toList.map leafNode ++ (madeNodes t).map HTree.node),
      (match rootTree t with
        | some r => BitVec.ofNat 9 r.id
        | none => 511), BitVec.ofNat 9 (seedQ t).length⟩ := by
  have h := mergeLoop_eq (seedQ t).length 0 (forest t)
  rw [forest_item] at h
  simp only [tree, h, madeNodes, rootTree]
  all_goals cases (build (seedQ t).length 0 (forest t)).2 <;> rfl

theorem tree_nsym (t : FreqTable) : (tree t).nsym.toNat = (presentSymbols t).length := by
  have := presentSymbols_length t
  rw [tree_eq, seedQ_length]
  simp
  omega

/-- A table that is not empty has a tree. -/
theorem rootTree_some {t : FreqTable} (h : (tree t).nsym ≠ 0) : ∃ r, rootTree t = some r := by
  apply build_some
  intro e
  apply h
  apply BitVec.eq_of_toNat_eq
  rw [tree_nsym, ← forest_length, e]
  rfl

theorem madeNodes_ids {t : FreqTable} {r : HTree} (h : rootTree t = some r) :
    (madeNodes t).map HTree.id =
      (List.range ((presentSymbols t).length - 1)).map (fun j => 256 + j) := by
  have := build_ids (forest_fuel t) h
  rw [madeNodes, this, forest_length]
  simp

theorem madeNodes_length {t : FreqTable} {r : HTree} (h : rootTree t = some r) :
    (madeNodes t).length = (presentSymbols t).length - 1 := by
  have := congrArg List.length (madeNodes_ids h)
  simpa using this

theorem madeNodes_id {t : FreqTable} {r : HTree} (h : rootTree t = some r) {j : Nat}
    (hj : j < (madeNodes t).length) : ((madeNodes t)[j]).id = 256 + j := by
  have h1 := congrArg (fun l => l[j]?) (madeNodes_ids h)
  have h2 := madeNodes_length h
  simp only [List.getElem?_map, List.getElem?_eq_getElem hj, Option.map_some] at h1
  rw [List.getElem?_eq_getElem (by simp; omega)] at h1
  simpa using h1

/-- A leaf slot holds its symbol's count (R42, R152). -/
theorem nodeAt_leaf (t : FreqTable) {i : Nat} (h : i < 256) :
    nodeAt (tree t).node i = leafNode (t[i]) := by
  rw [nodeAt_lt (by omega), tree_eq]
  simp only [getElem_padTo]
  rw [List.getD_append _ _ _ _ (by simpa using h)]
  simp [List.getD, h]

/-- An internal slot holds the node created for it, or is unused (R42, R157). -/
theorem nodeAt_internal (t : FreqTable) {j : Nat} (h : j < 255) :
    nodeAt (tree t).node (256 + j) =
      if hj : j < (madeNodes t).length then ((madeNodes t)[j]).node else Node.unused := by
  rw [nodeAt_lt (by omega), tree_eq]
  simp only [getElem_padTo]
  rw [List.getD_append_right _ _ _ _ (by simp)]
  simp only [List.length_map, Vector.length_toList, Nat.add_sub_cancel_left, List.getD,
    List.getElem?_map]
  split
  · rename_i hj; simp [hj]
  · rename_i hj; simp [List.getElem?_eq_none (Nat.le_of_not_lt hj)]

theorem leaf_node (t : FreqTable) {i : Nat} (h : i < 256) :
    (HTree.leaf i (t[i]).toNat).node = leafNode (t[i]) := by
  simp only [HTree.node, leafNode, Node.mk.injEq, and_true]
  apply BitVec.eq_of_toNat_eq
  simp

/-- The node store holds the tree below ROOT, and every Internal node with what is below it. -/
theorem tree_stored {t : FreqTable} {r : HTree} (h : rootTree t = some r) :
    r.Stored (tree t).node ∧ ∀ c ∈ madeNodes t, c.Stored (tree t).node := by
  refine build_stored (tree t).node (forest_fuel t) h ?_ ?_
  · intro x hx
    obtain ⟨i, hi, rfl, _⟩ := mem_forest.mp hx
    exact ⟨hi, by rw [nodeAt_leaf t hi, leaf_node t hi]⟩
  · intro c hc
    obtain ⟨j, hj, rfl⟩ := List.getElem_of_mem hc
    have h1 := madeNodes_length h
    have h2 := presentSymbols_length t
    have hj' : j < (madeNodes t).length := hj
    have hid : ((madeNodes t)[j]).id = 256 + j := madeNodes_id h hj'
    change ((madeNodes t)[j]).id < 511 ∧
      nodeAt (tree t).node ((madeNodes t)[j]).id = ((madeNodes t)[j]).node
    rw [hid, nodeAt_internal t (by omega), dif_pos hj']
    exact ⟨by omega, rfl⟩

theorem tree_root {t : FreqTable} {r : HTree} (h : rootTree t = some r) :
    (tree t).root.toNat = r.id := by
  have := (tree_stored h).1.id_lt
  rw [tree_eq, h]
  simp
  omega

/-- The leaves below ROOT are the present symbols with their counts (R160). -/
theorem rootTree_leaves {t : FreqTable} {r : HTree} (h : rootTree t = some r) :
    (r.leaves).Perm (presentSymbols t) :=
  (build_leaves (forest_fuel t) h).trans (forest_flatMap_leaves t)

/-- R161: the root weighs what all counts sum to. -/
theorem rootTree_weight {t : FreqTable} {r : HTree} (h : rootTree t = some r) :
    r.weight = totalCount t := by
  rw [build_weight (forest_fuel t) h, forest_weights]

theorem rootTree_size {t : FreqTable} {r : HTree} (h : rootTree t = some r) :
    r.size + 1 = (presentSymbols t).length := by
  rw [← r.leaves_length, (rootTree_leaves h).length_eq]

/-- R162: the depth of the tree. -/
theorem rootTree_depth {t : FreqTable} {r : HTree} (h : rootTree t = some r) :
    r.depth ≤ (presentSymbols t).length - 1 := by
  have := r.depth_le_size
  have := rootTree_size h
  omega

/-- No created node weighs nothing or passes 40 bits. -/
theorem madeNodes_weight {t : FreqTable} {r : HTree} (h : rootTree t = some r) :
    ∀ c ∈ madeNodes t, 0 < c.weight ∧ c.weight < 2 ^ 40 := by
  have hq := build_weights (forest_fuel t) h (fun x hx => by
    obtain ⟨i, hi, rfl, h0⟩ := mem_forest.mp hx
    simp only [HTree.weight]
    omega)
  rw [forest_weights] at hq
  intro c hc
  have := hq c hc
  have := totalCount_lt t
  omega

theorem madeNodes_childIds_lt {t : FreqTable} {r : HTree} (h : rootTree t = some r) :
    ∀ c ∈ madeNodes t, ∀ i ∈ c.childIds, i < c.id := by
  refine build_childIds_lt (forest_fuel t) h (fun x hx => ?_)
  obtain ⟨i, hi, rfl, _⟩ := mem_forest.mp hx
  rw [HTree.id_leaf]
  omega

/-- R154: the left child of every created node precedes the right one. -/
theorem madeNodes_leftFirst {t : FreqTable} {r : HTree} (h : rootTree t = some r) :
    ∀ c ∈ madeNodes t, c.leftFirst := by
  refine build_leftFirst (forest_fuel t) h (forest_ordered t) (fun x hx => ?_)
  obtain ⟨i, hi, rfl, _⟩ := mem_forest.mp hx
  rw [HTree.id_leaf]
  omega

/-- A leaf slot is used iff its symbol is present (R152). -/
theorem used_leaf (t : FreqTable) {i : Nat} (h : i < 256) : (tree t).used i ↔ t[i] ≠ 0 := by
  rw [Tree.used, nodeAt_leaf t h, leafNode]
  simp only [ne_eq, not_iff_not]
  constructor
  · intro e
    apply BitVec.eq_of_toNat_eq
    have h0 : ((t[i]).setWidth 40).toNat = 0 := congrArg BitVec.toNat e
    rw [BitVec.toNat_setWidth] at h0
    have hlt := (t[i]).isLt
    show (t[i]).toNat = 0
    omega
  · intro e; rw [e]; rfl

/-- An internal slot is used iff a node was created for it (R157); else it is an unused slot. -/
theorem used_internal {t : FreqTable} {r : HTree} (h : rootTree t = some r) {j : Nat}
    (hj : j < 255) : ((tree t).used (256 + j) ↔ j < (madeNodes t).length) ∧
      (¬ j < (madeNodes t).length → nodeAt (tree t).node (256 + j) = Node.unused) := by
  by_cases hl : j < (madeNodes t).length
  · refine ⟨iff_of_true (fun e => ?_) hl, fun hn => absurd hl hn⟩
    have hs := ((tree_stored h).2 _ (List.getElem_mem hl)).weight_eq
    have hw := madeNodes_weight h _ (List.getElem_mem hl)
    rw [madeNodes_id h hl, e] at hs
    have h0 : 0 = ((madeNodes t)[j]).weight % 2 ^ 40 := congrArg BitVec.toNat hs
    omega
  · have hu : nodeAt (tree t).node (256 + j) = Node.unused := by
      rw [nodeAt_internal t hj, dif_neg hl]
    exact ⟨iff_of_false (fun e => e (by rw [hu]; rfl)) hl, fun _ => hu⟩

end Sys2Proof.Machine
end

