-- ==== Sys2Proof/Laws/Book.lean ====
section
/-! SUPPORT. What BOOK leaves for a tree that TREE built: the pairs (symbol, code), and the entry of a
symbol. -/

namespace Sys2Proof.Machine

/-- A present symbol, by its table entry. -/
theorem mem_present_iff {t : FreqTable} {b : Byte} :
    b.toNat ∈ (presentSymbols t).map Prod.snd ↔ ftAt t b ≠ 0 := by
  simp only [List.mem_map, Prod.exists, exists_eq_right, mem_presentSymbols]
  constructor
  · rintro ⟨w, _, rfl, h0⟩ e
    exact h0 (by simpa [ftAt] using congrArg BitVec.toNat e)
  · intro h
    exact ⟨_, b.isLt, rfl, fun e => h (BitVec.eq_of_toNat_eq (by simpa [ftAt] using e))⟩

theorem present_nodup (t : FreqTable) : ((presentSymbols t).map Prod.snd).Nodup :=
  (presentSymbols_ascending t).imp (fun h => Nat.ne_of_lt h)

/-- The empty table has the empty tree, which gives no codes (R174). -/
theorem leafCodes_empty {t : FreqTable} (h : presentSymbols t = []) : leafCodes (tree t) = [] := by
  have : (tree t).nsym = 0 := BitVec.eq_of_toNat_eq (by rw [tree_nsym, h]; rfl)
  simp [leafCodes, this]

/-- One present symbol: the tree is its leaf and the code is "0" (R156, R173). -/
theorem leafCodes_lone {t : FreqTable} {w s : Nat} (h : presentSymbols t = [(w, s)]) :
    rootTree t = some (.leaf s w) ∧ leafCodes (tree t) = [(s, [false])] := by
  have hn : (tree t).nsym = 1 := BitVec.eq_of_toNat_eq (by rw [tree_nsym, h]; rfl)
  obtain ⟨r, hr⟩ := rootTree_some (t := t) (by rw [hn]; decide)
  have hl := rootTree_leaves hr
  rw [h] at hl
  obtain rfl : r = .leaf s w := by
    cases r with
    | leaf s' w' => simpa [HTree.leaves, and_comm] using hl
    | join k l r =>
      have := hl.length_eq
      simp [HTree.leaves, HTree.leaves_length] at this
      omega
  refine ⟨hr, ?_⟩
  have := tree_root hr
  simp [leafCodes, hn, this]

/-- Two or more present symbols: the codes are the paths in the tree (R171, R172). -/
theorem leafCodes_tree {t : FreqTable} {r : HTree} (h : rootTree t = some r)
    (h2 : 2 ≤ (tree t).nsym.toNat) : leafCodes (tree t) = r.codes [] := by
  have h0 : (tree t).nsym ≠ 0 := fun e => by rw [e] at h2; simp at h2
  have h1 : (tree t).nsym ≠ 1 := fun e => by rw [e] at h2; simp at h2
  have hd := rootTree_depth h
  have hp := presentSymbols_length t
  rw [leafCodes, if_neg h0, if_neg h1, tree_root h]
  exact (tree_stored h).1.visit (by omega)

/-- The symbols with codes are the present symbols, each once (R172, R175). -/
theorem leafCodes_symbols (t : FreqTable) :
    ((leafCodes (tree t)).map Prod.fst).Perm ((presentSymbols t).map Prod.snd) := by
  match hp : presentSymbols t with
  | [] => rw [leafCodes_empty hp]; simp
  | [(w, s)] => rw [(leafCodes_lone hp).2]; simp
  | x :: y :: l =>
    have h2 : 2 ≤ (tree t).nsym.toNat := by rw [tree_nsym, hp]; simp
    obtain ⟨r, hr⟩ := rootTree_some (t := t) (fun e => by rw [e] at h2; simp at h2)
    rw [leafCodes_tree hr h2, HTree.codes_symbols, ← hp]
    exact (rootTree_leaves hr).map _

theorem leafCodes_nodup (t : FreqTable) : ((leafCodes (tree t)).map Prod.fst).Nodup :=
  (leafCodes_symbols t).nodup_iff.mpr (present_nodup t)

/-- No code is empty, and none has more than 255 bits (R175). -/
theorem leafCodes_length {t : FreqTable} : ∀ e ∈ leafCodes (tree t),
    1 ≤ e.2.length ∧ e.2.length ≤ 255 ∧
      (2 ≤ (tree t).nsym.toNat → e.2.length ≤ (tree t).nsym.toNat - 1) := by
  match hp : presentSymbols t with
  | [] => rw [leafCodes_empty hp]; simp
  | [(w, s)] =>
    rw [(leafCodes_lone hp).2, tree_nsym, hp]
    simp
  | x :: y :: l =>
    have h2 : 2 ≤ (tree t).nsym.toNat := by rw [tree_nsym, hp]; simp
    obtain ⟨r, hr⟩ := rootTree_some (t := t) (fun e => by rw [e] at h2; simp at h2)
    rw [leafCodes_tree hr h2]
    intro e he
    have hd := rootTree_depth hr
    have hp' := presentSymbols_length t
    have hs := rootTree_size hr
    have hn := tree_nsym t
    have hl := HTree.codes_length e he
    simp only [List.length_nil] at hl
    cases r with
    | leaf s w => simp [HTree.size] at hs; omega
    | join k l r =>
      have := HTree.codes_join_length e he
      simp only [List.length_nil] at this
      omega

/-- Looking up a key that occurs once. -/
theorem lookup_of_mem {l : List (Nat × Code)} (h : (l.map Prod.fst).Nodup) {s : Nat} {c : Code}
    (hm : (s, c) ∈ l) : l.lookup s = some c := by
  induction l with
  | nil => cases hm
  | cons e l ih =>
    rw [List.map_cons, List.nodup_cons] at h
    rcases List.mem_cons.mp hm with rfl | hm
    · simp
    · have : (s == e.1) = false := by
        rw [beq_eq_false_iff_ne]
        rintro rfl
        exact h.1 (List.mem_map.mpr ⟨_, hm, rfl⟩)
      rw [List.lookup_cons, this]
      exact ih h.2 hm

theorem lookup_of_not_mem {l : List (Nat × Code)} {s : Nat} (h : s ∉ l.map Prod.fst) :
    l.lookup s = none := by
  induction l with
  | nil => rfl
  | cons e l ih =>
    rw [List.map_cons, List.mem_cons, not_or] at h
    have : (s == e.1) = false := beq_eq_false_iff_ne.mpr h.1
    rw [List.lookup_cons, this]
    exact ih h.2

/-- The entry of a symbol whose pair BOOK finds. -/
theorem cbAt_book {t : FreqTable} {b : Byte} {c : Code} (h : (b.toNat, c) ∈ leafCodes (tree t)) :
    cbAt (book (tree t)) b = c := by
  simp [cbAt, book, lookup_of_mem (leafCodes_nodup t) h]

/-- R175: a symbol has a code iff it is present; its pair is then among the codes. -/
theorem cbAt_book_mem {t : FreqTable} {b : Byte} (h : ftAt t b ≠ 0) :
    (b.toNat, cbAt (book (tree t)) b) ∈ leafCodes (tree t) := by
  have : b.toNat ∈ (leafCodes (tree t)).map Prod.fst :=
    (leafCodes_symbols t).mem_iff.mpr (mem_present_iff.mpr h)
  obtain ⟨e, he, heq⟩ := List.mem_map.mp this
  have he' : (b.toNat, e.2) ∈ leafCodes (tree t) := by rw [← heq]; exact he
  rw [cbAt_book he']
  exact he'

theorem cbAt_book_absent {t : FreqTable} {b : Byte} (h : ftAt t b = 0) :
    cbAt (book (tree t)) b = [] := by
  have : b.toNat ∉ (leafCodes (tree t)).map Prod.fst := fun hm =>
    mem_present_iff.mp ((leafCodes_symbols t).mem_iff.mp hm) h
  simp [cbAt, book, lookup_of_not_mem this]

theorem cbAt_book_present {t : FreqTable} {b : Byte} (h : ftAt t b ≠ 0) :
    cbAt (book (tree t)) b ≠ [] := by
  have := (leafCodes_length _ (cbAt_book_mem h)).1
  intro e
  simp [e] at this

/-- A sum over keys that only a list's own keys contribute to is the sum over the list. -/
theorem sum_lookup (f : Nat → Code → Nat) (h0 : ∀ s, f s [] = 0) {keys : List Nat}
    (hk : keys.Nodup) : ∀ {l : List (Nat × Code)}, (l.map Prod.fst).Nodup →
      (∀ e ∈ l, e.1 ∈ keys) →
      (keys.map (fun s => f s ((l.lookup s).getD []))).sum = (l.map (fun e => f e.1 e.2)).sum := by
  intro l
  induction l with
  | nil =>
    intro _ _
    have : keys.map (fun s => f s ((([] : List (Nat × Code)).lookup s).getD [])) =
        keys.map (fun _ => 0) := List.map_congr_left (fun s _ => h0 s)
    rw [this]
    simp
  | cons e l ih =>
    intro hnd hlt
    rw [List.map_cons, List.nodup_cons] at hnd
    have hperm := List.perm_cons_erase (hlt e (by simp))
    rw [List.map_cons, List.sum_cons, ← ih hnd.2 (fun x hx => hlt x (by simp [hx])),
      (hperm.map (fun s => f s (((e :: l).lookup s).getD []))).sum_eq,
      (hperm.map (fun s => f s ((l.lookup s).getD []))).sum_eq,
      List.map_cons, List.map_cons, List.sum_cons, List.sum_cons, lookup_of_not_mem hnd.1]
    have hself : (e :: l).lookup e.1 = some e.2 := by rw [List.lookup_cons, beq_self_eq_true]
    have hrest : (keys.erase e.1).map (fun s => f s (((e :: l).lookup s).getD [])) =
        (keys.erase e.1).map (fun s => f s ((l.lookup s).getD [])) := by
      refine List.map_congr_left (fun s hs => ?_)
      have hne : s ≠ e.1 := ((List.Nodup.mem_erase_iff hk).mp hs).1
      have : (s == e.1) = false := beq_eq_false_iff_ne.mpr hne
      rw [List.lookup_cons, this]
    rw [hself, hrest]
    simp [h0]

/-- A sum over the symbols that only codes contribute to is the sum over the codes. -/
theorem sum_symbols {t : FreqTable} (f : Nat → Code → Nat) (h0 : ∀ s, f s [] = 0) :
    (symbols.map (fun b => f b.toNat (cbAt (book (tree t)) b))).sum =
      ((leafCodes (tree t)).map (fun e => f e.1 e.2)).sum := by
  have hlt : ∀ e ∈ leafCodes (tree t), e.1 ∈ List.range 256 := by
    intro e he
    have := (leafCodes_symbols t).mem_iff.mp (List.mem_map_of_mem (f := Prod.fst) he)
    obtain ⟨⟨w, i⟩, hm, heq⟩ := List.mem_map.mp this
    obtain ⟨hi, _⟩ := mem_presentSymbols.mp hm
    simp only at heq
    exact List.mem_range.mpr (by omega)
  rw [← sum_lookup f h0 List.nodup_range (leafCodes_nodup t) hlt, symbols, List.map_map]
  refine congrArg List.sum (List.map_congr_left (fun s hs => ?_))
  have hs := List.mem_range.mp hs
  simp [cbAt, book, Nat.mod_eq_of_lt hs]

end Sys2Proof.Machine
end

