-- ==== Sys2Proof/Laws/Commands.lean ====
section
/-! SUPPORT. What each command answers, said once, over the pure functions of the spec (spec/00_scope.md
section 5.3): `State.ended` where no stage raises, `State.failed` where one does. -/

namespace Sys2Proof.Machine

theorem execFreq_eq (s : State) : execFreq s = .next { s.ended 0x01 with ft := freq s.inMem } := rfl

theorem execTree_eq (s : State) : execTree s = .next { s.ended 0x02 with
    node := (tree s.ft).node, root := (tree s.ft).root, nsym := (tree s.ft).nsym } := rfl

theorem execBook_eq (s : State) : execBook s = .next { s.ended 0x03 with cb := book s.tree } := rfl

theorem execPack_eq (s : State) : execPack s = .next { s.ended 0x05 with
    pay := (pack s.bits).1, pad := (pack s.bits).2 } := rfl

theorem execSer_eq (s : State) :
    execSer s = .next { s.ended 0x07 with outMem := ser s.ft s.pad s.pay } := rfl

/-- XLAT (R200): the concatenated codes, or the raise of `xlat` with BITS emptied. -/
theorem execXlat_eq (s : State) : execXlat s = .next
    (match xlat s.bitCap.toNat s.inMem s.cb with
      | .ok bs => { s.ended 0x04 with bits := bs }
      | .error e => { s.failed 0x04 .xlat e with bits := [] }) := by
  simp only [execXlat, command_eq, runStages_single, stageXlat, State.enter_bitCap,
    State.enter_inMem, State.enter_cb, State.start_bitCap, State.start_inMem, State.start_cb]
  cases xlat s.bitCap.toNat s.inMem s.cb <;> rfl

/-- UNPACK (R185). -/
theorem execUnpack_eq (s : State) : execUnpack s = .next
    (match unpack s.pay s.pad with
      | .ok bs => { s.ended 0x06 with bits := bs }
      | .error e => { s.failed 0x06 .unpack e with bits := [] }) := by
  simp only [execUnpack, command_eq, runStages_single, stageUnpack, State.enter_pay,
    State.enter_pad, State.start_pay, State.start_pad]
  cases unpack s.pay s.pad <;> rfl

/-- DES (R230, R233). -/
theorem execDes_eq (s : State) : execDes s = .next
    (match des s.inMem with
      | .ok r => { s.ended 0x08 with ft := r.ft, pad := r.pad, pay := r.pay }
      | .error e => { s.failed 0x08 .des e with
          ft := Vector.replicate 256 0, pad := 0, pay := [] }) := by
  simp only [execDes, command_eq, runStages_single, stageDes, State.enter_inMem, State.start_inMem]
  cases des s.inMem <;> rfl

/-- WALK (R240). -/
theorem execWalk_eq (s : State) : execWalk s = .next
    (match walk s.tree s.bits with
      | .ok out => { s.ended 0x09 with outMem := out }
      | .error e => { s.failed 0x09 .walk e with outMem := [] }) := by
  have h : ((s.start 0x09).enter .walk).tree = s.tree := rfl
  simp only [execWalk, command_eq, runStages_single, stageWalk, h, State.enter_bits,
    State.start_bits]
  cases walk s.tree s.bits <;> rfl

/-! ### The stages -/

theorem stageFreq_done (s : State) : stageFreq s = .done { s with ft := freq s.inMem } := rfl

theorem stageTree_done (s : State) : stageTree s = .done { s with
    node := (tree s.ft).node, root := (tree s.ft).root, nsym := (tree s.ft).nsym } := rfl

theorem stageBook_done (s : State) : stageBook s = .done { s with cb := book s.tree } := rfl

theorem stagePack_done (s : State) : stagePack s = .done { s with
    pay := (pack s.bits).1, pad := (pack s.bits).2 } := rfl

theorem stageSer_done (s : State) :
    stageSer s = .done { s with outMem := ser s.ft s.pad s.pay } := rfl

theorem stageXlat_ok {s : State} {x : Except Raise (List Bool)} {bs : List Bool} (h : x = .ok bs)
    (hs : xlat s.bitCap.toNat s.inMem s.cb = x) :
    stageXlat s = .done { s with bits := bs } := by simp [stageXlat, hs, h]

theorem stageXlat_error {s : State} {x : Except Raise (List Bool)} {e : Raise} (h : x = .error e)
    (hs : xlat s.bitCap.toNat s.inMem s.cb = x) :
    stageXlat s = .raised { s with bits := [] } e := by simp [stageXlat, hs, h]

theorem stageUnpack_ok {s : State} {x : Except Raise (List Bool)} {bs : List Bool} (h : x = .ok bs)
    (hs : unpack s.pay s.pad = x) :
    stageUnpack s = .done { s with bits := bs } := by simp [stageUnpack, hs, h]

theorem stageUnpack_error {s : State} {x : Except Raise (List Bool)} {e : Raise}
    (h : x = .error e) (hs : unpack s.pay s.pad = x) :
    stageUnpack s = .raised { s with bits := [] } e := by simp [stageUnpack, hs, h]

theorem stageDes_ok {s : State} {x : Except Raise Parsed} {r : Parsed} (h : x = .ok r)
    (hs : des s.inMem = x) :
    stageDes s = .done { s with ft := r.ft, pad := r.pad, pay := r.pay } := by
  simp [stageDes, hs, h]

theorem stageDes_error {s : State} {x : Except Raise Parsed} {e : Raise} (h : x = .error e)
    (hs : des s.inMem = x) :
    stageDes s = .raised { s with ft := Vector.replicate 256 0, pad := 0, pay := [] } e := by
  simp [stageDes, hs, h]

theorem stageWalk_ok {s : State} {x : Except Raise (List Byte)} {out : List Byte}
    (h : x = .ok out) (hs : walk s.tree s.bits = x) :
    stageWalk s = .done { s with outMem := out } := by simp [stageWalk, hs, h]

theorem stageWalk_error {s : State} {x : Except Raise (List Byte)} {e : Raise}
    (h : x = .error e) (hs : walk s.tree s.bits = x) :
    stageWalk s = .raised { s with outMem := [] } e := by simp [stageWalk, hs, h]

/-- A row whose first stage is done goes on with the rest. -/
theorem runStages_done {p : Phase} {f : State → StageResult} {s s' : State}
    (h : f (s.enter p) = .done s') (rest : List (Phase × (State → StageResult))) :
    runStages ((p, f) :: rest) s = runStages rest s' := by rw [runStages_cons, h]

/-- A row whose first stage raises ends there. -/
theorem runStages_raised {p : Phase} {f : State → StageResult} {s s' : State} {e : Raise}
    (h : f (s.enter p) = .raised s' e) (rest : List (Phase × (State → StageResult))) :
    runStages ((p, f) :: rest) s = .raised s' e := by rw [runStages_cons, h]

/-! ### The composites -/

/-- ENCODE (R220, R221) where XLAT does not raise. -/
theorem execEncode_ok {s : State} {bs : List Bool}
    (h : xlat s.bitCap.toNat s.inMem (book (tree (freq s.inMem))) = .ok bs) :
    execEncode s = .next { s.ended 0x0A with
      ft := freq s.inMem
      node := (tree (freq s.inMem)).node
      root := (tree (freq s.inMem)).root
      nsym := (tree (freq s.inMem)).nsym
      cb := book (tree (freq s.inMem))
      bits := bs
      pay := (pack bs).1
      pad := (pack bs).2
      outMem := ser (freq s.inMem) (pack bs).2 (pack bs).1 } := by
  rw [execEncode, command_eq, encodeStages, runStages_done (stageFreq_done _),
    runStages_done (stageTree_done _), runStages_done (stageBook_done _),
    runStages_done (stageXlat_ok h ?_), runStages_done (stagePack_done _),
    runStages_done (stageSer_done _)]
  all_goals rfl

/-- ENCODE (R220) where XLAT raises: the results of FREQ, TREE and BOOK stay. -/
theorem execEncode_error {s : State} {e : Raise}
    (h : xlat s.bitCap.toNat s.inMem (book (tree (freq s.inMem))) = .error e) :
    execEncode s = .next { s.failed 0x0A .xlat e with
      ft := freq s.inMem
      node := (tree (freq s.inMem)).node
      root := (tree (freq s.inMem)).root
      nsym := (tree (freq s.inMem)).nsym
      cb := book (tree (freq s.inMem))
      bits := []
      outMem := [] } := by
  rw [execEncode, command_eq, encodeStages, runStages_done (stageFreq_done _),
    runStages_done (stageTree_done _), runStages_done (stageBook_done _),
    runStages_raised (stageXlat_error h ?_)]
  all_goals rfl

/-- DECODE (R250) where DES raises. -/
theorem execDecode_des {s : State} {e : Raise} (h : des s.inMem = .error e) :
    execDecode s = .next { s.failed 0x0B .des e with
      ft := Vector.replicate 256 0, pad := 0, pay := [], outMem := [] } := by
  rw [execDecode, command_eq, decodeStages, runStages_raised (stageDes_error h ?_)]
  all_goals rfl

/-- DECODE (R250) where UNPACK raises. -/
theorem execDecode_unpack {s : State} {r : Parsed} {e : Raise} (h : des s.inMem = .ok r)
    (hu : unpack r.pay r.pad = .error e) :
    execDecode s = .next { s.failed 0x0B .unpack e with
      ft := r.ft, pad := r.pad, pay := r.pay
      node := (tree r.ft).node, root := (tree r.ft).root, nsym := (tree r.ft).nsym
      bits := [], outMem := [] } := by
  rw [execDecode, command_eq, decodeStages, runStages_done (stageDes_ok h ?_),
    runStages_done (stageTree_done _),
    runStages_raised (stageUnpack_error hu ?_)]
  all_goals rfl

/-- DECODE (R250) where WALK raises. -/
theorem execDecode_walk {s : State} {r : Parsed} {bs : List Bool} {e : Raise}
    (h : des s.inMem = .ok r) (hu : unpack r.pay r.pad = .ok bs)
    (hw : walk (tree r.ft) bs = .error e) :
    execDecode s = .next { s.failed 0x0B .walk e with
      ft := r.ft, pad := r.pad, pay := r.pay
      node := (tree r.ft).node, root := (tree r.ft).root, nsym := (tree r.ft).nsym
      bits := bs, outMem := [] } := by
  rw [execDecode, command_eq, decodeStages, runStages_done (stageDes_ok h ?_),
    runStages_done (stageTree_done _),
    runStages_done (stageUnpack_ok hu ?_), runStages_raised (stageWalk_error hw ?_)]
  all_goals rfl

/-- DECODE (R250, R251) where no stage raises. -/
theorem execDecode_ok {s : State} {r : Parsed} {bs : List Bool} {out : List Byte}
    (h : des s.inMem = .ok r) (hu : unpack r.pay r.pad = .ok bs)
    (hw : walk (tree r.ft) bs = .ok out) :
    execDecode s = .next { s.ended 0x0B with
      ft := r.ft, pad := r.pad, pay := r.pay
      node := (tree r.ft).node, root := (tree r.ft).root, nsym := (tree r.ft).nsym
      bits := bs, outMem := out } := by
  rw [execDecode, command_eq, decodeStages, runStages_done (stageDes_ok h ?_),
    runStages_done (stageTree_done _),
    runStages_done (stageUnpack_ok hu ?_), runStages_done (stageWalk_ok hw ?_)]
  all_goals rfl

end Sys2Proof.Machine
end

