-- ==== Sys2Proof/Laws/Container.lean ====
section
/-! SUPPORT. The descriptor of a container as a list of entries (R130): SER writes the entries of the table,
DES reads them back. -/

namespace Sys2Proof.Machine

/-- The five bytes of an entry (R130). -/
def entryBytes (e : Byte × Count) : List Byte := e.1 :: bytesBE32 e.2

@[simp] theorem entryBytes_length (e : Byte × Count) : (entryBytes e).length = 5 := rfl

theorem flatMap_entryBytes_length (es : List (Byte × Count)) :
    (es.flatMap entryBytes).length = 5 * es.length := by
  induction es with
  | nil => rfl
  | cons e es ih => rw [List.flatMap_cons, List.length_append, ih]; simp; omega

/-- The entries of a table, in ascending symbol value. -/
def entriesOf (t : FreqTable) : List (Byte × Count) :=
  (symbols.filter (fun b => ftAt t b ≠ 0)).map (fun b => (b, ftAt t b))

/-- Entries DES accepts after symbol `prev`: strictly ascending symbols, no zero count. -/
def goodEntries : Option Byte → List (Byte × Count) → Prop
  | _, [] => True
  | prev, e :: es => (∀ q ∈ prev, q.toNat < e.1.toNat) ∧ e.2 ≠ 0 ∧ goodEntries (some e.1) es

/-- The table with the entries set in order. -/
def setEntries (t : FreqTable) (es : List (Byte × Count)) : FreqTable :=
  es.foldl (fun t e => ftSet t e.1 e.2) t

theorem presentSymbols_eq (t : FreqTable) :
    presentSymbols t = (entriesOf t).map (fun e => (e.2.toNat, e.1.toNat)) := by
  have key : ∀ (l : List Count) (k : Nat), k + l.length ≤ 256 →
      (∀ i (h : i < l.length), l[i] = ftAt t (BitVec.ofNat 8 (k + i))) →
      (l.zipIdx k).filterMap (fun c => if c.1 = 0 then none else some (c.1.toNat, c.2)) =
        (((((List.range' k l.length).map (BitVec.ofNat 8)).filter (fun b => ftAt t b ≠ 0)).map
          (fun b => (b, ftAt t b))).map (fun e : Byte × Count => (e.2.toNat, e.1.toNat))) := by
    intro l
    induction l with
    | nil => intros; rfl
    | cons c l ih =>
      intro k hk hl
      have ih := ih (k + 1) (by simp at hk; omega)
        (fun i h => by have := hl (i + 1) (by simpa using h); simpa [Nat.add_assoc, Nat.add_comm 1] using this)
      have h0 : c = ftAt t (BitVec.ofNat 8 k) := hl 0 (Nat.succ_pos _)
      have hk' : (BitVec.ofNat 8 k).toNat = k := by simp at hk ⊢; omega
      rw [List.zipIdx_cons, List.length_cons, List.range'_succ, List.map_cons, List.filter_cons]
      by_cases hc : c = 0#32
      · rw [List.filterMap_cons_none (by simp [hc]), ih, if_neg (by simp [← h0, hc])]
      · rw [List.filterMap_cons_some (b := (c.toNat, k)) (by simp [hc]), ih,
          if_pos (by simp [← h0, hc])]
        simp only [List.map_cons, ← h0, hk']
  have := key t.toList 0 (by simp) (fun i h => by
    simp at h
    simp [ftAt, Nat.mod_eq_of_lt h])
  rw [presentSymbols, this, entriesOf, symbols, List.range_eq_range']
  simp only [Vector.length_toList]

theorem descriptor_eq (t : FreqTable) : descriptor t = (entriesOf t).flatMap entryBytes := by
  rw [descriptor, presentSymbols_eq, List.flatMap_map]
  refine List.flatMap_congr (fun e _ => ?_)
  simp [entryBytes]

theorem mem_entriesOf {t : FreqTable} {e : Byte × Count} :
    e ∈ entriesOf t ↔ e.2 = ftAt t e.1 ∧ e.2 ≠ 0 := by
  simp only [entriesOf, List.mem_map, List.mem_filter, mem_symbols, true_and, decide_eq_true_eq]
  constructor
  · rintro ⟨b, hb, rfl⟩; exact ⟨rfl, hb⟩
  · rintro ⟨h1, h2⟩; exact ⟨e.1, by rwa [← h1], by rw [← h1]⟩

theorem goodEntries_iff {prev : Option Byte} {es : List (Byte × Count)} :
    goodEntries prev es ↔ (∀ q ∈ prev, ∀ e ∈ es, q.toNat < e.1.toNat) ∧
      es.Pairwise (fun a b => a.1.toNat < b.1.toNat) ∧ ∀ e ∈ es, e.2 ≠ 0 := by
  induction es generalizing prev with
  | nil => simp [goodEntries]
  | cons e es ih =>
    simp only [goodEntries, ih, List.pairwise_cons, List.forall_mem_cons, Option.mem_some_iff,
      forall_eq']
    constructor
    · rintro ⟨h1, h2, h3, h4, h5⟩
      exact ⟨fun q hq => ⟨h1 q hq, fun x hx => Nat.lt_trans (h1 q hq) (h3 x hx)⟩, ⟨h3, h4⟩, h2, h5⟩
    · rintro ⟨h1, ⟨h2, h3⟩, h4, h5⟩
      exact ⟨fun q hq => (h1 q hq).1, h4, h2, h3, h5⟩

theorem symbols_ascending : symbols.Pairwise (fun a b => a.toNat < b.toNat) := by
  rw [symbols, List.pairwise_map]
  refine List.Pairwise.imp_of_mem (fun {i j} hi hj h => ?_) List.pairwise_lt_range
  have hi := List.mem_range.mp hi
  have hj := List.mem_range.mp hj
  simp only [BitVec.toNat_ofNat]
  omega

/-- The entries of a table are entries DES accepts (R212). -/
theorem entriesOf_good (t : FreqTable) : goodEntries none (entriesOf t) := by
  refine goodEntries_iff.mpr ⟨by simp, ?_, fun e he => (mem_entriesOf.mp he).2⟩
  rw [entriesOf, List.pairwise_map]
  exact symbols_ascending.filter _

/-- What the set entries read as. -/
theorem ftAt_setEntries {es : List (Byte × Count)} (h : es.Pairwise (fun a b => a.1 ≠ b.1))
    (t : FreqTable) (b : Byte) : (∀ e ∈ es, e.1 = b → ftAt (setEntries t es) b = e.2) ∧
      ((∀ e ∈ es, e.1 ≠ b) → ftAt (setEntries t es) b = ftAt t b) := by
  induction es generalizing t with
  | nil => simp [setEntries]
  | cons x es ih =>
    rw [List.pairwise_cons] at h
    obtain ⟨h1, h2⟩ := ih h.2 (ftSet t x.1 x.2)
    have hs : setEntries t (x :: es) = setEntries (ftSet t x.1 x.2) es := rfl
    rw [hs]
    constructor
    · intro e he heb
      rcases List.mem_cons.mp he with rfl | he
      · rw [h2 (fun e' he' => by rw [← heb]; exact (h.1 e' he').symm), ← heb, ftAt_set_self]
      · exact h1 e he heb
    · intro hne
      rw [h2 (fun e he => hne e (by simp [he])), ftAt_set_ne _ _ (hne x (by simp)).symm]

theorem good_distinct {es : List (Byte × Count)} (h : goodEntries none es) :
    es.Pairwise (fun a b => a.1 ≠ b.1) :=
  (goodEntries_iff.mp h).2.1.imp (fun hlt e => by rw [e] at hlt; omega)

/-- A table is what its entries set. -/
theorem setEntries_entriesOf (t : FreqTable) :
    setEntries (Vector.replicate 256 0) (entriesOf t) = t := by
  apply ft_ext
  intro b
  obtain ⟨h1, h2⟩ := ftAt_setEntries (good_distinct (entriesOf_good t)) (Vector.replicate 256 0) b
  by_cases hb : ftAt t b = 0
  · rw [h2 (fun e he heb => (mem_entriesOf.mp he).2 (by rw [(mem_entriesOf.mp he).1, heb, hb])), hb]
    exact ftAt_empty b
  · exact h1 (b, ftAt t b) (mem_entriesOf.mpr ⟨rfl, hb⟩) rfl

/-- Entries DES accepts are the entries of the table they set. -/
theorem entriesOf_setEntries {es : List (Byte × Count)} (h : goodEntries none es) :
    entriesOf (setEntries (Vector.replicate 256 0) es) = es := by
  have hg := goodEntries_iff.mp h
  refine List.Perm.eq_of_pairwise (le := fun a b => a.1.toNat < b.1.toNat)
    (fun a b _ _ h1 h2 => by omega) (goodEntries_iff.mp (entriesOf_good _)).2.1 hg.2.1 ?_
  refine (List.perm_ext_iff_of_nodup ?_ ?_).mpr (fun e => ?_)
  · exact (good_distinct (entriesOf_good _)).imp (fun h e => h (by rw [e]))
  · exact (good_distinct h).imp (fun h e => h (by rw [e]))
  · obtain ⟨h1, h2⟩ := ftAt_setEntries (good_distinct h) (Vector.replicate 256 0) e.1
    rw [mem_entriesOf]
    constructor
    · rintro ⟨h3, h4⟩
      by_contra hne
      by_cases hex : ∃ x ∈ es, x.1 = e.1
      · obtain ⟨x, hx, hxe⟩ := hex
        have := h1 x hx hxe
        exact hne (by rw [show e = x from Prod.ext hxe.symm (by rw [h3, this])]; exact hx)
      · exact h4 (by rw [h3, h2 (fun x hx hxe => hex ⟨x, hx, hxe⟩)]; exact ftAt_empty e.1)
    · intro he
      exact ⟨(h1 e he rfl).symm, hg.2.2 e he⟩

/-! ### The entries loop of DES -/

theorem byteAt_append_right {pre rest : List Byte} {o : Nat} (h : pre.length ≤ o) :
    byteAt (pre ++ rest) o = byteAt rest (o - pre.length) := by
  rw [byteAt, List.getD_append_right _ _ _ _ h, byteAt]

/-- DES reads the entries that stand at its place (R230, checks 4 and 5). -/
theorem desEntries_good {es : List (Byte × Count)} : ∀ {pre post : List Byte} {k : Nat}
    {prev : Option Byte} {t : FreqTable}, pre.length = 2 + 5 * k → goodEntries prev es →
    desEntries (pre ++ (es.flatMap entryBytes ++ post)) es.length k prev t =
      .ok (setEntries t es) := by
  induction es with
  | nil => intros; rfl
  | cons e es ih =>
    intro pre post k prev t hpre hg
    obtain ⟨h1, h2, h3⟩ := hg
    have hc : pre ++ ((e :: es).flatMap entryBytes ++ post) =
        (pre ++ entryBytes e) ++ (es.flatMap entryBytes ++ post) := by
      rw [List.flatMap_cons]; simp only [List.append_assoc]
    rw [List.length_cons, desEntries]
    have hs : byteAt (pre ++ ((e :: es).flatMap entryBytes ++ post)) (2 + 5 * k) = e.1 := by
      rw [byteAt_append_right (by omega), hpre, Nat.sub_self]; rfl
    have hn : entryCount (pre ++ ((e :: es).flatMap entryBytes ++ post)) k = e.2.toNat := by
      have hb : ∀ j o, o = 2 + 5 * k + j →
          byteAt (pre ++ ((e :: es).flatMap entryBytes ++ post)) o =
            byteAt ((e :: es).flatMap entryBytes ++ post) j := by
        intro j o ho
        rw [byteAt_append_right (by omega), show o - pre.length = j by omega]
      rw [entryCount, hb 1 _ (by omega), hb 2 _ (by omega), hb 3 _ (by omega), hb 4 _ (by omega)]
      exact be32_bytesBE32 e.2
    simp only [hs, hn]
    rw [if_neg, if_neg]
    · rw [hc, ih (by simp; omega) h3]
      simp [setEntries]
    · intro h0; exact h2 (BitVec.eq_of_toNat_eq (by simpa using h0))
    · cases prev with
      | none => simp
      | some q => have := h1 q rfl; simp; omega

/-- What DES accepts are good entries, which stand at its place. -/
theorem desEntries_ok {c : List Byte} {n : Nat} : ∀ {k : Nat} {prev : Option Byte}
    {t u : FreqTable}, desEntries c n k prev t = .ok u → 2 + 5 * (k + n) ≤ c.length →
    ∃ es : List (Byte × Count), es.length = n ∧ goodEntries prev es ∧ u = setEntries t es ∧
      c.drop (2 + 5 * k) = es.flatMap entryBytes ++ c.drop (2 + 5 * (k + n)) := by
  induction n with
  | zero =>
    intro k prev t u h _
    cases h
    exact ⟨[], rfl, trivial, rfl, rfl⟩
  | succ n ih =>
    intro k prev t u h hl
    rw [desEntries] at h
    split at h
    · cases h
    · rename_i h1
      split at h
      · cases h
      · rename_i h2
        obtain ⟨es, he1, he2, he3, he4⟩ := ih h (by omega)
        have hlt : entryCount c k < 2 ^ 32 := by
          have := (byteAt c (3 + 5 * k)).isLt
          have := (byteAt c (4 + 5 * k)).isLt
          have := (byteAt c (5 + 5 * k)).isLt
          have := (byteAt c (6 + 5 * k)).isLt
          simp only [entryCount, be32]
          omega
        refine ⟨(byteAt c (2 + 5 * k), BitVec.ofNat 32 (entryCount c k)) :: es, by simp [he1],
          ⟨?_, ?_, he2⟩, he3, ?_⟩
        · intro q hq
          obtain rfl : prev = some q := hq
          simpa using h1
        · intro e
          have := congrArg BitVec.toNat e
          simp only [BitVec.toNat_ofNat, BitVec.ofNat_eq_ofNat] at this
          exact h2 (by omega)
        · rw [List.flatMap_cons, List.append_assoc, show k + (n + 1) = k + 1 + n by omega, ← he4,
            entryBytes, entryCount, bytesBE32_be32]
          have get : ∀ o, o < c.length → c.drop o = byteAt c o :: c.drop (o + 1) := by
            intro o ho
            rw [List.drop_eq_getElem_cons ho]
            simp [byteAt, List.getD, ho]
          rw [get _ (by omega), get _ (by omega), get _ (by omega), get _ (by omega),
            get _ (by omega)]
          simp only [List.cons_append, List.nil_append]
          have e1 : 2 + 5 * k + 1 = 3 + 5 * k := by omega
          have e2 : 3 + 5 * k + 1 = 4 + 5 * k := by omega
          have e3 : 4 + 5 * k + 1 = 5 + 5 * k := by omega
          have e4 : 5 + 5 * k + 1 = 6 + 5 * k := by omega
          have e5 : 6 + 5 * k + 1 = 2 + 5 * (k + 1) := by omega
          rw [e1, e2, e3, e4, e5]

end Sys2Proof.Machine
end

