-- ==== Sys2Proof/Laws/Decode.lean ====
section
/-! SUPPORT. What the decoder of transactions, the table words and the register numbers can be, said once. -/

namespace Sys2Proof

/-- The ten legal headers (R122). -/
def legalHdrs : List Byte := [0x00, 0x80, 0x01, 0x02, 0x03, 0x83, 0x04, 0x05, 0x06, 0x07]

/-- A header names one of the ten kinds, or is illegal (R122, R123). -/
theorem decodeTxn_cases (t : Txn) :
    (t.hdr = 0x00 ∧ decodeTxn t = .ok (.rdCsr t.index)) ∨
    (t.hdr = 0x80 ∧ decodeTxn t = .ok (.wrCsr t.index t.data)) ∨
    (t.hdr = 0x01 ∧ decodeTxn t = .ok (.rdIn t.index)) ∨
    (t.hdr = 0x02 ∧ decodeTxn t = .ok (.rdOut t.index)) ∨
    (t.hdr = 0x03 ∧ decodeTxn t = .ok (.rdFt t.index)) ∨
    (t.hdr = 0x83 ∧ decodeTxn t = .ok (.wrFt t.index t.data)) ∨
    (t.hdr = 0x04 ∧ decodeTxn t = .ok (.rdNode t.index)) ∨
    (t.hdr = 0x05 ∧ decodeTxn t = .ok (.rdCb t.index)) ∨
    (t.hdr = 0x06 ∧ decodeTxn t = .ok (.rdBits t.index)) ∨
    (t.hdr = 0x07 ∧ decodeTxn t = .ok (.rdPay t.index)) ∨
    (t.hdr ∉ legalHdrs ∧ decodeTxn t = .error (.illegalHdr t.hdr)) := by
  obtain ⟨a, b, c⟩ := t
  unfold decodeTxn legalHdrs
  dsimp only
  by_cases h0 : a = 0x00#8; · simp [h0]
  by_cases h1 : a = 0x80#8; · simp [h1]
  by_cases h2 : a = 0x01#8; · simp [h2]
  by_cases h3 : a = 0x02#8; · simp [h3]
  by_cases h4 : a = 0x03#8; · simp [h4]
  by_cases h5 : a = 0x83#8; · simp [h5]
  by_cases h6 : a = 0x04#8; · simp [h6]
  by_cases h7 : a = 0x05#8; · simp [h7]
  by_cases h8 : a = 0x06#8; · simp [h8]
  by_cases h9 : a = 0x07#8; · simp [h9]
  simp [h0, h1, h2, h3, h4, h5, h6, h7, h8, h9]

/-- The three fields of a table word (log 6). -/
theorem txnOfTableWord_fields {a b c : Nat} (ha : a < 2 ^ 8) (hb : b < 2 ^ 40) :
    txnOfTableWord (a + b * 2 ^ 8 + c * 2 ^ 48) =
      ⟨BitVec.ofNat 8 a, BitVec.ofNat 40 b, BitVec.ofNat 40 c⟩ := by
  simp only [txnOfTableWord, Nat.shiftRight_eq_div_pow, Txn.mk.injEq]
  refine ⟨?_, ?_, ?_⟩ <;> apply BitVec.eq_of_toNat_eq <;> simp only [BitVec.toNat_ofNat] <;> omega

/-- The table word of a transaction gives it back (log 6). -/
theorem txnOfTableWord_tableWord (t : Txn) : txnOfTableWord (Encoded.txn t).tableWord = t := by
  obtain ⟨a, b, c⟩ := t
  rw [Encoded.tableWord, txnOfTableWord_fields a.isLt b.isLt]
  simp

/-- R261: the read of STATUS by its two fields. -/
theorem isStatusRead_iff (t : Txn) :
    t.isStatusRead = true ↔ t.hdr = 0x00 ∧ t.index = 0x01 := by
  simp [Txn.isStatusRead]

/-- R37: 0x11 and above name no register. -/
theorem csrOf_eq_none {index : Word40} (h : 0x11 ≤ index.toNat) : csrOf index = none := by
  have hne : ∀ k : Word40, k.toNat < 0x11 → index ≠ k := fun k hk e => by rw [e] at h; omega
  unfold csrOf
  iterate 17 rw [if_neg (hne _ (by decide))]

/-- A register's number names it (spec/10_state.md section 2). -/
theorem csrOf_number (c : Csr) : csrOf c.number = some c := by cases c <;> rfl

end Sys2Proof
end

