-- ==== Sys2Proof/Laws/Memory.lean ====
section
/-! SUPPORT. Every memory operation keeps the form `Memory.wf` (R26 to R29, R46 to R49): how long the result
of each can be, and then instruction by instruction. -/

namespace Sys2Proof.Machine

theorem memory_wf_iff {s : State} : Memory.wf s = true ↔
    s.inMem.length ≤ s.cap.toNat ∧ s.outMem.length ≤ s.bitCap.toNat ∧
      s.bits.length ≤ s.bitCap.toNat ∧ s.pay.length ≤ s.payCap := by
  simp [Memory.wf, and_assoc]

theorem resetWith_memory (cap : BitVec 32) (bitCap : Word40) :
    Memory.wf (State.resetWith cap bitCap) = true := by
  simp [memory_wf_iff, State.resetWith]

/-! ### The cells of a memory -/

/-- The addresses of the cells rise strictly. -/
theorem cells_rising {α : Type} (mem : List α) :
    (cells mem).Pairwise (fun a b => a.1 < b.1) := by
  rw [cells, List.pairwise_map]
  exact List.pairwise_iff_getElem.mpr (fun i j hi hj h => by simpa using h)

/-- Equal cells are equal memories. -/
theorem cells_inj {α : Type} {m n : List α} (h : cells m = cells n) : m = n := by
  have key : ∀ l : List α, (cells l).map Prod.snd = l := by
    intro l; rw [cells, List.map_map]; exact List.zipIdx_map_fst 0 l
  rw [← key m, h, key]

/-! ### Lengths -/

theorem push_length_le {α : Type} {mem m : List α} {capacity : Nat} {x : α}
    (h : push mem capacity x = some m) : m.length ≤ capacity := by
  obtain ⟨h1, rfl⟩ := push_eq_some.mp h
  simpa using h1

theorem truncate_length_le {α : Type} {mem m : List α} {v : Nat}
    (h : truncate mem v = some m) : m.length ≤ mem.length := by
  obtain ⟨_, rfl⟩ := truncate_eq_some.mp h
  simp

theorem xlatFrom_length_le {bitCap : Nat} {c : CodeBook} {bytes : List Byte} :
    ∀ {i len : Nat} {bs : List Bool}, len ≤ bitCap → xlatFrom bitCap c i len bytes = .ok bs →
      len + bs.length ≤ bitCap := by
  induction bytes with
  | nil => intro i len bs hl h; cases h; simpa using hl
  | cons b rest ih =>
    intro i len bs hl h
    rw [xlatFrom] at h
    split at h
    · cases h
    · split at h
      · cases h
      · rename_i hc
        split at h
        · rename_i out hx
          cases h
          have := ih (by omega) hx
          simp only [List.length_append]; omega
        · cases h

/-- XLAT never passes `BIT_CAP` (R200). -/
theorem xlat_length_le {bitCap : Nat} {bytes : List Byte} {c : CodeBook} {bs : List Bool}
    (h : xlat bitCap bytes c = .ok bs) : bs.length ≤ bitCap := by
  simpa using xlatFrom_length_le (Nat.zero_le _) h

/-- R180: `PAY_LEN = ceil8(BIT_LEN)`. -/
theorem pack_length (bs : List Bool) : (pack bs).1.length = ceil8 bs.length := by
  simp [pack]

theorem unpack_length_le {bytes : List Byte} {p : BitVec 3} {bs : List Bool}
    (h : unpack bytes p = .ok bs) : bs.length ≤ 8 * bytes.length := by
  unfold unpack at h
  split at h
  · split at h
    · cases h; simp
    · cases h
  · cases h
    rw [List.length_take]; omega

/-- R210: `OUT_LEN = 3 + 5n + PAY_LEN`. -/
theorem ser_length (t : FreqTable) (p : BitVec 3) (payload : List Byte) :
    (ser t p payload).length = 3 + 5 * (presentSymbols t).length + payload.length := by
  have : (presentSymbols t).length = (entriesOf t).length := by
    rw [presentSymbols_eq, List.length_map]
  rw [ser, descriptor_eq, this]
  simp only [List.length_append, flatMap_entryBytes_length, bytesBE16, List.length_cons,
    List.length_nil]
  omega

/-- R227, from R210: the container of packed bits. -/
theorem ser_pack_length (t : FreqTable) (bs : List Bool) :
    (ser t (pack bs).2 (pack bs).1).length =
      3 + 5 * (presentSymbols t).length + ceil8 bs.length := by
  rw [ser_length, pack_length]

/-- DES keeps the payload only: at least the 3 bytes of the shortest header go (R230). -/
theorem des_length_le {c : List Byte} {r : Parsed} (h : des c = .ok r) :
    r.pay.length + 3 ≤ c.length := by
  unfold des at h
  dsimp only at h
  split at h
  · cases h
  · split at h
    · cases h
    · split at h
      · cases h
      · split at h
        · cases h
        · unfold desTail at h
          dsimp only at h
          repeat' split at h
          all_goals cases h
          simp only [List.length_drop]; omega

theorem walkLone_length {b : Byte} {bs : List Bool} :
    ∀ {i : Nat} {out : List Byte}, walkLone b i bs = .ok out → out.length ≤ bs.length := by
  induction bs with
  | nil => intro i out h; cases h; simp
  | cons x l ih =>
    intro i out h
    unfold walkLone at h
    split at h
    · cases h
    · split at h
      · rename_i h'; cases h; simpa using ih h'
      · cases h

theorem walkFrom_length {n : NodeStore} {root : Nat} {bs : List Bool} :
    ∀ {cur i : Nat} {out : List Byte}, walkFrom n root cur i bs = .ok out →
      out.length ≤ bs.length := by
  induction bs with
  | nil =>
    intro cur i out h
    unfold walkFrom at h
    split at h <;> cases h
    simp
  | cons x l ih =>
    intro cur i out h
    unfold walkFrom at h
    dsimp only at h
    generalize (if x = true then _ else _ : Nat) = next at h
    split at h
    · split at h
      · rename_i h'; cases h; simpa using ih h'
      · cases h
    · have := ih h; simp only [List.length_cons]; omega

/-- R240: "each output byte consumes at least one bit". -/
theorem walk_length_le {t : Tree} {bs : List Bool} {out : List Byte}
    (h : walk t bs = .ok out) : out.length ≤ bs.length := by
  unfold walk at h
  split at h
  · split at h <;> cases h
    simp
  · split at h
    · exact walkLone_length h
    · exact walkFrom_length h

/-! ### Instructions -/

/-- Pushes and write-truncates keep the form (R271). -/
theorem writeCsr_memory {c : Csr} {d : Word40} {s t : State} (hs : Memory.wf s = true)
    (h : writeCsr c d s = some t) : Memory.wf t = true := by
  rw [memory_wf_iff] at hs ⊢
  obtain ⟨h1, h2, h3, h4⟩ := hs
  cases c
  case cmd | status | ctrl => cases h; exact ⟨h1, h2, h3, h4⟩
  case inLen | bitLen | payLen =>
    obtain ⟨m, hm, rfl⟩ := Option.map_eq_some_iff.mp h
    have := truncate_length_le hm
    refine ⟨?_, ?_, ?_, ?_⟩ <;> first | assumption | exact Nat.le_trans this ‹_›
  case pad =>
    simp only [writeCsr] at h
    split at h <;> cases h
    exact ⟨h1, h2, h3, h4⟩
  case inPush | bitsPush | payPush =>
    obtain ⟨m, hm, rfl⟩ := Option.map_eq_some_iff.mp h
    have := push_length_le hm
    refine ⟨?_, ?_, ?_, ?_⟩ <;> assumption
  all_goals cases h

/-- A read keeps the form. -/
theorem reply_memory {d : Option RData} {s : State} (hs : Memory.wf s = true) :
    Memory.wf (s.reply d) = true := by
  cases d <;> exact hs

/-- A write keeps the form if its effect does. -/
theorem settle_memory {u : Option State} {s : State} (hs : Memory.wf s = true)
    (hu : ∀ t, u = some t → Memory.wf t = true) : Memory.wf (s.settle u) = true := by
  cases u with
  | none => exact hs
  | some t => exact hu t rfl

theorem transact_memory {b : Bool} {f : State → State} {s t : State}
    (h : transact b f s = .next t) (hs : Memory.wf s = true) (hf : Memory.wf (f s) = true) :
    Memory.wf t = true := by
  rw [transact_eq] at h
  cases h
  split
  · exact hs
  · exact hf

theorem ceil8_le {n m : Nat} (h : n ≤ m) (hd : 8 ∣ m) : ceil8 n ≤ m / 8 := by
  unfold ceil8; omega

/-- R213: a container fits OUT. -/
theorem ser_fits {cap bitCap : Nat} (hl : Config.legal cap bitCap) (t : FreqTable) (p : BitVec 3)
    {payload : List Byte} (h : payload.length ≤ bitCap / 8) :
    (ser t p payload).length ≤ bitCap := by
  have := presentSymbols_length t
  obtain ⟨h1, _, h2, h3, _⟩ := hl
  rw [ser_length]
  omega

/-- Every instruction keeps the form of the memories, in an instance with legal parameters. -/
theorem exec_memory {i : Instr} {s t : State}
    (hl : Config.legal s.cap.toNat s.bitCap.toNat) (hs : Memory.wf s = true)
    (h : exec i s = .next t) : Memory.wf t = true := by
  have hw := memory_wf_iff.mp hs
  obtain ⟨h1, h2, h3, h4⟩ := hw
  have hd : 8 ∣ s.bitCap.toNat := hl.2.2.1
  have hc : 8 * s.cap.toNat ≤ s.bitCap.toNat := hl.2.2.2.1
  have h4' : s.pay.length ≤ s.bitCap.toNat / 8 := h4
  have des_fits : ∀ r : Parsed, des s.inMem = .ok r → r.pay.length ≤ s.bitCap.toNat / 8 := by
    intro r hr
    have := des_length_le hr
    omega
  cases i
  case nop => cases h; exact hs
  case clr => cases h; exact memory_wf_iff.mpr ⟨Nat.zero_le _, Nat.zero_le _, Nat.zero_le _, Nat.zero_le _⟩
  case freq => rw [exec, execFreq_eq] at h; cases h; exact hs
  case tree => rw [exec, execTree_eq] at h; cases h; exact hs
  case book => rw [exec, execBook_eq] at h; cases h; exact hs
  case pack =>
    rw [exec, execPack_eq] at h; cases h
    exact memory_wf_iff.mpr ⟨h1, h2, h3, (pack_length s.bits).symm ▸ ceil8_le h3 hd⟩
  case ser =>
    rw [exec, execSer_eq] at h; cases h
    exact memory_wf_iff.mpr ⟨h1, ser_fits hl _ _ h4', h3, h4⟩
  case xlat =>
    rw [exec, execXlat_eq] at h; cases h
    split
    · rename_i hx; exact memory_wf_iff.mpr ⟨h1, h2, xlat_length_le hx, h4⟩
    · exact memory_wf_iff.mpr ⟨h1, h2, Nat.zero_le _, h4⟩
  case unpack =>
    rw [exec, execUnpack_eq] at h; cases h
    split
    · rename_i hx
      have hb := Nat.le_trans (unpack_length_le hx) (Nat.mul_le_mul_left 8 h4')
      exact memory_wf_iff.mpr ⟨h1, h2, Nat.le_trans hb (Nat.mul_div_le _ 8), h4⟩
    · exact memory_wf_iff.mpr ⟨h1, h2, Nat.zero_le _, h4⟩
  case des =>
    rw [exec, execDes_eq] at h; cases h
    split
    · rename_i r hx; exact memory_wf_iff.mpr ⟨h1, h2, h3, des_fits r hx⟩
    · exact memory_wf_iff.mpr ⟨h1, h2, h3, Nat.zero_le _⟩
  case walk =>
    rw [exec, execWalk_eq] at h; cases h
    split
    · rename_i hx; exact memory_wf_iff.mpr ⟨h1, Nat.le_trans (walk_length_le hx) h3, h3, h4⟩
    · exact memory_wf_iff.mpr ⟨h1, Nat.zero_le _, h3, h4⟩
  case encode =>
    rw [exec] at h
    cases hx : xlat s.bitCap.toNat s.inMem (book (tree (freq s.inMem))) with
    | ok bs =>
      rw [execEncode_ok hx] at h; cases h
      have hb := xlat_length_le hx
      have hp : (pack bs).1.length ≤ s.bitCap.toNat / 8 :=
        (pack_length bs).symm ▸ ceil8_le hb hd
      exact memory_wf_iff.mpr ⟨h1, ser_fits hl _ _ hp, hb, hp⟩
    | error e =>
      rw [execEncode_error hx] at h; cases h
      exact memory_wf_iff.mpr ⟨h1, Nat.zero_le _, Nat.zero_le _, h4⟩
  case decode =>
    rw [exec] at h
    cases hd : des s.inMem with
    | error e =>
      rw [execDecode_des hd] at h; cases h
      exact memory_wf_iff.mpr ⟨h1, Nat.zero_le _, h3, Nat.zero_le _⟩
    | ok r =>
      have hr := des_fits r hd
      cases hu : unpack r.pay r.pad with
      | error e =>
        rw [execDecode_unpack hd hu] at h; cases h
        exact memory_wf_iff.mpr ⟨h1, Nat.zero_le _, Nat.zero_le _, hr⟩
      | ok bs =>
        have hb := unpack_length_le hu
        have hb : bs.length ≤ s.bitCap.toNat := by omega
        cases hw : walk (tree r.ft) bs with
        | error e =>
          rw [execDecode_walk hd hu hw] at h; cases h
          exact memory_wf_iff.mpr ⟨h1, Nat.zero_le _, hb, hr⟩
        | ok out =>
          rw [execDecode_ok hd hu hw] at h; cases h
          exact memory_wf_iff.mpr ⟨h1, Nat.le_trans (walk_length_le hw) hb, hb, hr⟩
  case wrFt index data =>
    refine transact_memory h hs (settle_memory hs (fun u hu => ?_))
    unfold writeFt at hu
    split at hu <;> cases hu
    exact hs
  case wrCsr index data =>
    refine transact_memory h hs (settle_memory hs (fun u hu => ?_))
    obtain ⟨c, _, hc⟩ := Option.bind_eq_some_iff.mp hu
    exact writeCsr_memory hs hc
  all_goals exact transact_memory h hs (reply_memory hs)

end Sys2Proof.Machine
end

