-- ==== Sys2Proof/Laws/PerInstr.lean ====
section
/-! SUPPORT. The family `ReservedBits`: a claim about every instruction's encoding, one lemma each. -/

namespace Sys2Proof.Laws.ReservedBits

/-- Bits 6:4 of an instruction's byte are 0: they are part of `RSV` in a command word (R100) and
"must be 0" in a header (R120). -/
def Statement (i : Instr) : Prop := (encode i).tableByte.extractLsb' 4 3 = 0

theorem nop : Statement .nop := rfl
theorem freq : Statement .freq := rfl
theorem tree : Statement .tree := rfl
theorem book : Statement .book := rfl
theorem xlat : Statement .xlat := rfl
theorem pack : Statement .pack := rfl
theorem unpack : Statement .unpack := rfl
theorem ser : Statement .ser := rfl
theorem des : Statement .des := rfl
theorem walk : Statement .walk := rfl
theorem encode : Statement .encode := rfl
theorem decode : Statement .decode := rfl
theorem clr : Statement .clr := rfl
theorem rdCsr (index : Word40) : Statement (.rdCsr index) :=
  show (0x00#8).extractLsb' 4 3 = 0#3 from by decide
theorem wrCsr (index data : Word40) : Statement (.wrCsr index data) :=
  show (0x80#8).extractLsb' 4 3 = 0#3 from by decide
theorem rdIn (index : Word40) : Statement (.rdIn index) :=
  show (0x01#8).extractLsb' 4 3 = 0#3 from by decide
theorem rdOut (index : Word40) : Statement (.rdOut index) :=
  show (0x02#8).extractLsb' 4 3 = 0#3 from by decide
theorem rdFt (index : Word40) : Statement (.rdFt index) :=
  show (0x03#8).extractLsb' 4 3 = 0#3 from by decide
theorem wrFt (index data : Word40) : Statement (.wrFt index data) :=
  show (0x83#8).extractLsb' 4 3 = 0#3 from by decide
theorem rdNode (index : Word40) : Statement (.rdNode index) :=
  show (0x04#8).extractLsb' 4 3 = 0#3 from by decide
theorem rdCb (index : Word40) : Statement (.rdCb index) :=
  show (0x05#8).extractLsb' 4 3 = 0#3 from by decide
theorem rdBits (index : Word40) : Statement (.rdBits index) :=
  show (0x06#8).extractLsb' 4 3 = 0#3 from by decide
theorem rdPay (index : Word40) : Statement (.rdPay index) :=
  show (0x07#8).extractLsb' 4 3 = 0#3 from by decide

end Sys2Proof.Laws.ReservedBits
end

