-- ==== Sys2Proof/Laws/Raises.lean ====
section
/-! SUPPORT. What each stage can raise: its causes, and the kind that belongs to each (R302, R303). -/

namespace Sys2Proof.Machine

theorem xlatFrom_error {bitCap : Nat} {c : CodeBook} {bytes : List Byte} :
    ∀ {i len : Nat} {e : Raise}, xlatFrom bitCap c i len bytes = .error e →
      e.kind = e.cause.kind ∧ e.cause ∈ [Cause.noCode, .bitsFull] := by
  induction bytes with
  | nil => intro i len e h; cases h
  | cons b rest ih =>
    intro i len e h
    unfold xlatFrom at h
    dsimp only at h
    split at h
    · cases h; simp [Cause.kind]
    · split at h
      · cases h; simp [Cause.kind]
      · split at h
        · cases h
        · rename_i h'; cases h; exact ih h'

theorem unpack_error {bytes : List Byte} {p : BitVec 3} {e : Raise}
    (h : unpack bytes p = .error e) :
    e = ⟨.formatError, .padNoPayload, 0⟩ ∧ bytes = [] ∧ p ≠ 0 := by
  unfold unpack at h
  split at h
  · split at h
    · cases h
    · cases h; exact ⟨rfl, ‹_›, ‹_›⟩
  · cases h

theorem desEntries_error {c : List Byte} {n : Nat} : ∀ {k : Nat} {prev : Option Byte}
    {t : FreqTable} {e : Raise}, desEntries c n k prev t = .error e →
      e.kind = e.cause.kind ∧ e.cause ∈ [Cause.badOrder, .zeroCount] := by
  induction n with
  | zero => intro k prev t e h; cases h
  | succ n ih =>
    intro k prev t e h
    unfold desEntries at h
    dsimp only at h
    split at h
    · cases h; simp [Cause.kind]
    · split at h
      · cases h; simp [Cause.kind]
      · exact ih h

theorem des_error {c : List Byte} {e : Raise} (h : des c = .error e) :
    e.kind = e.cause.kind ∧ e.cause ∈ possibleCauses .des := by
  unfold des at h
  dsimp only at h
  split at h; · cases h; simp [Cause.kind, possibleCauses]
  split at h; · cases h; simp [Cause.kind, possibleCauses]
  split at h; · cases h; simp [Cause.kind, possibleCauses]
  split at h
  · rename_i h'; cases h
    have := desEntries_error h'
    simp only [possibleCauses, List.mem_cons, List.not_mem_nil, or_false] at this ⊢
    tauto
  · unfold desTail at h
    dsimp only at h
    split at h; · cases h; simp [Cause.kind, possibleCauses]
    split at h; · cases h; simp [Cause.kind, possibleCauses]
    split at h; · cases h; simp [Cause.kind, possibleCauses]
    cases h

theorem walkLone_error {b : Byte} {bs : List Bool} : ∀ {i : Nat} {e : Raise},
    walkLone b i bs = .error e → e.kind = e.cause.kind ∧ e.cause = .badBit := by
  induction bs with
  | nil => intro i e h; cases h
  | cons x l ih =>
    intro i e h
    unfold walkLone at h
    split at h
    · cases h; simp [Cause.kind]
    · split at h
      · cases h
      · rename_i h'; cases h; exact ih h'

theorem walkFrom_error {n : NodeStore} {root : Nat} {bs : List Bool} : ∀ {cur i : Nat}
    {e : Raise}, walkFrom n root cur i bs = .error e →
      e.kind = e.cause.kind ∧ e.cause = .midPath := by
  induction bs with
  | nil =>
    intro cur i e h
    unfold walkFrom at h
    split at h
    · cases h
    · cases h; simp [Cause.kind]
  | cons x l ih =>
    intro cur i e h
    unfold walkFrom at h
    dsimp only at h
    generalize (if x = true then _ else _ : Nat) = next at h
    split at h
    · split at h
      · cases h
      · rename_i h'; cases h; exact ih h'
    · exact ih h

theorem walk_error {t : Tree} {bs : List Bool} {e : Raise} (h : walk t bs = .error e) :
    e.kind = e.cause.kind ∧ ((t.nsym = 0 ∧ bs ≠ [] ∧ e.cause = .noTree) ∨
      e.cause ∈ [Cause.midPath, .badBit]) := by
  unfold walk at h
  split at h
  · split at h
    · cases h
    · cases h; exact ⟨rfl, .inl ⟨‹_›, ‹_›, rfl⟩⟩
  · split at h
    · have := walkLone_error h; simp [this]
    · have := walkFrom_error h; simp [this]

end Sys2Proof.Machine
end

