-- ==== Sys2Proof/Laws/Step.lean ====
section
/-! SUPPORT. What one step is: the port while idle, the port or the command while busy (R260, R261). -/

namespace Sys2Proof.Machine

/-- While idle a step serves the port. -/
theorem step_idle {s : State} (hb : s.status.busy = false) : step s = servePort s := by
  simp [step, hb]

/-- While busy, if the command is still at work, a step serves the port. -/
theorem step_busy_wait {s : State} {later : List Bool} (hb : s.status.busy = true)
    (hp : s.pace = true :: later) : step s = servePort { s with pace := later } := by
  simp only [step, hb, if_true, busyStep, hp]

/-- While busy, if the command may complete, a step runs it. -/
theorem step_busy_run {s : State} (hb : s.status.busy = true) (hp : s.pace.head? ≠ some true) :
    step s = runCommand { s with pace := s.pace.tail } := by
  have hs : step s = busyStep s := by simp [step, hb]
  rw [hs, busyStep]
  split
  · rename_i h; rw [h] at hp; exact absurd rfl hp
  · rename_i h; simp [h]
  · rename_i h; rw [h, List.tail_nil, ← h]

/-- The port with a transaction that is not held. -/
theorem servePort_accept {s : State} {t : Txn} {rest : List HostEvent}
    (hp : s.port = .present t :: rest) (hh : s.holds t.isStatusRead = false) :
    servePort s = accept t { s with port := rest } := by
  simp only [servePort, hp, hh]; rfl

/-- The port with a transaction that is held (R82), no reset being asserted. -/
theorem servePort_held {s : State} {t : Txn} {rest : List HostEvent}
    (hp : s.port = .present t :: rest) (hh : s.holds t.isStatusRead = true)
    (hr : rest.head? ≠ some .assertReset) : servePort s = .next s := by
  simp only [servePort, hp, hh, if_true]
  split
  · exact absurd rfl hr
  · rfl

/-- A run that begins with a step. -/
theorem run_succ {n : Nat} {s t : State} (h : step s = .next t) :
    Sys2Proof.core.run (n + 1) s = Sys2Proof.core.run n t := by
  simp [Host.Core.run, core, h]

end Sys2Proof.Machine
end

