-- ==== Sys2Proof/Tests/Slice0.lean ====
section
/-! SUPPORT. Tests: words written out from the encodings of spec/30_encoding.md, ill-formed terms that
WellFormed refuses, one step of each instruction against the vectors of spec/95_test_vectors.md (each
named after its vector), and for each statement with hypotheses a concrete case that meets them. -/

namespace Sys2Proof.Tests

/- One theorem at a time: each kernel check would else hold a thread of its own. -/
set_option Elab.async false

open Sys2Proof Sys2Proof.Machine

/-! ### Helpers -/

/-- The table with the given entries. -/
def table (es : List (Byte × Count)) : FreqTable := setEntries (Vector.replicate 256 0) es

/-- Reset, with bytes in IN. -/
def withIn (bytes : List Byte) : State := { State.reset with inMem := bytes }

/-- Reset, with a table in FT. -/
def withFt (es : List (Byte × Count)) : State := { State.reset with ft := table es }

/-- Reset, with the tree of a table in NODE and its codes in CB. -/
def withTree (es : List (Byte × Count)) : State :=
  let n := tree (table es)
  { withFt es with node := n.node, root := n.root, nsym := n.nsym, cb := book n }

/-- Reset, with transactions at the port. -/
def withPort (ts : List HostEvent) : State := { State.reset with port := ts }

/-- The instruction completes, and `p` holds of the next state. -/
def gives (i : Instr) (s : State) (p : State → Bool) : Bool :=
  match exec i s with
  | .next t => p t
  | _ => false

/-- The next step completes, and `p` holds of the next state. -/
def stepGives (s : State) (p : State → Bool) : Bool :=
  match step s with
  | .next t => p t
  | _ => false

/-- The table has these entries and no other. -/
def holds (t : FreqTable) (es : List (Byte × Count)) : Bool := t.toList == (table es).toList

/-- STATUS, ERRINFO and ERRPOS as the host reads them. -/
def report (t : State) : BitVec 8 × BitVec 16 × Word40 := (t.status.word, t.errInfo.word, t.errPos)

/-- The words of some nodes (R126). -/
def nodes (t : State) (ids : List Nat) : List (Nat × Nat × Nat) :=
  ids.map (fun i =>
    let n := nodeAt t.node i
    (n.w.toNat, n.l.toNat, n.r.toNat))

/-! ### Decoding, words written out from R100, R101, R120, R122 -/

theorem test_decode_nop : decodeTableWord 8 0b00000000 = some .nop := by decide
theorem test_decode_freq : decodeTableWord 8 0b00000001 = some .freq := by decide
theorem test_decode_tree : decodeTableWord 8 0b00000010 = some .tree := by decide
theorem test_decode_book : decodeTableWord 8 0b00000011 = some .book := by decide
theorem test_decode_xlat : decodeTableWord 8 0b00000100 = some .xlat := by decide
theorem test_decode_pack : decodeTableWord 8 0b00000101 = some .pack := by decide
theorem test_decode_unpack : decodeTableWord 8 0b00000110 = some .unpack := by decide
theorem test_decode_ser : decodeTableWord 8 0b00000111 = some .ser := by decide
theorem test_decode_des : decodeTableWord 8 0b00001000 = some .des := by decide
theorem test_decode_walk : decodeTableWord 8 0b00001001 = some .walk := by decide
theorem test_decode_encode : decodeTableWord 8 0b00001010 = some .encode := by decide
theorem test_decode_decode : decodeTableWord 8 0b00001011 = some .decode := by decide
theorem test_decode_clr : decodeTableWord 8 0b00001100 = some .clr := by decide

/-- Programs G1 to G4 of spec/95_test_vectors.md section 10, `HDR INDEX DATA`. -/
theorem test_decode_rdCsr : decode (.txn ⟨0b00000000, 0x0000000006, 0⟩) = .ok (.rdCsr 6) := by
  decide
theorem test_decode_wrCsr :
    decode (.txn ⟨0b10000000, 0x000000000C, 0x41⟩) = .ok (.wrCsr 0x0C 0x41) := by decide
theorem test_decode_rdIn : decode (.txn ⟨0b00000001, 0x0000000005, 0⟩) = .ok (.rdIn 5) := by decide
theorem test_decode_rdOut : decode (.txn ⟨0b00000010, 0x000000000D, 0⟩) = .ok (.rdOut 13) := by
  decide
theorem test_decode_rdFt : decode (.txn ⟨0b00000011, 0x41, 0⟩) = .ok (.rdFt 0x41) := by decide
theorem test_decode_wrFt : decode (.txn ⟨0b10000011, 0x41, 1⟩) = .ok (.wrFt 0x41 1) := by decide
theorem test_decode_rdNode : decode (.txn ⟨0b00000100, 0x100, 0⟩) = .ok (.rdNode 256) := by decide
theorem test_decode_rdCb : decode (.txn ⟨0b00000101, 0x41, 0⟩) = .ok (.rdCb 0x41) := by decide
theorem test_decode_rdBits : decode (.txn ⟨0b00000110, 1, 0⟩) = .ok (.rdBits 1) := by decide
theorem test_decode_rdPay : decode (.txn ⟨0b00000111, 0, 0⟩) = .ok (.rdPay 0) := by decide

/-- R103 (N4 to N6): 0x0D, 0x1A and 0xFF are no command. -/
theorem test_decode_illegal_commands :
    ([0x0D, 0x1A, 0xFF].map (fun w => (decodeCommand w).toOption)) = [none, none, none] := by decide

/-- R123 (H5 to H7): 0x81, 0x10, 0x08 are no header. -/
theorem test_decode_illegal_headers :
    ([0x81, 0x10, 0x08].map (fun h => (decodeTxn ⟨h, 0, 0⟩).toOption)) = [none, none, none] := by
  decide

/-! ### WellFormed refuses data wider than its target (R120) -/

theorem test_illformed_cmd : (Instr.wrCsr 0x00 0x100).wellFormed = false := by decide
theorem test_illformed_ctrl : (Instr.wrCsr 0x04 0x100).wellFormed = false := by decide
theorem test_illformed_inLen : (Instr.wrCsr 0x05 0x100000000).wellFormed = false := by decide
theorem test_illformed_pad : (Instr.wrCsr 0x09 8).wellFormed = false := by decide
theorem test_illformed_bitsPush : (Instr.wrCsr 0x0D 2).wellFormed = false := by decide
theorem test_illformed_ft : (Instr.wrFt 0 0x100000000).wellFormed = false := by decide
theorem test_wellformed_widest : (Instr.wrCsr 0x07 0xFFFFFFFFFF).wellFormed = true := by decide

/-! ### One step of each instruction -/

/-- N2: NOP after E14 clears the error record. -/
theorem test_nop_N2 : gives .nop
    { State.reset with
      status := ⟨false, true, .formatError, false⟩, errInfo := ⟨.midPath, .walk⟩, errPos := 7 }
    (fun t => report t == (0x02, 0, 0)) = true := by decide +kernel

/-- N3. -/
theorem test_clr_N3 : gives .clr { withTree [(0x41, 3), (0x42, 3)] with
    inMem := [0x41], outMem := [0], bits := [true], pay := [0x54], pad := 2 }
    (fun t => t.status.word == 0x02 && t.cmd == 0 && t.inMem == [] && t.outMem == [] &&
      t.bits == [] && t.pay == [] && t.pad == 0 && t.nsym == 0 && t.root == 511 &&
      holds t.ft [] && nodes t [256] == [(0, 511, 511)] &&
      cbAt t.cb 0x41 == []) = true := by decide +kernel

/-- F3: 0x00 is a symbol like any other. -/
theorem test_freq_F3 : gives .freq (withIn [0x00, 0xFF, 0x00])
    (fun t => holds t.ft [(0x00, 2), (0xFF, 1)]) = true := by decide +kernel

/-- F4: an earlier table is discarded. -/
theorem test_freq_F4 : gives .freq { withFt [(0x42, 2)] with inMem := [0x41] }
    (fun t => holds t.ft [(0x41, 1)]) = true := by decide +kernel

/-- T5: ties between leaves and Internal nodes. -/
theorem test_tree_T5 : gives .tree (withFt [(0x41, 2), (0x42, 2), (0x43, 2), (0x44, 2), (0x45, 4)])
    (fun t => (t.nsym, t.root) == (5, 259) && nodes t [256, 257, 258, 259, 260] ==
      [(4, 65, 66), (4, 67, 68), (8, 69, 256), (12, 257, 258), (0, 511, 511)]) = true := by
  decide +kernel

/-- T7: a weight above 32 bits. -/
theorem test_tree_T7 : gives .tree (withFt [(0x00, 4294967295), (0x01, 4294967295)])
    (fun t => (t.nsym, t.root) == (2, 256) &&
      nodes t [0, 256] == [(4294967295, 511, 511), (8589934590, 0, 1)]) = true := by
  decide +kernel

/-- T6: a skewed tree. -/
theorem test_book_T6 : gives .book
    (withTree [(0, 1), (1, 1), (2, 2), (3, 3), (4, 5), (5, 8)])
    (fun t => [0, 1, 2, 3, 4, 5, 6].map (fun b : Byte => cbAt t.cb b) ==
      [[true, true, true, true, false], [true, true, true, true, true], [true, true, true, false],
        [true, true, false], [true, false], [false], []]) = true := by decide +kernel

/-- T2: a lone leaf. -/
theorem test_book_T2 : gives .book (withTree [(0xFF, 7)])
    (fun t => (t.nsym, t.root) == (1, 255) && cbAt t.cb 0xFF == [false] && cbAt t.cb 0 == [])
    = true := by decide +kernel

/-- X3. -/
theorem test_xlat_X3 : gives .xlat
    { withTree [(0x41, 1), (0x42, 1), (0x43, 2)] with inMem := [0x43, 0x41, 0x42] }
    (fun t => t.bits == [false, true, false, true, true]) = true := by decide +kernel

/-- X4: NO_CODE. -/
theorem test_xlat_X4 : gives .xlat
    { withTree [(0x41, 3), (0x42, 3)] with inMem := [0x41, 0x42, 0x43], bits := [true] }
    (fun t => report t == (0x0A, 0x0411, 2) && t.bits == []) = true := by decide +kernel

/-- K5. -/
theorem test_pack_K5 : gives .pack
    { State.reset with bits := [true, false, true, false, true, true, true, true, false] }
    (fun t => t.pay == [0xAF, 0x00] && t.pad == 7) = true := by decide +kernel

/-- K7: 15 ones. -/
theorem test_pack_K7 : gives .pack { State.reset with bits := List.replicate 15 true }
    (fun t => t.pay == [0xFF, 0xFE] && t.pad == 1) = true := by decide +kernel

/-- K10: padding bits are dropped unexamined. -/
theorem test_unpack_K10 : gives .unpack { State.reset with pay := [0x57], pad := 2 }
    (fun t => t.bits == [false, true, false, true, false, true]) = true := by decide +kernel

/-- K16: PAD_NO_PAYLOAD. -/
theorem test_unpack_K16 : gives .unpack { State.reset with pad := 3, bits := [true] }
    (fun t => report t == (0x06, 0x0606, 0) && t.bits == []) = true := by decide +kernel

/-- R3: a big-endian count. -/
theorem test_ser_R3 : gives .ser (withFt [(0xFF, 0x01020304)])
    (fun t => t.outMem == [0x00, 0x01, 0xFF, 0x01, 0x02, 0x03, 0x04, 0x00]) = true := by
  decide +kernel

/-- R2. -/
theorem test_ser_R2 : gives .ser
    { withFt [(0x41, 3), (0x42, 3)] with pad := 2, pay := [0x54] }
    (fun t => t.outMem == [0x00, 0x02, 0x41, 0x00, 0x00, 0x00, 0x03, 0x42, 0x00, 0x00, 0x00, 0x03,
      0x02, 0x54]) = true := by decide +kernel

/-- The example of R230. -/
theorem test_des_R230 : gives .des
    (withIn [0x00, 0x02, 0x41, 0x00, 0x00, 0x00, 0x03, 0x42, 0x00, 0x00, 0x00, 0x03, 0x02, 0x54])
    (fun t => holds t.ft [(0x41, 3), (0x42, 3)] && t.pad == 2 && t.pay == [0x54]) = true := by
  decide +kernel

/-- E13: the first failing check decides. -/
theorem test_des_E13 : gives .des
    { withIn [0x00, 0x02, 0x41, 0x00, 0x00, 0x00, 0x00, 0x41, 0x00, 0x00, 0x00, 0x01, 0x00] with
      ft := table [(0x41, 1)], pad := 1, pay := [0x00] }
    (fun t => report t == (0x06, 0x0804, 3) && holds t.ft [] && t.pad == 0 &&
      t.pay == []) = true := by decide +kernel

/-- The tree of V5, "abracadabra". -/
def v5 : List (Byte × Count) := [(0x61, 5), (0x62, 2), (0x63, 1), (0x64, 1), (0x72, 2)]

/-- W2. -/
theorem test_walk_W2 : gives .walk
    { withTree v5 with bits := [true, true, false, true, false, false] }
    (fun t => t.outMem == [0x62, 0x63]) = true := by decide +kernel

/-- W5: MID_PATH. -/
theorem test_walk_W5 : gives .walk
    { withTree v5 with bits := [true, true, false, true], outMem := [1] }
    (fun t => report t == (0x06, 0x0908, 4) && t.outMem == []) = true := by decide +kernel

/-- V4. -/
theorem test_encode_V4 : gives .encode (withIn [0x00, 0xFF, 0x41, 0x00, 0xFF, 0x00])
    (fun t => t.outMem == [0x00, 0x03, 0x00, 0x00, 0x00, 0x00, 0x03, 0x41, 0x00, 0x00, 0x00, 0x01,
      0xFF, 0x00, 0x00, 0x00, 0x02, 0x07, 0x73, 0x00] && t.status.word == 0x02 &&
      nodes t [256, 257] == [(3, 65, 255), (6, 0, 256)]) = true := by decide +kernel

/-- V5. -/
theorem test_encode_V5 : gives .encode
    (withIn [0x61, 0x62, 0x72, 0x61, 0x63, 0x61, 0x64, 0x61, 0x62, 0x72, 0x61])
    (fun t => t.pay == [0x6E, 0x8A, 0xDC] && t.pad == 1 && t.bits.length == 23 &&
      t.outMem.length == 31 && t.encodedSize == 31 && nodes t [256, 257, 258, 259] ==
        [(2, 99, 100), (4, 98, 114), (6, 256, 257), (11, 97, 258)]) = true := by decide +kernel

/-- M3: V3's container with one byte appended. -/
theorem test_decode_M3 : gives .decode
    (withIn [0x00, 0x02, 0x41, 0x00, 0x00, 0x00, 0x03, 0x42, 0x00, 0x00, 0x00, 0x03, 0x02, 0x54,
      0x00])
    (fun t => t.outMem == [0x41, 0x42, 0x41, 0x42, 0x41, 0x42] ++ List.replicate 8 0x41 &&
      t.status.word == 0x02) = true := by decide +kernel

/-- The container of E14. -/
def e14 : List Byte := [0x00, 0x04, 0x41, 0x00, 0x00, 0x00, 0x02, 0x42, 0x00, 0x00, 0x00, 0x02,
  0x43, 0x00, 0x00, 0x00, 0x01, 0x44, 0x00, 0x00, 0x00, 0x01, 0x01, 0xAF]

/-- E14: a payload cut in the middle of a code. -/
theorem test_decode_E14 : gives .decode (withIn e14)
    (fun t => report t == (0x06, 0x0908, 7) && t.outMem == [] &&
      t.bits == [true, false, true, false, true, true, true] && t.pad == 1 && t.pay == [0xAF] &&
      (t.nsym, t.root) == (4, 258) &&
      holds t.ft [(0x41, 2), (0x42, 2), (0x43, 1), (0x44, 1)]) = true := by decide +kernel

/-- H1. -/
theorem test_rdCsr_H1 : gives (.rdCsr 0x0B) State.reset
    (fun t => t.answer == some (.data ⟨9, 511⟩)) = true := by decide +kernel

/-- H2: a write-only register. -/
theorem test_rdCsr_H2 : gives (.rdCsr 0x0C) State.reset
    (fun t => t.answer == some .err && t.status.word == 0x20) = true := by decide +kernel

/-- H12: a write-truncate, and one above the length. -/
theorem test_wrCsr_H12 : gives (.wrCsr 0x05 1) (withIn [0x41, 0x41, 0x41])
    (fun t => t.inMem == [0x41] && t.answer == some .ok && gives (.wrCsr 0x05 2) t
      (fun u => u.answer == some .err && u.inMem == [0x41])) = true := by decide +kernel

/-- H8. -/
theorem test_wrCsr_H8 : gives (.wrCsr 0x01 0x20)
    { State.reset with status := ⟨false, false, .none, true⟩ }
    (fun t => t.answer == some .ok && t.status.word == 0) = true := by decide +kernel

/-- H14. -/
theorem test_rdIn_H14 : gives (.rdIn 5) (withIn [0x41, 0x42, 0x41, 0x42, 0x41, 0x42])
    (fun t => t.answer == some (.data ⟨8, 0x42⟩) && gives (.rdIn 6) t
      (fun u => u.answer == some .err)) = true := by decide +kernel

/-- The second half of R272's example: an empty OUT has no byte to read. -/
theorem test_rdOut_empty : gives (.rdOut 2) { State.reset with outMem := [0, 0, 0] }
    (fun t => t.answer == some (.data ⟨8, 0x00⟩) && gives (.rdOut 3) t
      (fun u => u.answer == some .err)) = true := by decide +kernel

/-- H16. -/
theorem test_rdFt_H16 : gives (.rdFt 0x41) (withFt [(0x41, 3), (0x42, 3)])
    (fun t => t.answer == some (.data ⟨32, 3⟩) && gives (.rdFt 256) t
      (fun u => u.answer == some .err)) = true := by decide +kernel

/-- H20. -/
theorem test_wrFt_H20 : gives (.wrFt 0x41 3) State.reset
    (fun t => t.answer == some .ok && holds t.ft [(0x41, 3)] && gives (.wrFt 256 1) t
      (fun u => u.answer == some .err && holds u.ft [(0x41, 3)])) = true := by decide +kernel

/-- H17. -/
theorem test_rdNode_H17 : gives (.rdNode 256) (withTree [(0x41, 3), (0x42, 3)])
    (fun t => t.answer == some (.data ⟨58, 0x84410000000006⟩) && gives (.rdNode 257) t
      (fun u => u.answer == some (.data ⟨58, 0x3FFFF0000000000⟩))) = true := by decide +kernel

/-- H17: 511 is no entry. -/
theorem test_rdNode_H17_none : gives (.rdNode 511) (withTree [(0x41, 3), (0x42, 3)])
    (fun t => t.answer == some .err && t.status.word == 0x20) = true := by decide +kernel

/-- H18. -/
theorem test_rdCb_H18 : gives (.rdCb 0x42) (withTree [(0x41, 3), (0x42, 3)])
    (fun t => t.answer == some (.data ⟨263, BitVec.ofNat 263 (2 ^ 262 + 1)⟩) &&
      gives (.rdCb 0x41) t (fun u => u.answer == some (.data ⟨263, 1⟩))) = true := by
  decide +kernel

/-- H19. -/
theorem test_rdBits_H19 : gives (.rdBits 1)
    { State.reset with bits := [false, true, false, true, false, true] }
    (fun t => t.answer == some (.data ⟨1, 1⟩) && gives (.rdBits 6) t
      (fun u => u.answer == some .err)) = true := by decide +kernel

/-- H19. -/
theorem test_rdPay_H19 : gives (.rdPay 0) { State.reset with pay := [0x54] }
    (fun t => t.answer == some (.data ⟨8, 0x54⟩) && gives (.rdPay 1) t
      (fun u => u.answer == some .err)) = true := by decide +kernel

/-- N5: the illegal word 0x1A stays in CMD. -/
theorem test_illegal_N5 : stepGives (State.reset.start 0x1A)
    (fun t => report t == (0x0A, 0x0010, 0) && t.cmd == 0x1A) = true := by decide +kernel

/-- H5: a write to space IN is refused, and IN is unchanged. -/
theorem test_illegal_H5 : stepGives (withPort [.present ⟨0x81, 0, 0x41⟩])
    (fun t => t.answer == some .err && t.inMem == [] && t.status.word == 0x20) = true := by
  decide +kernel

/-- H21: STATUS is readable while a command runs; another transaction is held. -/
theorem test_held_H21 :
    stepGives { State.reset.start 0x01 with pace := [true], port := [.present ⟨0, 1, 0⟩] }
      (fun t => t.answer == some (.data ⟨8, 0x01⟩) && t.port == []) = true ∧
    stepGives { State.reset.start 0x01 with pace := [true], port := [.present ⟨0, 0, 0⟩] }
      (fun t => t.answer == none && t.port == [.present ⟨0, 0, 0⟩]) = true := by decide +kernel

/-- N8: `irq` follows DONE when IE is set. -/
theorem test_irq_N8 : gives .nop { State.reset with ctrl := ⟨true⟩ }
    (fun t => t.irq && gives (.wrCsr 0x01 0x02) t (fun u => !u.irq)) = true := by decide +kernel

/-! ### A case for the hypotheses of each statement -/

/-- A state with input and a tree of another input, idle, with a transaction presented. -/
def sample : State := { withTree [(0x41, 3), (0x42, 3)] with
  inMem := [0x41, 0x42, 0x41], port := [.present ⟨0x80, 0x00, 0x0A⟩] }

theorem sample_inv : sample.Inv where
  params := by unfold Config.legal; decide +kernel
  memories := by decide +kernel
  treeBuilt := ⟨table [(0x41, 3), (0x42, 3)], rfl⟩
  bookBuilt := ⟨table [(0x41, 3), (0x42, 3)], rfl⟩
  phaseOk := rfl
  busyClean := fun h => by cases h
  kindOk := rfl
  phaseOfCause := by decide
  posOk := fun _ => rfl

/-- EncodedInstructionDecodesToItself, RegistersAboveBitCapDoNotExist: boundary operands. -/
theorem witness_encode : (Instr.wrCsr 0x09 7).wellFormed = true ∧
    (Instr.wrFt 0xFFFFFFFFFF 0xFFFFFFFF).wellFormed = true ∧
    (Instr.rdCsr 0xFFFFFFFFFF).wellFormed = true ∧ 0x11 ≤ (0x11 : Word40).toNat ∧
    State.reset.status.busy = false := by decide +kernel

/-- DecodedEncodingIsTheEncoders: a read with data bits, and a write. -/
theorem witness_decode : decode (.txn ⟨0x00, 1, 5⟩) = .ok (.rdCsr 1) ∧
    decode (.txn ⟨0x83, 1, 5⟩) = .ok (.wrFt 1 5) ∧ decode (.command 0x0C) = .ok .clr := by
  decide +kernel

/-- IllegalHeadersAre246, third clause; the headers next to a legal one. -/
theorem witness_illegalHdr : State.reset.status.busy = false ∧
    (decodeTxn ⟨0x81, 0, 0⟩).toOption = none ∧ (decodeTxn ⟨0x08, 0, 0⟩).toOption = none := by
  decide +kernel

/-- StepAcceptsWhatIsPresented: a legal and an illegal transaction, and STATUS read while busy. -/
theorem witness_stepAccepts : sample.status.busy = false ∧
    sample.port = .present ⟨0x80, 0x00, 0x0A⟩ :: [] ∧
    decodeTxn ⟨0x80, 0x00, 0x0A⟩ = .ok (.wrCsr 0x00 0x0A) ∧
    (withPort [.present ⟨0xFF, 0, 0⟩]).port = .present ⟨0xFF, 0, 0⟩ :: [] ∧
    (decodeTxn ⟨0xFF, 0, 0⟩).toOption = none ∧
    (let s : State := { State.reset.start 0x0A with
      pace := [true], port := [.present ⟨0x00, 0x01, 0⟩] }
     s.status.busy = true ∧ s.pace = true :: [] ∧
       s.port = .present ⟨0x00, 0x01, 0⟩ :: []) := by decide +kernel

/-- StepRunsTheStartedCommand, IllegalCommandWordEndsWithUsageError, BusyEnds: a started command,
`pace` empty or saying "now". -/
theorem witness_started : (State.reset.start 0x0C).status.busy = true ∧
    (State.reset.start 0x0C).pace.head? ≠ some true ∧
    ({ State.reset.start 0x0C with pace := [false, true] } : State).pace.head? ≠ some true ∧
    decodeCommand (State.reset.start 0x0C).cmd = .ok .clr ∧
    (decodeCommand (State.reset.start 0x0D).cmd).toOption = none ∧
    (decodeCommand (State.reset.start 0xFF).cmd).toOption = none := by decide +kernel

/-- HeldTransactionIsAcceptedLater, its first clause included. -/
theorem witness_held : ∃ (s : State) (t : Txn) (rest : List HostEvent) (later : List Bool)
    (i : Instr), s.status.busy = true ∧ s.port = .present t :: rest ∧
      ¬ (t.hdr = 0x00 ∧ t.index = 0x01) ∧ rest.head? ≠ some .assertReset ∧ s.pace = true :: later ∧ decodeTxn t = .ok i :=
  ⟨{ State.reset.start 0x0A with pace := [true], port := [.present ⟨0x02, 5, 0⟩] }, ⟨0x02, 5, 0⟩,
    [], [], .rdOut 5, by decide +kernel⟩

/-- ResetStateMeetsInv, DecoderInvertsEncoder: the least and the greatest legal parameters. -/
theorem witness_legal : Config.legal 184 1472 ∧ Config.legal (2 ^ 32 - 1) (2 ^ 40 - 8) := by
  unfold Config.legal; decide

/-- EncodeNeverFails, SerWritesTheContainer, DecoderInvertsEncoder: `CAP` bytes of input. -/
theorem witness_fullInput : ∃ s : State, Config.legal s.cap.toNat s.bitCap.toNat ∧
    s.inMem.length ≤ s.cap.toNat ∧ s.cap.toNat ≤ s.inMem.length ∧
    s.pay.length ≤ s.bitCap.toNat / 8 :=
  ⟨{ sample with cap := 184, bitCap := 1472, inMem := List.replicate 184 0x41 },
    by unfold Config.legal; decide +kernel, by decide +kernel⟩

/-- EveryStepKeepsInv. -/
theorem witness_inv : ∃ s t : State, s.Inv ∧ step s = .next t :=
  ⟨sample, _, sample_inv, rfl⟩

/-- ResetInputGivesTheResetState: idle, busy, and with a transaction held. -/
theorem witness_reset : ∃ s u v : State, ∃ (t : Txn) (rest : List HostEvent) (later : List Bool),
    (s.port = .assertReset :: rest ∧ s.status.busy = false) ∧
    (u.port = .assertReset :: rest ∧ u.status.busy = true ∧ u.pace = true :: later) ∧
    (v.port = .present t :: .assertReset :: rest ∧ ¬ (t.hdr = 0x00 ∧ t.index = 0x01) ∧
      v.status.busy = true ∧ v.pace = true :: later) :=
  ⟨withPort [.assertReset],
    { State.reset.start 0x01 with port := [.assertReset], pace := [true] },
    { State.reset.start 0x01 with port := [.present ⟨0, 0, 0⟩, .assertReset], pace := [true] },
    ⟨0, 0, 0⟩, [], [], by decide +kernel⟩

/-- CommandWriteStartsTheCommand, the statements on registers and memories through the port, and
InstructionsWriteOnlyTheirParts. -/
theorem witness_idle : sample.status.busy = false ∧ exec .freq sample ≠ .next sample ∧
    Part.inMem ∉ writes .freq ∧ (∃ t, exec .freq sample = .next t) :=
  ⟨rfl, by intro h; exact absurd (congrArg (fun o => match o with
      | .next t => t.cmd
      | _ => (0 : Byte)) h) (by decide), by decide, _, rfl⟩

/-- CommandsEndWithTheirCausesOnly, FailedStageLeavesItsDestinationEmpty: every failing stage, in
ENCODE under a `BIT_CAP` that no legal instance has (log 14). -/
theorem witness_fails :
    isCommand .xlat = true ∧ isCommand .decode = true ∧
    gives .xlat (withIn [0x41]) (fun t => t.status.err != .none && t.errInfo.phase == .xlat) = true ∧
    gives .unpack { State.reset with pad := 7 }
      (fun t => t.status.err != .none && t.errInfo.phase == .unpack) = true ∧
    gives .des State.reset (fun t => t.status.err != .none && t.errInfo.phase == .des) = true ∧
    gives .walk { State.reset with bits := [false] }
      (fun t => t.status.err != .none && t.errInfo.phase == .walk) = true ∧
    gives .decode (withIn e14)
      (fun t => t.status.err != .none && t.errInfo.phase == .walk) = true ∧
    isCommand .encode = true ∧ gives .encode { withIn [0x41, 0x41] with bitCap := 1 }
      (fun t => t.status.err != .none && t.errInfo.phase == .xlat) = true := by decide +kernel

/-- FreqCountsSymbols, FrequencyLaws, EncodedBitsAtMostEightPerByte, XlatLengthLaw. -/
theorem witness_bytes : ([0x00, 0xFF, 0x00] : List Byte).length < 2 ^ 32 ∧
    ([0x00, 0xFF] : List Byte).Perm [0xFF, 0x00] ∧
    (xlat 524288 [0x41, 0x42] (book (tree (table [(0x41, 3), (0x42, 3)])))).toOption =
      some [false, true] := by decide +kernel

/-- WeightLaws, TreeBuildsAShapedTree: a tree with two Internal nodes. -/
theorem witness_weights : ∃ t : FreqTable,
    (tree t).used 256 ∧ (tree t).used (256 + 1) ∧ (tree t).nsym ≠ 0 :=
  ⟨table [(0x41, 1), (0x42, 1), (0x43, 2)], by unfold Tree.used; decide +kernel⟩

/-- EmptyTableAndLoneSymbol, at the last symbol. -/
theorem witness_lone : (∀ b, ftAt (table []) b = 0) ∧ ftAt (table [(0xFF, 7)]) 0xFF ≠ 0 ∧
    ∀ c : Byte, c ≠ 0xFF → ftAt (table [(0xFF, 7)]) c = 0 :=
  ⟨ftAt_empty, by decide +kernel, fun c hc => (ftAt_set_ne _ _ hc).trans (ftAt_empty c)⟩

/-- PriorityCollectionKeepsTheCanonicalOrder: equal weights, and the largest id of a round. -/
theorem witness_queue : ([(2, 65), (2, 256)] : List QItem).Pairwise
      (fun a b => a.1 < b.1 ∨ (a.1 = b.1 ∧ a.2 < b.2)) ∧
    (∀ y ∈ ([(2, 65), (2, 256)] : List QItem), y.2 ≠ ((2, 66) : QItem).2) ∧
    ∀ y ∈ ([(2, 65), (2, 256)] : List QItem), y.2 < 256 + 1 := by decide +kernel

/-- BookGivesThePathToEachLeaf: the empty tree, a lone leaf, and a tree of five leaves. -/
theorem witness_book : State.reset.nsym = 0 ∧ (withTree [(0xFF, 7)]).nsym = 1 ∧
    ∃ t : FreqTable, (withTree v5).tree = tree t ∧ 2 ≤ (withTree v5).nsym.toNat ∧
      cbAt (book (tree t)) 0x62 ≠ [] :=
  ⟨by decide +kernel, by decide +kernel, table v5, rfl, by decide +kernel, by decide +kernel⟩

/-- BookIsPrefixFree, CodesFillTheCodeSpace. -/
theorem witness_codes : ∃ t u : FreqTable, ∃ a b : Byte, a ≠ b ∧
    cbAt (book (tree t)) a ≠ [] ∧ cbAt (book (tree t)) b ≠ [] ∧ 2 ≤ (tree t).nsym.toNat ∧
    (tree u).nsym = 1 :=
  ⟨table [(0x41, 1), (0x42, 1)], table [(0x41, 1)], 0x41, 0x42, by decide +kernel⟩

/-- XlatConcatenatesTheCodes, with `BIT_CAP` just enough. -/
theorem witness_xlat :
    let s : State := { withTree [(0x41, 3), (0x42, 3)] with
      inMem := [0x41, 0x42, 0x41], bitCap := 3 }
    (∀ b ∈ s.inMem, cbAt s.cb b ≠ []) ∧
      (s.inMem.flatMap (cbAt s.cb)).length ≤ s.bitCap.toNat := by decide +kernel

/-- XlatFailsAtTheFirstBadByte: NO_CODE, and BITS_FULL one bit past `BIT_CAP`. -/
theorem witness_xlatFails :
    let s : State := { withTree [(0x41, 3), (0x42, 3)] with
      inMem := [0x41, 0x42, 0x43], bitCap := 1 }
    let pre : List Byte := [0x41]
    (s.inMem = pre ++ 0x42 :: [0x43] ∧ (∀ x ∈ pre, cbAt s.cb x ≠ []) ∧
      (pre.flatMap (cbAt s.cb)).length ≤ s.bitCap.toNat ∧ cbAt s.cb 0x42 ≠ [] ∧
      s.bitCap.toNat < ((pre ++ [0x42]).flatMap (cbAt s.cb)).length) ∧
    cbAt s.cb 0x43 = [] := by decide +kernel

/-- UnpackDropsOnlyThePadding, UnpackInvertsPack: payload and none, padding and none. -/
theorem witness_unpack : (∃ s t : State, exec .pack s = .next t) ∧
    unpack [] 0 = .ok [] ∧ unpack [0x80] 7 = .ok [true] ∧
    (({ State.reset with pad := 1 } : State).pay = [] ∧
      ({ State.reset with pad := 1 } : State).pad ≠ 0) :=
  ⟨⟨State.reset, _, rfl⟩, by decide +kernel, by decide +kernel, by decide +kernel⟩

/-- DesInvertsSer: a full container and the empty one. -/
theorem witness_serializable : serializable (table [(0x41, 3)]) 7 [0x00] ∧
    serializable (table []) 0 [] ∧
    (des (ser (table [(0x41, 3)]) 7 [0x00])).toOption.isSome = true :=
  ⟨⟨.inr (by decide), .inl ⟨0x41, by decide +kernel⟩⟩, ⟨.inl rfl, .inr rfl⟩, by decide +kernel⟩

/-- DesReportsTheFirstFailingCheck: a container for each check, at its boundary (E2, E6, E3, E8, E9,
E10, E11, E12, and a padding byte of 7). -/
theorem witness_desChecks :
    ([0x00] : List Byte).length < 2 ∧
    256 < 256 * (0x01 : Byte).toNat + (0x01 : Byte).toNat ∧
    ([0x00, 0x00] : List Byte).length < 3 + 5 * 0 ∧
    (let k : List Byte := [0x00, 0x02, 0x41, 0, 0, 0, 1, 0x41, 0, 0, 0, 1, 0x00]
     3 + 5 * 2 ≤ k.length ∧ entryCount k 0 ≠ 0 ∧ (k.getD 7 0).toNat ≤ (k.getD 2 0).toNat) ∧
    entryCount [0x00, 0x01, 0x41, 0, 0, 0, 0, 0x00] 0 = 0 ∧
    7 < (([0x00, 0x00, 0x08] : List Byte).getD 2 0).toNat ∧
    (([0x00, 0x00, 0x07] : List Byte).getD 2 0).toNat ≤ 7 ∧
    3 < ([0x00, 0x00, 0x00, 0x00] : List Byte).length := by decide +kernel

/-- WalkInvertsXlat. -/
theorem witness_walk : ∃ (s : State) (t : FreqTable) (bytes : List Byte), s.tree = tree t ∧
    (tree t).nsym ≠ 0 ∧ (∀ b ∈ bytes, ftAt t b ≠ 0) ∧
    s.bits = bytes.flatMap (cbAt (book (tree t))) ∧ bytes ≠ [] :=
  ⟨{ withTree v5 with bits := [true, true, false, true, false, false] }, table v5, [0x62, 0x63],
    rfl, by decide +kernel⟩

/-- WalkFailsWhereTheBitsEndNoCode: no bits, no tree, a lone leaf, the middle of a code. -/
theorem witness_walkFails : sample.bits = [] ∧
    (∃ s : State, s.nsym = 1 ∧ s.bits = List.replicate 2 false) ∧
    (∃ s : State, s.nsym = 0 ∧ s.bits ≠ []) ∧
    (∃ s : State, s.nsym = 1 ∧ s.bits = List.replicate 2 false ++ true :: [false]) ∧
    ∃ (s : State) (t : FreqTable), s.tree = tree t ∧ 2 ≤ s.nsym.toNat ∧
      (∀ x ∈ ([0x62] : List Byte), ftAt t x ≠ 0) ∧
      cbAt (book (tree t)) 0x63 = [true] ++ [false, false] ∧
      s.bits = ([0x62] : List Byte).flatMap (cbAt (book (tree t))) ++ [true] :=
  ⟨rfl, ⟨{ withTree [(0x41, 1)] with bits := [false, false] }, by decide +kernel⟩,
    ⟨{ State.reset with bits := [false] }, by decide +kernel⟩,
    ⟨{ withTree [(0x41, 1)] with bits := [false, false, true, false] }, by decide +kernel⟩,
    ⟨{ withTree v5 with bits := [true, true, false, true] }, table v5, rfl, by decide +kernel⟩⟩

/-- EncodeDependsOnTheInputAlone: two states that differ in everything else. -/
theorem witness_encodeAlone :
    sample.inMem = (withIn [0x41, 0x42, 0x41]).inMem ∧
    sample.bitCap = (withIn [0x41, 0x42, 0x41]).bitCap ∧
    gives .encode sample (fun t => t.status.err == .none) = true ∧
    cbAt sample.cb 0x41 ≠ cbAt State.reset.cb 0x41 := by
  decide +kernel

/-- EncodeOfEmptyAndOfOneSymbol. -/
theorem witness_oneSymbol : ({ sample with inMem := [] } : State).inMem = [] ∧
    ({ sample with inMem := [0x41] } : State).inMem = List.replicate 1 0x41 ∧
    Config.legal sample.cap.toNat sample.bitCap.toNat ∧ 1 ≤ sample.cap.toNat :=
  ⟨rfl, rfl, sample_inv.params, by decide +kernel⟩

/-- DecodeIsAFunctionOfTheContainer: success and failure. -/
theorem witness_decodeBytes :
    (decodeBytes [0x00, 0x01, 0x41, 0x00, 0x00, 0x00, 0x01, 0x07, 0x00]).toOption = some [0x41] ∧
    (decodeBytes []).toOption = none := by decide +kernel

/-- RegisterWrites, LengthWritesTruncate, PushesAppendAtTheLength: the data at each bound. -/
theorem witness_writes : (7 : Word40).toNat ≤ 7 ∧ 7 < (8 : Word40).toNat ∧
    (3 : Word40).toNat ≤ sample.inMem.length ∧ sample.inMem.length < (4 : Word40).toNat ∧
    sample.inMem.length < sample.cap.toNat ∧
    (let full : State := { sample with cap := 3, bitCap := 8, bits := List.replicate 8 true
                                       pay := [0] }
     full.cap.toNat ≤ full.inMem.length ∧ full.bitCap.toNat ≤ full.bits.length ∧
       full.bitCap.toNat / 8 ≤ full.pay.length) := by decide +kernel

/-- MemoryReadsAreBoundedByTheLength, FrequencyTableThroughThePort,
TreeAndCodebookThroughThePort: indexes at each bound. -/
theorem witness_reads : (2 : Word40).toNat < sample.inMem.length ∧
    sample.inMem.length ≤ (3 : Word40).toNat ∧ (255 : Word40).toNat ≤ 255 ∧
    256 ≤ (256 : Word40).toNat ∧ (510 : Word40).toNat ≤ 510 ∧ 511 ≤ (511 : Word40).toNat := by
  decide +kernel

/-- CodeWordIsLeftAligned: the longest code. -/
theorem witness_code : (List.replicate 255 true).length ≤ 255 := by decide +kernel

/-- RefusedTransactionChangesOnlyHerr: an accepted transaction answered ERR. -/
theorem witness_refused : ∃ u, accept ⟨0x00, 0x0C, 0⟩ State.reset = .next u ∧
    u.answer = some .err ∧ State.reset.status.busy = false :=
  ⟨State.reset.refuse, rfl, rfl, rfl⟩

/-- LoadInPutsTheBytesIn: exactly `CAP` bytes. -/
theorem witness_load : ∃ (s : State) (bytes : List Byte) (rest : List HostEvent),
    s.status.busy = false ∧ bytes.length ≤ s.cap.toNat ∧
    s.port = Script.loadIn bytes ++ rest ∧ bytes ≠ [] :=
  ⟨{ State.reset with cap := 2, port := Script.loadIn [0x41, 0x42] ++ [.assertReset] },
    [0x41, 0x42], [.assertReset], by decide +kernel⟩

end Sys2Proof.Tests
end

namespace Sys2Proof.Machine

/-! ### Register numbers and the words of the flags -/

/-- Settles O6: no register is found, so a read and a write are refused. -/
theorem registersAboveBitCapDoNotExist : Obligations.RegistersAboveBitCapDoNotExist := by
  intro index data s hi hb
  have hn : csrOf index = none := csrOf_eq_none hi
  constructor
  · rw [exec, execRdCsr, transact_idle hb, readCsrAt, hn, Option.bind_none, reply_none]
  · rw [exec, execWrCsr, transact_idle hb, writeCsrAt, hn, Option.bind_none, settle_none]

/-- A word put together from two fields, as a number. -/
theorem toNat_append_add {m n : Nat} (x : BitVec m) (y : BitVec n) :
    (x ++ y).toNat = x.toNat * 2 ^ n + y.toNat := by
  rw [BitVec.toNat_append, ← Nat.shiftLeft_add_eq_or_of_lt y.isLt, Nat.shiftLeft_eq]

/-- STATUS as read, field by field (R22). -/
theorem Status.word_toNat (t : Status) : t.word.toNat =
    t.busy.toNat + 2 * t.done.toNat + 4 * t.err.code.toNat + 32 * t.herr.toNat := by
  simp only [Status.word, toNat_append_add, BitVec.toNat_ofBool, BitVec.ofNat_eq_ofNat,
    BitVec.toNat_ofNat]
  omega

/-- ERRINFO as read, field by field (R23). -/
theorem ErrInfo.word_toNat (e : ErrInfo) :
    e.word.toNat = e.cause.code.toNat + 256 * e.phase.code.toNat := by
  simp only [ErrInfo.word, toNat_append_add, BitVec.ofNat_eq_ofNat, BitVec.toNat_ofNat]
  omega

/-- CTRL as read (R25). -/
theorem Ctrl.word_toNat (c : Ctrl) : c.word.toNat = c.ie.toNat := by
  simp only [Ctrl.word, toNat_append_add, BitVec.toNat_ofBool, BitVec.ofNat_eq_ofNat,
    BitVec.toNat_ofNat]
  omega

/-- Settles O51: each word field by field; the code tables are finite. -/
theorem statusWordsHoldTheirFields : Obligations.StatusWordsHoldTheirFields :=
  ⟨fun s => ⟨s.status.word_toNat, s.errInfo.word_toNat, s.ctrl.word_toNat⟩,
    by decide, by decide, by decide⟩

/-! ### The state after reset -/

theorem presentSymbols_empty : presentSymbols (Vector.replicate 256 0) = [] := by
  refine List.eq_nil_iff_forall_not_mem.mpr fun ⟨w, i⟩ hm => ?_
  obtain ⟨hi, hw, h0⟩ := mem_presentSymbols.mp hm
  exact h0 (by simpa using hw)

/-- R155: the tree of the empty table is what reset leaves in (NODE, ROOT, NSYM). -/
theorem tree_empty :
    tree (Vector.replicate 256 0) = ⟨Vector.replicate 511 Node.unused, 511, 0⟩ := by
  have hq : seedQ (Vector.replicate 256 0) = [] := by rw [seedQ, presentSymbols_empty]; rfl
  have hleaf : leafNode 0 = Node.unused := rfl
  simp only [tree, hq, List.length_nil, mergeLoop, List.append_nil, Tree.mk.injEq]
  refine ⟨Vector.ext fun i hi => ?_, trivial, rfl⟩
  rw [getElem_padTo, Vector.getElem_replicate, Vector.toList_replicate, List.map_replicate, hleaf,
    List.getD_eq_getElem?_getD, List.getElem?_getD_replicate_default_eq]

/-- R174: the codebook of the empty tree is what reset leaves in CB. -/
theorem book_tree_empty :
    book (tree (Vector.replicate 256 0)) = Vector.replicate 256 [] := by
  refine cb_ext fun b => (cbAt_book_absent (ftAt_empty b)).trans ?_
  rw [cbAt, Vector.getElem_replicate]

theorem resetWith_inv {cap : BitVec 32} {bitCap : Word40}
    (h : Config.legal cap.toNat bitCap.toNat) : (State.resetWith cap bitCap).Inv where
  params := h
  memories := resetWith_memory cap bitCap
  treeBuilt := ⟨_, tree_empty.symm⟩
  bookBuilt := ⟨_, book_tree_empty.symm⟩
  phaseOk := rfl
  busyClean := fun hb => nomatch hb
  kindOk := rfl
  phaseOfCause := List.mem_singleton_self _
  posOk := fun _ => rfl

/-- R6, R7: the reference values are legal. -/
theorem refCap_legal : Config.legal Config.refCap.toNat Config.refBitCap.toNat := by
  unfold Config.legal
  decide

/-- Settles O13: the reset tree is that of the empty table, the reset codebook that of its tree. -/
theorem resetStateMeetsInv : Obligations.ResetStateMeetsInv :=
  ⟨fun _ _ h => resetWith_inv h, resetWith_inv refCap_legal⟩

/-! ### A running command -/

/-- A raise that stage `p` may make (R302). -/
structure Raise.Fits (e : Raise) (p : Phase) : Prop where
  cause_ne : e.cause ≠ .none
  kind_eq : e.kind = e.cause.kind
  phase_mem : p ∈ e.cause.phases

/-- What holds from stage to stage of a started command: the invariant's parameters, tree and
codebook, and no error recorded yet (R262). -/
structure State.Running (s : State) : Prop where
  params : Config.legal s.cap.toNat s.bitCap.toNat
  treeBuilt : ∃ t : FreqTable, s.tree = Sys2Proof.Machine.tree t
  bookBuilt : ∃ t : FreqTable, s.cb = book (Sys2Proof.Machine.tree t)
  noError : s.status.err = .none
  noCause : s.errInfo = ⟨.none, .idle⟩
  noPos : s.errPos = 0

/-- A stage's end that the completion turns into a state that meets the invariant. -/
def StageResult.Sound : StageResult → Prop
  | .done s => s.Running
  | .raised s e => s.Running ∧ e.Fits s.phase

/-- A stage, entered as its phase, ends soundly from every running state. -/
def StageSound (x : Phase × (State → StageResult)) : Prop :=
  ∀ s : State, s.Running → (x.2 (s.enter x.1)).Sound

theorem State.Inv.start_running {s : State} (h : s.Inv) (w : Byte) : (s.start w).Running where
  params := h.params
  treeBuilt := h.treeBuilt
  bookBuilt := h.bookBuilt
  noError := rfl
  noCause := rfl
  noPos := rfl

/-- The completion of a sound end meets the invariant (R263, R305). -/
theorem StageResult.Sound.finish_inv {r : StageResult} (h : r.Sound)
    (hm : Memory.wf r.finish = true) : r.finish.Inv := by
  cases r with
  | done s =>
    have hr : s.Running := h
    exact {
      params := hr.params
      memories := hm
      treeBuilt := hr.treeBuilt
      bookBuilt := hr.bookBuilt
      phaseOk := rfl
      busyClean := fun hb => nomatch hb
      kindOk := by simp [hr.noError, hr.noCause, Cause.kind]
      phaseOfCause := by simp [hr.noCause, Cause.phases]
      posOk := fun _ => hr.noPos }
  | raised s e =>
    obtain ⟨hr, hf⟩ := h
    exact {
      params := hr.params
      memories := hm
      treeBuilt := hr.treeBuilt
      bookBuilt := hr.bookBuilt
      phaseOk := rfl
      busyClean := fun hb => nomatch hb
      kindOk := hf.kind_eq
      phaseOfCause := hf.phase_mem
      posOk := fun hc => absurd hc hf.cause_ne }

/-- Sound stages make a sound row. -/
theorem runStages_sound {l : List (Phase × (State → StageResult))} :
    ∀ {s : State}, (∀ x ∈ l, StageSound x) → s.Running → (runStages l s).Sound := by
  induction l with
  | nil => intro s _ hs; exact hs
  | cons x rest ih =>
    intro s hl hs
    have hx := hl x List.mem_cons_self s hs
    rw [runStages_cons]
    cases hr : x.2 (s.enter x.1) with
    | done s' => rw [hr] at hx; exact ih (fun y hy => hl y (List.mem_cons_of_mem x hy)) hx
    | raised s' e => rw [hr] at hx; exact hx

/-- A command with a sound body keeps the invariant. -/
theorem command_keeps_inv {w : Byte} {body : State → StageResult} {s t : State}
    (h : command w body s = .next t) (hm : Memory.wf t = true) (hb : (body (s.start w)).Sound) :
    t.Inv := by
  obtain rfl := command_next.mp h
  exact hb.finish_inv hm

/-! ### The stages -/

/-- A raise fits a stage if its kind is its cause's and its cause is one of a list that does. -/
theorem Raise.fits_of_cause_mem {e : Raise} {p : Phase} {causes : List Cause}
    (hk : e.kind = e.cause.kind) (hc : e.cause ∈ causes)
    (hp : ∀ c ∈ causes, c ≠ .none ∧ p ∈ c.phases) : e.Fits p :=
  ⟨(hp _ hc).1, hk, (hp _ hc).2⟩

theorem xlat_error_fits {bitCap : Nat} {bytes : List Byte} {c : CodeBook} {e : Raise}
    (h : xlat bitCap bytes c = .error e) : e.Fits .xlat := by
  obtain ⟨hk, hc⟩ := xlatFrom_error h
  exact Raise.fits_of_cause_mem hk hc (by decide)

theorem unpack_error_fits {bytes : List Byte} {p : BitVec 3} {e : Raise}
    (h : unpack bytes p = .error e) : e.Fits .unpack := by
  obtain ⟨rfl, _⟩ := unpack_error h
  exact Raise.fits_of_cause_mem rfl (List.mem_singleton_self _) (by decide)

theorem des_error_fits {c : List Byte} {e : Raise} (h : des c = .error e) : e.Fits .des := by
  obtain ⟨hk, hc⟩ := des_error h
  exact Raise.fits_of_cause_mem hk hc (by decide)

theorem walk_error_fits {t : Tree} {bs : List Bool} {e : Raise} (h : walk t bs = .error e) :
    e.Fits .walk := by
  obtain ⟨hk, hc⟩ := walk_error h
  have hc : e.cause ∈ [Cause.noTree, .midPath, .badBit] := by
    obtain ⟨_, _, hc⟩ | hc := hc
    · rw [hc]; exact List.mem_cons_self
    · exact List.mem_cons_of_mem _ hc
  exact Raise.fits_of_cause_mem hk hc (by decide)

theorem stageFreq_sound : StageSound (.freq, stageFreq) := fun _ h => { h with }

theorem stageTree_sound : StageSound (.tree, stageTree) :=
  fun s h => { h with treeBuilt := ⟨s.ft, rfl⟩ }

theorem stageBook_sound : StageSound (.book, stageBook) := fun _ h =>
  have ⟨t, ht⟩ := h.treeBuilt
  { h with bookBuilt := ⟨t, congrArg book ht⟩ }

theorem stagePack_sound : StageSound (.pack, stagePack) := fun _ h => { h with }

theorem stageSer_sound : StageSound (.ser, stageSer) := fun _ h => { h with }

theorem stageXlat_sound : StageSound (.xlat, stageXlat) := by
  intro s h
  dsimp only
  cases hx : xlat (s.enter .xlat).bitCap.toNat (s.enter .xlat).inMem (s.enter .xlat).cb with
  | ok bs => rw [stageXlat_ok rfl hx]; exact { h with }
  | error e => rw [stageXlat_error rfl hx]; exact ⟨{ h with }, xlat_error_fits hx⟩

theorem stageUnpack_sound : StageSound (.unpack, stageUnpack) := by
  intro s h
  dsimp only
  cases hx : unpack (s.enter .unpack).pay (s.enter .unpack).pad with
  | ok bs => rw [stageUnpack_ok rfl hx]; exact { h with }
  | error e => rw [stageUnpack_error rfl hx]; exact ⟨{ h with }, unpack_error_fits hx⟩

theorem stageDes_sound : StageSound (.des, stageDes) := by
  intro s h
  dsimp only
  cases hx : des (s.enter .des).inMem with
  | ok r => rw [stageDes_ok rfl hx]; exact { h with }
  | error e => rw [stageDes_error rfl hx]; exact ⟨{ h with }, des_error_fits hx⟩

theorem stageWalk_sound : StageSound (.walk, stageWalk) := by
  intro s h
  dsimp only
  cases hx : walk (s.enter .walk).tree (s.enter .walk).bits with
  | ok out => rw [stageWalk_ok rfl hx]; exact { h with }
  | error e => rw [stageWalk_error rfl hx]; exact ⟨{ h with }, walk_error_fits hx⟩

/-- CLR leaves the empty tree and the empty codebook (R266). -/
theorem stageClear_sound {s : State} (h : s.Running) : (stageClear s).Sound :=
  { h with treeBuilt := ⟨_, tree_empty.symm⟩, bookBuilt := ⟨_, book_tree_empty.symm⟩ }

/-- A primitive command is a row of one stage. -/
theorem StageSound.row {x : Phase × (State → StageResult)} {s : State} (h : StageSound x)
    (hs : s.Running) : (runStages [x] s).Sound :=
  runStages_sound (List.forall_mem_singleton.mpr h) hs

/-- R220, R250: the composites begin by emptying OUT. -/
theorem State.Running.emptyOut {s : State} (h : s.Running) : { s with outMem := [] }.Running :=
  { h with }

theorem encodeStages_sound : ∀ x ∈ encodeStages, StageSound x := by
  simp [encodeStages, stageFreq_sound, stageTree_sound, stageBook_sound, stageXlat_sound,
    stagePack_sound, stageSer_sound]

theorem decodeStages_sound : ∀ x ∈ decodeStages, StageSound x := by
  simp [decodeStages, stageDes_sound, stageTree_sound, stageUnpack_sound, stageWalk_sound]

/-! ### Transactions -/

theorem State.Inv.withPort {s : State} (h : s.Inv) (port : List HostEvent) :
    { s with port := port }.Inv := { h with }

theorem State.Inv.withPace {s : State} (h : s.Inv) (pace : List Bool) :
    { s with pace := pace }.Inv := { h with }

theorem State.Inv.refuse {s : State} (h : s.Inv) : s.refuse.Inv := { h with }

theorem State.Inv.answerOk {s : State} (h : s.Inv) : s.answerOk.Inv := { h with }

theorem State.Inv.reply {s : State} (h : s.Inv) (d : Option RData) : (s.reply d).Inv := by
  cases d with
  | none => exact h.refuse
  | some d => exact { h with }

theorem State.Inv.settle {s : State} {u : Option State} (h : s.Inv)
    (hu : ∀ t, u = some t → t.Inv) : (s.settle u).Inv := by
  cases u with
  | none => exact h.refuse
  | some t => exact (hu t rfl).answerOk

theorem State.Inv.start {s : State} (h : s.Inv) (w : Byte) : (s.start w).Inv :=
  { h with
    phaseOk := rfl
    busyClean := fun _ => ⟨rfl, rfl⟩
    kindOk := rfl
    phaseOfCause := List.mem_singleton_self _
    posOk := fun _ => rfl }

/-- A write to STATUS never sets DONE (R22). -/
theorem Status.writeOneToClear_done {t : Status} (d : Word40) (h : t.done = false) :
    (t.writeOneToClear d).done = false := by
  simp [Status.writeOneToClear, h]

theorem writeCsr_keeps_inv {c : Csr} {d : Word40} {s t : State} (hs : s.Inv)
    (h : writeCsr c d s = some t) : t.Inv := by
  have hm := writeCsr_memory hs.memories h
  cases c
  case cmd => cases h; exact hs.start _
  case status =>
    cases h
    exact { hs with busyClean := fun hb =>
      have ⟨hd, hc⟩ := hs.busyClean hb
      ⟨Status.writeOneToClear_done d hd, hc⟩ }
  case ctrl => cases h; exact { hs with }
  case pad =>
    rw [writeCsr] at h
    split at h <;> cases h
    exact { hs with }
  case inLen | bitLen | payLen | inPush | bitsPush | payPush =>
    obtain ⟨m, _, rfl⟩ := Option.map_eq_some_iff.mp h
    exact { hs with memories := hm }
  all_goals cases h

theorem writeFt_keeps_inv {index data : Word40} {s t : State} (hs : s.Inv)
    (h : writeFt index data s = some t) : t.Inv := by
  unfold writeFt at h
  split at h <;> cases h
  exact { hs with }

theorem transact_keeps_inv {b : Bool} {f : State → State} {s t : State} (hs : s.Inv)
    (hf : (f s).Inv) (h : transact b f s = .next t) : t.Inv := by
  rw [transact_eq] at h
  cases h
  split
  · exact hs
  · exact hf

/-! ### Instructions and steps -/

theorem exec_keeps_inv {i : Instr} {s t : State} (hs : s.Inv) (h : exec i s = .next t) :
    t.Inv := by
  have hm := exec_memory hs.params hs.memories h
  have hr := hs.start_running
  cases i
  case nop => exact command_keeps_inv h hm (hr _)
  case clr => exact command_keeps_inv h hm (stageClear_sound (hr _))
  case freq => exact command_keeps_inv h hm (stageFreq_sound.row (hr _))
  case tree => exact command_keeps_inv h hm (stageTree_sound.row (hr _))
  case book => exact command_keeps_inv h hm (stageBook_sound.row (hr _))
  case xlat => exact command_keeps_inv h hm (stageXlat_sound.row (hr _))
  case pack => exact command_keeps_inv h hm (stagePack_sound.row (hr _))
  case unpack => exact command_keeps_inv h hm (stageUnpack_sound.row (hr _))
  case ser => exact command_keeps_inv h hm (stageSer_sound.row (hr _))
  case des => exact command_keeps_inv h hm (stageDes_sound.row (hr _))
  case walk => exact command_keeps_inv h hm (stageWalk_sound.row (hr _))
  case encode =>
    rw [exec, execEncode] at h
    exact command_keeps_inv h hm (runStages_sound encodeStages_sound (hr _).emptyOut)
  case decode =>
    rw [exec, execDecode] at h
    exact command_keeps_inv h hm (runStages_sound decodeStages_sound (hr _).emptyOut)
  case wrCsr index data =>
    refine transact_keeps_inv hs (hs.settle fun u hu => ?_) h
    obtain ⟨c, _, hc⟩ := Option.bind_eq_some_iff.mp hu
    exact writeCsr_keeps_inv hs hc
  case wrFt index data =>
    exact transact_keeps_inv hs (hs.settle fun u hu => writeFt_keeps_inv hs hu) h
  all_goals exact transact_keeps_inv hs (hs.reply _) h

/-- An illegal word has no stage: PHASE is 0 (R39, R267). -/
theorem firstPhase_of_illegal {w : Byte} {x : DecodeError} (h : decodeCommand w = .error x) :
    firstPhase w = .idle := by
  rw [firstPhase, h]

theorem runCommand_keeps_inv {s t : State} (hs : s.Inv) (h : runCommand s = .next t) : t.Inv := by
  unfold runCommand at h
  split at h
  · exact exec_keeps_inv hs h
  · rename_i hx
    have hm : Memory.wf t = true := by cases h; exact hs.memories
    have hp : (s.start s.cmd).phase ∈ Cause.badOpcode.phases := by
      rw [State.start_phase, firstPhase_of_illegal hx]
      exact List.mem_singleton_self _
    exact command_keeps_inv h hm ⟨hs.start_running _, Cause.noConfusion, rfl, hp⟩

theorem accept_keeps_inv {x : Txn} {s t : State} (hs : s.Inv) (h : accept x s = .next t) :
    t.Inv := by
  unfold accept at h
  split at h
  · exact exec_keeps_inv hs h
  · exact transact_keeps_inv hs hs.refuse h

/-- What serving the port can do: nothing, a reset, or the acceptance of what is presented. -/
theorem servePort_cases {s t : State} (h : servePort s = .next t) :
    t = s ∨ (∃ rest, t = s.assertReset rest) ∨
      ∃ x rest, s.port = .present x :: rest ∧ s.holds x.isStatusRead = false ∧
        accept x { s with port := rest } = .next t := by
  cases hp : s.port with
  | nil => simp only [servePort, hp] at h; cases h; exact .inl rfl
  | cons ev rest =>
    cases ev with
    | assertReset => simp only [servePort, hp] at h; cases h; exact .inr (.inl ⟨rest, rfl⟩)
    | present x =>
      cases hh : s.holds x.isStatusRead with
      | false => rw [servePort_accept hp hh] at h; exact .inr (.inr ⟨x, rest, rfl, hh, h⟩)
      | true =>
        simp only [servePort, hp, hh, if_true] at h
        split at h <;> cases h
        · exact .inr (.inl ⟨_, rfl⟩)
        · exact .inl rfl

/-- What a step can do: the port is served, or, while busy, the command that CMD names is run; one
entry of `pace` may be used up (log 3). -/
theorem step_cases {s t : State} (h : step s = .next t) :
    ∃ later, servePort { s with pace := later } = .next t ∨
      s.status.busy = true ∧ runCommand { s with pace := later } = .next t := by
  cases hb : s.status.busy with
  | false => rw [step_idle hb] at h; exact ⟨s.pace, .inl h⟩
  | true =>
    by_cases hp : s.pace.head? = some true
    · obtain ⟨later, hl⟩ := List.head?_eq_some_iff.mp hp
      rw [step_busy_wait hb hl] at h
      exact ⟨later, .inl h⟩
    · rw [step_busy_run hb hp] at h
      exact ⟨s.pace.tail, .inr ⟨rfl, h⟩⟩

theorem assertReset_inv {s : State} (hs : s.Inv) (rest : List HostEvent) :
    (s.assertReset rest).Inv :=
  { resetWith_inv hs.params with }

theorem servePort_keeps_inv {s t : State} (hs : s.Inv) (h : servePort s = .next t) : t.Inv := by
  obtain rfl | ⟨rest, rfl⟩ | ⟨x, rest, _, _, ha⟩ := servePort_cases h
  · exact hs
  · exact assertReset_inv hs rest
  · exact accept_keeps_inv (hs.withPort rest) ha

/-- Settles O14: the port and the command each keep the invariant. -/
theorem everyStepKeepsInv : Obligations.EveryStepKeepsInv := by
  intro s t hs h
  obtain ⟨later, hp | ⟨_, hc⟩⟩ := step_cases h
  · exact servePort_keeps_inv (hs.withPace later) hp
  · exact runCommand_keeps_inv (hs.withPace later) hc

end Sys2Proof.Machine

namespace Sys2Proof.Machine

/-! ### What an update of the state changes -/

/-- Every part of `s` outside `ps` is the same in `t`: the frame of R76. -/
def State.ChangesOnly (ps : List Part) (s t : State) : Prop := ∀ p, p ∉ ps → p.same s t

theorem Part.same_refl (p : Part) (s : State) : p.same s s := by cases p <;> rfl

theorem Part.same_trans {p : Part} {s t u : State} (h : p.same s t) (h' : p.same t u) :
    p.same s u := by
  cases p <;> exact Eq.trans h' h

theorem State.ChangesOnly.refl (ps : List Part) (s : State) : s.ChangesOnly ps s :=
  fun p _ => p.same_refl s

theorem State.ChangesOnly.trans {ps : List Part} {s t u : State} (h : s.ChangesOnly ps t)
    (h' : t.ChangesOnly ps u) : s.ChangesOnly ps u :=
  fun p hp => Part.same_trans (p := p) (h p hp) (h' p hp)

theorem State.ChangesOnly.mono {ps qs : List Part} {s t : State} (h : s.ChangesOnly ps t)
    (hq : ps ⊆ qs) : s.ChangesOnly qs t :=
  fun p hp => h p (fun hm => hp (hq hm))

theorem State.ChangesOnly.of_mem {p : Part} {ps : List Part} {s t : State}
    (h : s.ChangesOnly [p] t) (hp : p ∈ ps) : s.ChangesOnly ps t :=
  h.mono (List.cons_subset.mpr ⟨hp, List.nil_subset ps⟩)

theorem State.ChangesOnly.append {ps qs : List Part} {s t u : State} (h : s.ChangesOnly ps t)
    (h' : t.ChangesOnly qs u) : s.ChangesOnly (ps ++ qs) u :=
  (h.mono (List.subset_append_left ps qs)).trans (h'.mono (List.subset_append_right ps qs))

theorem setStatus_changesOnly (s : State) (x : Status) :
    s.ChangesOnly [.status] { s with status := x } := by
  intro p hp
  cases p with
  | status => exact absurd (by decide) hp
  | _ => rfl

theorem setCtrl_changesOnly (s : State) (x : Ctrl) :
    s.ChangesOnly [.ctrl] { s with ctrl := x } := by
  intro p hp
  cases p with
  | ctrl => exact absurd (by decide) hp
  | _ => rfl

theorem setInMem_changesOnly (s : State) (x : List Byte) :
    s.ChangesOnly [.inMem] { s with inMem := x } := by
  intro p hp
  cases p with
  | inMem => exact absurd (by decide) hp
  | _ => rfl

theorem setOutMem_changesOnly (s : State) (x : List Byte) :
    s.ChangesOnly [.outMem] { s with outMem := x } := by
  intro p hp
  cases p with
  | outMem => exact absurd (by decide) hp
  | _ => rfl

theorem setBits_changesOnly (s : State) (x : List Bool) :
    s.ChangesOnly [.bits] { s with bits := x } := by
  intro p hp
  cases p with
  | bits => exact absurd (by decide) hp
  | _ => rfl

theorem setPay_changesOnly (s : State) (x : List Byte) :
    s.ChangesOnly [.pay] { s with pay := x } := by
  intro p hp
  cases p with
  | pay => exact absurd (by decide) hp
  | _ => rfl

theorem setPad_changesOnly (s : State) (x : BitVec 3) :
    s.ChangesOnly [.pad] { s with pad := x } := by
  intro p hp
  cases p with
  | pad => exact absurd (by decide) hp
  | _ => rfl

theorem setFt_changesOnly (s : State) (x : FreqTable) : s.ChangesOnly [.ft] { s with ft := x } := by
  intro p hp
  cases p with
  | ft => exact absurd (by decide) hp
  | _ => rfl

theorem setCb_changesOnly (s : State) (x : CodeBook) : s.ChangesOnly [.cb] { s with cb := x } := by
  intro p hp
  cases p with
  | cb => exact absurd (by decide) hp
  | _ => rfl

/-- R43: the tree triple is one part. -/
theorem setTree_changesOnly (s : State) (x : Tree) :
    s.ChangesOnly [.tree] { s with node := x.node, root := x.root, nsym := x.nsym } := by
  intro p hp
  cases p with
  | tree => exact absurd (by decide) hp
  | _ => rfl

/-- R230, R233: what DES writes, on success and on failure. -/
theorem setParsed_changesOnly (s : State) (ft : FreqTable) (pad : BitVec 3) (pay : List Byte) :
    s.ChangesOnly [.ft, .pad, .pay] { s with ft := ft, pad := pad, pay := pay } :=
  (setFt_changesOnly s ft).append ((setPad_changesOnly _ pad).append (setPay_changesOnly _ pay))

theorem enter_changesOnly (ph : Phase) (s : State) : s.ChangesOnly [.phase] (s.enter ph) := by
  intro p hp
  cases p with
  | phase => exact absurd (by decide) hp
  | _ => rfl

theorem start_changesOnly (w : Byte) (s : State) : s.ChangesOnly lifeCycle (s.start w) := by
  intro p hp
  cases p with
  | cmd | status | errInfo | errPos | phase => exact absurd (by decide) hp
  | _ => rfl

theorem refuse_changesOnly (s : State) : s.ChangesOnly [.answer, .status] s.refuse := by
  intro p hp
  cases p with
  | answer | status => exact absurd (by decide) hp
  | _ => rfl

theorem setAnswer_changesOnly (s : State) (x : Option Answer) :
    s.ChangesOnly [.answer, .status] { s with answer := x } := by
  intro p hp
  cases p with
  | answer => exact absurd (by decide) hp
  | _ => rfl

/-! ### What a stage writes -/

/-- The state that a stage ends in, without error or with a raise (R306). -/
def StageResult.state : StageResult → State
  | .done s => s
  | .raised s _ => s

/-- A stage writes nothing outside `ps`, however it ends (R76, R306). -/
def StageWrites (ps : List Part) (f : State → StageResult) : Prop :=
  ∀ s : State, s.ChangesOnly ps (f s).state

theorem StageWrites.mono {ps qs : List Part} {f : State → StageResult} (h : StageWrites ps f)
    (hq : ps ⊆ qs) : StageWrites qs f :=
  fun s => (h s).mono hq

theorem stageFreq_writes : StageWrites [.ft] stageFreq := fun s => setFt_changesOnly s _

theorem stageTree_writes : StageWrites [.tree] stageTree := fun s => setTree_changesOnly s _

theorem stageBook_writes : StageWrites [.cb] stageBook := fun s => setCb_changesOnly s _

theorem stageSer_writes : StageWrites [.outMem] stageSer := fun s => setOutMem_changesOnly s _

theorem stagePack_writes : StageWrites [.pay, .pad] stagePack := fun s =>
  (setPay_changesOnly s (pack s.bits).1).append (setPad_changesOnly _ (pack s.bits).2)

theorem stageXlat_writes : StageWrites [.bits] stageXlat := by
  intro s
  cases hx : xlat s.bitCap.toNat s.inMem s.cb with
  | ok bs => rw [stageXlat_ok rfl hx]; exact setBits_changesOnly s bs
  | error e => rw [stageXlat_error rfl hx]; exact setBits_changesOnly s []

theorem stageUnpack_writes : StageWrites [.bits] stageUnpack := by
  intro s
  cases hx : unpack s.pay s.pad with
  | ok bs => rw [stageUnpack_ok rfl hx]; exact setBits_changesOnly s bs
  | error e => rw [stageUnpack_error rfl hx]; exact setBits_changesOnly s []

theorem stageDes_writes : StageWrites [.ft, .pad, .pay] stageDes := by
  intro s
  cases hx : des s.inMem with
  | ok r => rw [stageDes_ok rfl hx]; exact setParsed_changesOnly s _ _ _
  | error e => rw [stageDes_error rfl hx]; exact setParsed_changesOnly s _ _ _

theorem stageWalk_writes : StageWrites [.outMem] stageWalk := by
  intro s
  cases hx : walk s.tree s.bits with
  | ok out => rw [stageWalk_ok rfl hx]; exact setOutMem_changesOnly s out
  | error e => rw [stageWalk_error rfl hx]; exact setOutMem_changesOnly s []

/-- R266: CTRL, the parameters and what is outside HFC stay. -/
theorem stageClear_writes : StageWrites (writes .clr) stageClear := by
  intro s p hp
  cases p with
  | ctrl | cap | bitCap | answer | port | pace => rfl
  | errInfo | errPos | phase => rfl
  | _ => exact absurd (by decide) hp

/-- A row writes what its stages write, and PHASE. -/
theorem runStages_writes {ps : List Part} {l : List (Phase × (State → StageResult))}
    (hph : .phase ∈ ps) (hl : ∀ x ∈ l, StageWrites ps x.2) : StageWrites ps (runStages l) := by
  induction l with
  | nil => exact State.ChangesOnly.refl ps
  | cons x rest ih =>
    intro s
    obtain ⟨hx, hrest⟩ := List.forall_mem_cons.mp hl
    have hstage : s.ChangesOnly ps (x.2 (s.enter x.1)).state :=
      ((enter_changesOnly x.1 s).of_mem hph).trans (hx _)
    rw [runStages_cons]
    cases hr : x.2 (s.enter x.1) with
    | done s' => rw [hr] at hstage; exact hstage.trans (ih hrest s')
    | raised s' e => rw [hr] at hstage; exact hstage

theorem encodeStages_writes : ∀ x ∈ encodeStages, StageWrites (writes .encode) x.2 := by
  simp only [encodeStages, List.forall_mem_cons]
  exact ⟨stageFreq_writes.mono (by decide), stageTree_writes.mono (by decide),
    stageBook_writes.mono (by decide), stageXlat_writes.mono (by decide),
    stagePack_writes.mono (by decide), stageSer_writes.mono (by decide), List.forall_mem_nil _⟩

theorem decodeStages_writes : ∀ x ∈ decodeStages, StageWrites (writes .decode) x.2 := by
  simp only [decodeStages, List.forall_mem_cons]
  exact ⟨stageDes_writes.mono (by decide), stageTree_writes.mono (by decide),
    stageUnpack_writes.mono (by decide), stageWalk_writes.mono (by decide), List.forall_mem_nil _⟩

/-- R220, R250: a composite empties OUT before its first stage. -/
theorem StageWrites.emptyOut {ps : List Part} {f : State → StageResult} (h : StageWrites ps f)
    (ho : .outMem ∈ ps) : StageWrites ps (fun s => f { s with outMem := [] }) :=
  fun s => ((setOutMem_changesOnly s []).of_mem ho).trans (h _)

/-! ### What an instruction writes -/

theorem finish_changesOnly (r : StageResult) : r.state.ChangesOnly lifeCycle r.finish := by
  intro p hp
  cases p with
  | cmd | status | errInfo | errPos | phase => exact absurd (by decide) hp
  | _ => cases r <;> rfl

/-- A command writes what its body writes and its life cycle (R262, R263, R305). -/
theorem command_changesOnly {ps : List Part} {w : Byte} {body : State → StageResult} {s t : State}
    (hb : StageWrites ps body) (hl : lifeCycle ⊆ ps) (h : command w body s = .next t) :
    s.ChangesOnly ps t := by
  obtain rfl := command_next.mp h
  exact (((start_changesOnly w s).mono hl).trans (hb _)).trans ((finish_changesOnly _).mono hl)

/-- A primitive command writes what its stage writes and its life cycle. -/
theorem primitive_changesOnly {ps : List Part} {w : Byte} {ph : Phase} {f : State → StageResult}
    {s t : State} (hf : StageWrites ps f) (h : command w (runStages [(ph, f)]) s = .next t) :
    s.ChangesOnly (lifeCycle ++ ps) t := by
  have hl := List.subset_append_left lifeCycle ps
  have hrow := runStages_writes (l := [(ph, f)]) (hl (by decide))
    (List.forall_mem_singleton.mpr (hf.mono (List.subset_append_right _ ps)))
  exact command_changesOnly hrow hl h

theorem transact_changesOnly {ps : List Part} {b : Bool} {f : State → State} {s t : State}
    (hf : s.ChangesOnly ps (f s)) (h : transact b f s = .next t) : s.ChangesOnly ps t := by
  rw [transact_eq] at h
  cases h
  split
  · exact State.ChangesOnly.refl ps s
  · exact hf

theorem reply_changesOnly (d : Option RData) (s : State) :
    s.ChangesOnly [.answer, .status] (s.reply d) := by
  cases d with
  | none => exact refuse_changesOnly s
  | some d => exact setAnswer_changesOnly s _

theorem settle_changesOnly {ps : List Part} {u : Option State} {s : State}
    (hu : ∀ t, u = some t → s.ChangesOnly ps t) :
    s.ChangesOnly ([.answer, .status] ++ ps) (s.settle u) := by
  have hl := List.subset_append_left [Part.answer, .status] ps
  cases u with
  | none => exact (refuse_changesOnly s).mono hl
  | some t =>
    have ht : s.ChangesOnly ([.answer, .status] ++ ps) t :=
      (hu t rfl).mono (List.subset_append_right _ ps)
    exact ht.trans ((setAnswer_changesOnly t _).mono hl)

/-- A legal host write to a register writes that register (R271). -/
theorem writeCsr_changesOnly {c : Csr} {d : Word40} {s t : State} (h : writeCsr c d s = some t) :
    s.ChangesOnly (csrWrites c) t := by
  cases c
  case cmd => cases h; exact start_changesOnly _ s
  case status => cases h; exact setStatus_changesOnly s _
  case ctrl => cases h; exact setCtrl_changesOnly s _
  case pad =>
    rw [writeCsr] at h
    split at h <;> cases h
    exact setPad_changesOnly s _
  case inLen | inPush =>
    obtain ⟨m, _, rfl⟩ := Option.map_eq_some_iff.mp h
    exact setInMem_changesOnly s m
  case bitLen | bitsPush =>
    obtain ⟨m, _, rfl⟩ := Option.map_eq_some_iff.mp h
    exact setBits_changesOnly s m
  case payLen | payPush =>
    obtain ⟨m, _, rfl⟩ := Option.map_eq_some_iff.mp h
    exact setPay_changesOnly s m
  all_goals cases h

theorem writeCsrAt_changesOnly {index d : Word40} {s t : State}
    (h : writeCsrAt index d s = some t) :
    s.ChangesOnly (((csrOf index).map csrWrites).getD []) t := by
  obtain ⟨c, hc, hw⟩ := Option.bind_eq_some_iff.mp h
  rw [hc]
  exact writeCsr_changesOnly hw

/-- A legal host write to an entry of FT writes FT (R274). -/
theorem writeFt_changesOnly {index d : Word40} {s t : State} (h : writeFt index d s = some t) :
    s.ChangesOnly [.ft] t := by
  unfold writeFt at h
  split at h <;> cases h
  exact setFt_changesOnly s _

/-- Settles O20: a command by what its stages write, a transaction by its answer and its target. -/
theorem instructionsWriteOnlyTheirParts : Obligations.InstructionsWriteOnlyTheirParts := by
  intro i s t p h hp
  refine (?_ : s.ChangesOnly (writes i) t) p hp
  cases i
  case nop =>
    have hbody : StageWrites lifeCycle (runStages []) := State.ChangesOnly.refl lifeCycle
    exact command_changesOnly hbody (List.Subset.refl _) h
  case freq => exact primitive_changesOnly stageFreq_writes h
  case tree => exact primitive_changesOnly stageTree_writes h
  case book => exact primitive_changesOnly stageBook_writes h
  case xlat => exact primitive_changesOnly stageXlat_writes h
  case pack => exact primitive_changesOnly stagePack_writes h
  case unpack => exact primitive_changesOnly stageUnpack_writes h
  case ser => exact primitive_changesOnly stageSer_writes h
  case des => exact primitive_changesOnly stageDes_writes h
  case walk => exact primitive_changesOnly stageWalk_writes h
  case encode =>
    have hrow := runStages_writes (by decide) encodeStages_writes
    exact command_changesOnly (hrow.emptyOut (by decide)) (by decide) h
  case decode =>
    have hrow := runStages_writes (by decide) decodeStages_writes
    exact command_changesOnly (hrow.emptyOut (by decide)) (by decide) h
  case clr => exact command_changesOnly stageClear_writes (by decide) h
  case wrCsr index data =>
    exact transact_changesOnly (settle_changesOnly fun _ => writeCsrAt_changesOnly) h
  case wrFt index data =>
    exact transact_changesOnly (settle_changesOnly fun _ => writeFt_changesOnly) h
  all_goals exact transact_changesOnly (reply_changesOnly _ s) h

/-! ### A held transaction -/

theorem isCommand_of_decodeCommand {w : Byte} {i : Instr} (h : decodeCommand w = .ok i) :
    isCommand i = true := by
  unfold decodeCommand at h
  iterate 13
    obtain ⟨-, hi⟩ | ⟨-, h⟩ := ite_eq_iff.mp h
    · cases hi; rfl
  cases h

/-- A command is its body between the start and the completion. -/
theorem exec_command {i : Instr} (h : isCommand i = true) :
    ∃ w body, ∀ s, exec i s = command w body s := by
  cases i
  case rdCsr | wrCsr | rdIn | rdOut | rdFt | wrFt | rdNode | rdCb | rdBits | rdPay => cases h
  case encode => exact ⟨_, fun s => runStages encodeStages { s with outMem := [] }, fun _ => rfl⟩
  case decode => exact ⟨_, fun s => runStages decodeStages { s with outMem := [] }, fun _ => rfl⟩
  all_goals exact ⟨_, _, fun _ => rfl⟩

/-- What the host presents is no part that a command writes. -/
theorem port_notMem_writes {i : Instr} (h : isCommand i = true) : Part.port ∉ writes i := by
  cases i
  case wrCsr => cases h
  all_goals simp [writes, lifeCycle]

/-- A legal transaction is held, or performed at once (R261). -/
theorem exec_of_decodeTxn {x : Txn} {i : Instr} (h : decodeTxn x = .ok i) :
    ∃ perform, ∀ s, exec i s = transact x.isStatusRead perform s := by
  have hother : x.hdr ≠ 0x00 → x.isStatusRead = false := fun hne => by
    rw [Txn.isStatusRead, beq_false_of_ne hne, Bool.false_and]
  obtain ⟨hh, hd⟩ | hrest := decodeTxn_cases x
  · rw [hd] at h; cases h
    have hs : x.isStatusRead = (x.index == 0x01) := by simp [Txn.isStatusRead, hh]
    rw [hs]
    exact ⟨_, fun _ => rfl⟩
  · obtain ⟨hh, hd⟩ | ⟨hh, hd⟩ | ⟨hh, hd⟩ | ⟨hh, hd⟩ | ⟨hh, hd⟩ | ⟨hh, hd⟩ | ⟨hh, hd⟩ | ⟨hh, hd⟩ |
      ⟨hh, hd⟩ | ⟨-, hd⟩ := hrest <;> cases hd.symm.trans h
    all_goals
      rw [hother (by rw [hh]; decide)]
      exact ⟨_, fun _ => rfl⟩

/-- R82: a transaction that is held has no effect. -/
theorem exec_held {x : Txn} {i : Instr} {s : State} (h : decodeTxn x = .ok i)
    (hh : s.holds x.isStatusRead = true) : exec i s = .next s := by
  obtain ⟨perform, hp⟩ := exec_of_decodeTxn h
  rw [hp, transact_eq, if_pos hh]

/-- The command that CMD names, legal or not, completes and leaves what the host presents. -/
theorem runCommand_completes (s : State) :
    ∃ u, runCommand s = .next u ∧ u.status.busy = false ∧ u.port = s.port := by
  cases hd : decodeCommand s.cmd with
  | error x =>
    have he : runCommand s = illegalCommand s.cmd s := by rw [runCommand, hd]
    exact ⟨_, he, rfl, rfl⟩
  | ok i =>
    have he : runCommand s = exec i s := by rw [runCommand, hd]
    have hc := isCommand_of_decodeCommand hd
    obtain ⟨w, body, hx⟩ := exec_command hc
    have hn : exec i s = .next (body (s.start w)).finish := hx s
    exact ⟨_, he.trans hn, (finish_lifeCycle _).1,
      instructionsWriteOnlyTheirParts i s _ .port hn (port_notMem_writes hc)⟩

/-- While the command is at work a step leaves a held transaction presented and uses up one entry of
`pace` (R82, log 3). -/
theorem step_held_wait {s : State} {x : Txn} {rest : List HostEvent} {later : List Bool}
    (hb : s.status.busy = true) (hp : s.port = .present x :: rest)
    (hx : x.isStatusRead = false) (hr : rest.head? ≠ some .assertReset)
    (hl : s.pace = true :: later) : step s = .next { s with pace := later } := by
  have hh : s.holds x.isStatusRead = true := by simp [State.holds, hb, hx]
  rw [step_busy_wait hb hl]
  exact servePort_held hp hh hr

/-- A step in which the command may complete completes it. -/
theorem step_completes {s : State} (hb : s.status.busy = true) (hl : s.pace.head? ≠ some true) :
    ∃ u, step s = .next u ∧ u.status.busy = false ∧ u.port = s.port := by
  rw [step_busy_run hb hl]
  exact runCommand_completes _

/-- R82: behind a held transaction the command completes within `pace.length + 1` steps, and the
transaction is still presented. -/
theorem run_held_completes {x : Txn} {rest : List HostEvent} (hx : x.isStatusRead = false)
    (hr : rest.head? ≠ some .assertReset) (pace : List Bool) : ∀ s : State,
    s.status.busy = true → s.port = .present x :: rest → s.pace = pace →
    ∃ k u, k ≤ pace.length + 1 ∧ Sys2Proof.core.run k s = .next u ∧
      u.status.busy = false ∧ u.port = s.port := by
  have last : ∀ s : State, s.status.busy = true → s.pace.head? ≠ some true →
      ∃ u, Sys2Proof.core.run 1 s = .next u ∧ u.status.busy = false ∧ u.port = s.port :=
    fun s hb hl =>
      have ⟨u, hs, hu⟩ := step_completes hb hl
      ⟨u, run_succ hs, hu⟩
  induction pace with
  | nil =>
    intro s hb _ hl
    obtain ⟨u, hu⟩ := last s hb (by simp [hl])
    exact ⟨1, u, by simp, hu⟩
  | cons w later ih =>
    intro s hb hp hl
    cases w with
    | false =>
      obtain ⟨u, hu⟩ := last s hb (by simp [hl])
      exact ⟨1, u, by simp, hu⟩
    | true =>
      obtain ⟨k, u, hk, hrun, hu⟩ := ih { s with pace := later } hb hp rfl
      have hs := run_succ (n := k) (step_held_wait hb hp hx hr hl)
      exact ⟨k + 1, u, by simpa using hk, hs.trans hrun, hu⟩

/-- Settles O10: the waiting steps use up `pace`, by induction on it, and the completion leaves the
port, which then serves an idle machine. -/
theorem heldTransactionIsAcceptedLater : Obligations.HeldTransactionIsAcceptedLater := by
  intro s x rest hb hp hne hr
  have hx : x.isStatusRead = false := Bool.eq_false_iff.mpr (mt (isStatusRead_iff x).mp hne)
  refine ⟨fun later hl => step_held_wait hb hp hx hr hl,
    fun i hi => exec_held hi (by simp [State.holds, hb, hx]), ?_⟩
  obtain ⟨k, u, hk, hrun, hidle, hport⟩ := run_held_completes hx hr s.pace s hb hp rfl
  have haccept : step u = accept x { u with port := rest } :=
    (step_idle hidle).trans (servePort_accept (hport.trans hp) (by simp [State.holds, hidle]))
  exact ⟨k, u, hk, hrun, hidle, hport, haccept⟩

end Sys2Proof.Machine

namespace Sys2Proof

/-! ### Encodings and decodings -/

/-- The decoder inverts the encoder (R101, R122). -/
@[simp] theorem decode_encode (i : Instr) : decode (encode i) = .ok i := by
  cases i <;> rfl

/-- What an encoding means, its table word means, in the reading of log 5 and log 6. -/
theorem decodeTableWord_tableWord {e : Encoded} {i : Instr} (h : decode e = .ok i) :
    decodeTableWord e.tableBits e.tableWord = some i := by
  cases e with
  | command w =>
    have hw : BitVec.ofNat 8 (Encoded.command w).tableWord = w :=
      (BitVec.ofNat_toNat 8 w).trans (BitVec.setWidth_eq w)
    have hd : decodeCommand w = .ok i := h
    rw [decodeTableWord, if_pos (show (Encoded.command w).tableBits ≤ 8 from le_rfl), hw, hd]
  | txn t =>
    have hd : decodeTxn t = .ok i := h
    have hbits : ¬ (Encoded.txn t).tableBits ≤ 8 := by rw [Encoded.tableBits]; decide
    rw [decodeTableWord, if_neg hbits, txnOfTableWord_tableWord, hd, Except.toOption]

/-- Settles O1: the decoder inverts the encoder, and a table word keeps every bit. -/
theorem encodedInstructionDecodesToItself : Obligations.EncodedInstructionDecodesToItself :=
  fun i _ => ⟨decode_encode i, decodeTableWord_tableWord (decode_encode i)⟩

/-- A command has one word (R101). -/
theorem encode_of_decodeCommand {w : Byte} {i : Instr} (h : decodeCommand w = .ok i) :
    encode i = .command w := by
  unfold decodeCommand at h
  iterate 13
    obtain ⟨rfl, hi⟩ | ⟨-, h⟩ := ite_eq_iff.mp h
    · cases hi; rfl
  cases h

/-- A transaction is known by its header and its index, and a write by its data too (R120, R122). -/
theorem encode_of_decodeTxn {t : Txn} {i : Instr} (h : decodeTxn t = .ok i) :
    encode i = (Encoded.txn t).canonical := by
  obtain ⟨hh, hd⟩ | ⟨hh, hd⟩ | ⟨hh, hd⟩ | ⟨hh, hd⟩ | ⟨hh, hd⟩ | ⟨hh, hd⟩ | ⟨hh, hd⟩ | ⟨hh, hd⟩ |
    ⟨hh, hd⟩ | ⟨hh, hd⟩ | ⟨-, hd⟩ := decodeTxn_cases t <;>
    cases hd.symm.trans h
  all_goals simp [encode, Encoded.canonical, hh]

/-- Settles O2: format by format. -/
theorem decodedEncodingIsTheEncoders : Obligations.DecodedEncodingIsTheEncoders := by
  intro e i h
  cases e with
  | command w => exact encode_of_decodeCommand h
  | txn t => exact encode_of_decodeTxn h

/-! ### Illegal words and headers -/

/-- R103: the words from 0x0D on name no command. -/
theorem decodeCommand_toOption_eq_none {w : Byte} :
    (decodeCommand w).toOption = none ↔ 0xD ≤ w.toNat := by
  constructor
  · intro h
    have legal : ∀ n < 0xD, (decodeCommand (BitVec.ofNat 8 n)).toOption ≠ none := by decide
    by_contra hlt
    exact legal w.toNat (not_le.mp hlt) (by simpa using h)
  · intro h
    have hne : ∀ k : Byte, k.toNat < 0xD → w ≠ k := fun k hk e => by rw [e] at h; omega
    unfold decodeCommand
    iterate 13 rw [if_neg (hne _ (by decide))]
    rfl

/-- Settles O3: both halves speak of the words from 0x0D on. -/
theorem illegalCommandWordsAre243 : Obligations.IllegalCommandWordsAre243 := by
  constructor
  · intro w
    have hw := w.isLt
    simp only [decodeCommand_toOption_eq_none, ne_eq, ← BitVec.toNat_inj,
      BitVec.extractLsb'_toNat, BitVec.toNat_ofNat, BitVec.ofNat_eq_ofNat,
      Nat.shiftRight_eq_div_pow]
    omega
  · have hp : ∀ w ∈ List.range 256,
        (decodeCommand (BitVec.ofNat 8 w)).toOption.isNone = decide (0xD ≤ w) := by
      intro w hw
      have hw := List.mem_range.mp hw
      rw [Bool.eq_iff_iff, Option.isNone_iff_eq_none, decodeCommand_toOption_eq_none,
        BitVec.toNat_ofNat, Nat.mod_eq_of_lt hw, decide_eq_true_iff]
    rw [List.filter_congr hp]
    decide +kernel

/-- R123: a transaction names no kind iff its header is none of the ten. -/
theorem decodeTxn_toOption_eq_none {t : Txn} :
    (decodeTxn t).toOption = none ↔ t.hdr ∉ legalHdrs := by
  obtain ⟨hh, hd⟩ | ⟨hh, hd⟩ | ⟨hh, hd⟩ | ⟨hh, hd⟩ | ⟨hh, hd⟩ | ⟨hh, hd⟩ | ⟨hh, hd⟩ | ⟨hh, hd⟩ |
    ⟨hh, hd⟩ | ⟨hh, hd⟩ | ⟨hh, hd⟩ := decodeTxn_cases t
  pick_goal 11
  · exact iff_of_true (by rw [hd]; rfl) hh
  all_goals simp [hd, hh, legalHdrs, Except.toOption]

/-- R123, the headers by their fields: WRITE in bit 7, zeros in bits 6:4, SPACE in bits 3:0. -/
theorem notMem_legalHdrs (h : Byte) : h ∉ legalHdrs ↔
    (h.getLsbD 7 = true ∧ (h.extractLsb' 0 4).toNat ∈ [1, 2, 4, 5, 6, 7]) ∨
      8 ≤ (h.extractLsb' 0 4).toNat ∨ h.extractLsb' 4 3 ≠ 0 := by
  revert h; decide +kernel

end Sys2Proof

namespace Sys2Proof.Machine

/-- R280: while idle a transaction of an illegal header is refused. -/
theorem accept_illegal {t : Txn} {s : State} (hb : s.status.busy = false)
    (h : (decodeTxn t).toOption = none) : accept t s = .next s.refuse := by
  cases hd : decodeTxn t with
  | ok i => rw [hd] at h; cases h
  | error x => rw [accept, hd]; exact transact_idle hb false State.refuse

/-- Settles O4: the illegal headers are those that are none of the ten. -/
theorem illegalHeadersAre246 : Obligations.IllegalHeadersAre246 := by
  refine ⟨fun t => decodeTxn_toOption_eq_none.trans (notMem_legalHdrs t.hdr), ?_,
    fun t s hb h => accept_illegal hb h⟩
  intro index data
  have hp : ∀ h ∈ List.range 256,
      (decodeTxn ⟨BitVec.ofNat 8 h, index, data⟩).toOption.isNone =
        decide (BitVec.ofNat 8 h ∉ legalHdrs) := fun h _ => by
    rw [Bool.eq_iff_iff, Option.isNone_iff_eq_none, decodeTxn_toOption_eq_none,
      decide_eq_true_iff]
  rw [List.filter_congr hp]
  decide +kernel

/-- Settles O5: the decoder evaluates each word. -/
theorem wordsOfTheTablesDecode : Obligations.WordsOfTheTablesDecode :=
  ⟨rfl, rfl, rfl, rfl, rfl, rfl, rfl, rfl⟩

/-! ### The word of a codebook entry -/

/-- Bit `k` of a bit sequence as a number, counted from its last bit. -/
theorem testBit_bitsToNat (bs : List Bool) (k : Nat) :
    (bitsToNat bs).testBit k = bs.reverse.getD k false := by
  induction bs using List.reverseRecOn generalizing k with
  | nil => simp [bitsToNat]
  | append_singleton l b ih =>
    have hb : bitsToNat (l ++ [b]) = Nat.bit b (bitsToNat l) := by
      rw [Nat.bit_val, bitsToNat, List.foldl_append]; rfl
    rw [hb, List.reverse_concat]
    cases k with
    | zero => exact Nat.testBit_bit_zero b _
    | succ k => exact (Nat.testBit_bit_succ k b _).trans (ih k)

/-- A bit of the code's field in a codebook word (R127). -/
theorem codeWord_getLsbD_add (c : Code) {k : Nat} (hk : k < 255) :
    (codeWord c).getLsbD (8 + k) =
      (decide (255 - c.length ≤ k) && c.reverse.getD (k - (255 - c.length)) false) := by
  rw [codeWord, BitVec.getLsbD_append, if_neg (by omega), Nat.add_sub_cancel_left,
    BitVec.getLsbD_ofNat, decide_eq_true hk, Bool.true_and, Nat.testBit_mul_two_pow,
    testBit_bitsToNat]

/-- Settles O58: the low byte is LEN, and the code's field is the code shifted to the top. -/
theorem codeWordIsLeftAligned : Obligations.CodeWordIsLeftAligned := by
  intro c hc
  refine ⟨?_, fun j hj => ?_, fun k hk hlt => ?_⟩
  · rw [codeWord, toNat_append_add]
    simp only [BitVec.toNat_ofNat]
    omega
  · have hpos : 262 - j = 8 + (254 - j) := by omega
    have hshift : 254 - j - (255 - c.length) = c.length - 1 - j := by omega
    have hback : c.length - 1 - (c.length - 1 - j) = j := by omega
    rw [hpos, codeWord_getLsbD_add c (by omega), hshift,
      decide_eq_true (by omega : 255 - c.length ≤ 254 - j), Bool.true_and,
      List.getD_reverse _ (by omega), hback]
  · obtain ⟨m, rfl⟩ := Nat.exists_eq_add_of_le hk
    rw [codeWord_getLsbD_add c (by omega), decide_eq_false (by omega), Bool.false_and]

/-! ### `load.in` -/

/-- The statement `wr REG, v` first at the port of an idle machine is the write of that register
(R136, R271). -/
theorem step_wr {s : State} {c : Csr} {v : Word40} {rest : List HostEvent}
    (hb : s.status.busy = false) (hp : s.port = Script.wr c v ++ rest) :
    step s = .next ({ s with port := rest }.settle (writeCsr c v { s with port := rest })) := by
  have hport : s.port = .present ⟨0x80, c.number, v⟩ :: rest := hp
  have hwrite : writeCsrAt c.number v = writeCsr c v := by
    funext s; rw [writeCsrAt, csrOf_number, Option.bind_some]
  have haccept : accept ⟨0x80, c.number, v⟩ { s with port := rest } =
      execWrCsr c.number v { s with port := rest } := rfl
  rw [step_idle hb, servePort_accept hport (by simp [State.holds, hb]), haccept, execWrCsr,
    transact_idle (s := { s with port := rest }) hb, hwrite]

/-- `wr IN_LEN, 0` empties IN (R26). -/
theorem step_wr_inLen_zero {s : State} {rest : List HostEvent} (hb : s.status.busy = false)
    (hp : s.port = Script.wr .inLen 0 ++ rest) :
    step s = .next { s with inMem := [], port := rest, answer := some .ok } := by
  have ht : truncate s.inMem (0 : Word40).toNat = some [] :=
    truncate_eq_some.mpr ⟨Nat.zero_le _, rfl⟩
  rw [step_wr hb hp]
  simp only [writeCsr, ht]
  rfl

/-- `wr IN_PUSH, b` below the capacity appends `b` to IN (R33). -/
theorem step_wr_inPush {s : State} {b : Byte} {rest : List HostEvent}
    (hb : s.status.busy = false) (hlt : s.inMem.length < s.cap.toNat)
    (hp : s.port = Script.wr .inPush (b.setWidth 40) ++ rest) :
    step s = .next { s with inMem := s.inMem ++ [b], port := rest, answer := some .ok } := by
  have hbyte : (b.setWidth 40).setWidth 8 = b :=
    BitVec.setWidth_setWidth_of_le b (by decide) |>.trans (BitVec.setWidth_eq b)
  have hpush : push s.inMem s.cap.toNat b = some (s.inMem ++ [b]) :=
    push_eq_some.mpr ⟨hlt, rfl⟩
  rw [step_wr hb hp]
  simp only [writeCsr, hbyte, hpush]
  rfl

/-- The pushes of `load.in` append their bytes to IN, by induction on the bytes. -/
theorem run_inPushes (bytes : List Byte) (rest : List HostEvent) : ∀ s : State,
    s.status.busy = false → s.answer = some .ok → s.inMem.length + bytes.length ≤ s.cap.toNat →
    s.port = bytes.flatMap (fun b => Script.wr .inPush (b.setWidth 40)) ++ rest →
    Sys2Proof.core.run bytes.length s =
      .next { s with inMem := s.inMem ++ bytes, port := rest } := by
  induction bytes with
  | nil =>
    intro s _ _ _ hp
    have hrest : s.port = rest := hp
    rw [List.append_nil, ← hrest]
    rfl
  | cons b bytes ih =>
    intro s hb ha hcap hp
    rw [List.length_cons] at hcap
    rw [List.flatMap_cons, List.append_assoc] at hp
    have hstep := run_succ (n := bytes.length) (step_wr_inPush hb (by omega) hp)
    refine (hstep.trans (ih _ hb rfl (by simp; omega) rfl)).trans ?_
    rw [← ha, List.append_assoc, List.singleton_append]

/-- Settles O60: the truncation empties IN, and the pushes fill it. -/
theorem loadInPutsTheBytesIn : Obligations.LoadInPutsTheBytesIn := by
  intro s bytes rest hb hcap hp
  rw [Script.loadIn, List.append_assoc] at hp
  rw [Nat.add_comm]
  exact (run_succ (step_wr_inLen_zero hb hp)).trans
    (run_inPushes bytes rest _ hb rfl (by simpa using hcap) rfl)

end Sys2Proof.Machine

namespace Sys2Proof.Machine

/-! ### FREQ -/

/-- The loop of R140 from any table: each entry grows by the occurrences of its symbol. -/
theorem ftAt_countingFold (bytes : List Byte) (b : Byte) (t : FreqTable) :
    ftAt (bytes.foldl (fun t c => ftSet t c (ftAt t c + 1)) t) b =
      ftAt t b + BitVec.ofNat 32 (bytes.count b) := by
  induction bytes generalizing t with
  | nil => simp
  | cons c bytes ih =>
    rw [List.foldl_cons, ih]
    by_cases h : b = c
    · subst h
      rw [ftAt_set_self, List.count_cons_self, Nat.add_comm, BitVec.ofNat_add]
      exact BitVec.add_assoc _ _ _
    · rw [ftAt_set_ne t _ h, List.count_cons_of_ne (Ne.symm h)]

/-- The loop of R140 computes the table of R141. -/
theorem freqLoop_eq_freq (bytes : List Byte) : freqLoop bytes = freq bytes := by
  refine ft_ext fun b => ?_
  rw [freqLoop, ftAt_countingFold, ftAt_freq]
  simp

/-- Settles O23: the loop's table is that of the counts, and no count wraps below 2^32 bytes. -/
theorem freqCountsSymbols : Obligations.FreqCountsSymbols := by
  intro s
  rw [freqLoop_eq_freq]
  exact ⟨execFreq_eq s, ftAt_freq_toNat⟩

/-- R142 (a): every byte is counted once, under its own symbol. -/
theorem totalCount_freq {bytes : List Byte} (h : bytes.length < 2 ^ 32) :
    totalCount (freq bytes) = bytes.length := by
  have hsum := sum_bytes (fun _ => 1) bytes
  simp only [List.map_const', List.sum_replicate, smul_eq_mul, mul_one] at hsum
  simp only [totalCount_eq, ftAt_freq_toNat h, hsum]

/-- R142 (b). -/
theorem ftAt_freq_ne_zero {bytes : List Byte} (h : bytes.length < 2 ^ 32) (b : Byte) :
    ftAt (freq bytes) b ≠ 0 ↔ b ∈ bytes := by
  rw [← BitVec.toNat_ne_iff_ne, ftAt_freq_toNat h, ← List.count_pos_iff]
  exact Nat.pos_iff_ne_zero.symm

/-- R142 (d): also past the width of a count, since the counters wrap alike. -/
theorem ftAt_freq_append (xs ys : List Byte) (b : Byte) :
    ftAt (freq (xs ++ ys)) b = ftAt (freq xs) b + ftAt (freq ys) b := by
  simp only [ftAt_freq, List.count_append, BitVec.ofNat_add]

/-- R142 (e). -/
theorem freq_perm {xs ys : List Byte} (h : xs.Perm ys) : freq xs = freq ys :=
  ft_ext fun b => by rw [ftAt_freq, ftAt_freq, h.count_eq]

/-- Settles O24: R142 (a), (b), (d) and (e) as above; no symbol occurs in the empty list (c). -/
theorem frequencyLaws : Obligations.FrequencyLaws :=
  ⟨fun _ h => ⟨totalCount_freq h, ftAt_freq_ne_zero h⟩, ftAt_freq [], ftAt_freq_append,
    fun _ _ => freq_perm⟩

end Sys2Proof.Machine

namespace Sys2Proof.Machine

/-! ### TREE: which slots are used -/

theorem presentSymbols_eq_nil {t : FreqTable} : presentSymbols t = [] ↔ ∀ b, ftAt t b = 0 := by
  constructor
  · intro h b
    by_contra h0
    simpa [h] using mem_present_iff.mpr h0
  · intro h
    obtain rfl : t = Vector.replicate 256 0 := ft_ext fun b => (h b).trans (ftAt_empty b).symm
    exact presentSymbols_empty

theorem madeNodes_of_nil {t : FreqTable} (h : presentSymbols t = []) : madeNodes t = [] := by
  have hf : forest t = [] := List.eq_nil_of_length_eq_zero (by rw [forest_length, h]; rfl)
  have hq : seedQ t = [] := List.eq_nil_of_length_eq_zero (by rw [seedQ_length, h]; rfl)
  rw [madeNodes, hf, hq]
  rfl

/-- A table with a present symbol has a tree. -/
theorem rootTree_of_ne_nil {t : FreqTable} (h : presentSymbols t ≠ []) :
    ∃ r, rootTree t = some r := by
  refine rootTree_some fun e => h (List.eq_nil_of_length_eq_zero ?_)
  rw [← tree_nsym, e]
  rfl

theorem rootTree_of_mem {t : FreqTable} {c : HTree} (hc : c ∈ madeNodes t) :
    ∃ r, rootTree t = some r :=
  rootTree_of_ne_nil fun e => by simp [madeNodes_of_nil e] at hc

/-- R157: one Internal node fewer than symbols, none for the empty table. -/
theorem length_madeNodes (t : FreqTable) :
    (madeNodes t).length = (presentSymbols t).length - 1 := by
  by_cases h : presentSymbols t = []
  · rw [madeNodes_of_nil h, h]; rfl
  · obtain ⟨r, hr⟩ := rootTree_of_ne_nil h
    exact madeNodes_length hr

/-- R157: the `k`-th created node has id `256 + k`. -/
theorem id_madeNodes {t : FreqTable} {k : Nat} (hk : k < (madeNodes t).length) :
    ((madeNodes t)[k]).id = 256 + k := by
  obtain ⟨r, hr⟩ := rootTree_of_mem (List.getElem_mem hk)
  exact madeNodes_id hr hk

theorem used_internal_iff (t : FreqTable) {k : Nat} (hk : k < 255) :
    (tree t).used (256 + k) ↔ k < (madeNodes t).length := by
  by_cases h : presentSymbols t = []
  · simp [Tree.used, nodeAt_internal t hk, madeNodes_of_nil h, Node.unused]
  · obtain ⟨r, hr⟩ := rootTree_of_ne_nil h
    exact (used_internal hr hk).1

/-- R42: a slot that is not used is as R42 says, weight 0 and both children 511. -/
theorem nodeAt_of_not_used {t : FreqTable} {i : Nat} (hi : i < 511) (hu : ¬ (tree t).used i) :
    nodeAt (tree t).node i = Node.unused := by
  by_cases h : i < 256
  · have h0 : t[i] = 0 := not_not.mp fun e => hu ((used_leaf t h).mpr e)
    rw [nodeAt_leaf t h, h0]
    rfl
  · obtain ⟨k, rfl⟩ := Nat.exists_eq_add_of_le (Nat.le_of_not_lt h)
    have hk : k < 255 := by omega
    rw [nodeAt_internal t hk, dif_neg fun e => hu ((used_internal_iff t hk).mpr e)]

/-- The ids of the tree's nodes: the present symbols, then the created nodes (R42, R157). -/
def nodeIds (t : FreqTable) : List Nat :=
  (presentSymbols t).map Prod.snd ++ (madeNodes t).map HTree.id

theorem ftAt_ofNat (t : FreqTable) {i : Nat} (h : i < 256) : ftAt t (BitVec.ofNat 8 i) = t[i] := by
  simp [ftAt, Nat.mod_eq_of_lt h]

theorem used_leaf_iff_mem (t : FreqTable) {i : Nat} (h : i < 256) :
    (tree t).used i ↔ i ∈ (presentSymbols t).map Prod.snd := by
  have hm := mem_present_iff (t := t) (b := BitVec.ofNat 8 i)
  rw [ftAt_ofNat t h, BitVec.toNat_ofNat, Nat.mod_eq_of_lt h] at hm
  rw [hm, used_leaf t h]

/-- R157: the created nodes have the ids from 256 on. -/
theorem madeIds_eq (t : FreqTable) : (madeNodes t).map HTree.id =
    (List.range (madeNodes t).length).map (fun k => 256 + k) :=
  List.ext_getElem (by simp) fun k hk _ => by
    rw [List.getElem_map, id_madeNodes (by simpa using hk)]
    simp

theorem le_of_mem_madeIds {t : FreqTable} {i : Nat} (h : i ∈ (madeNodes t).map HTree.id) :
    256 ≤ i := by
  rw [madeIds_eq, List.mem_map] at h
  obtain ⟨k, _, rfl⟩ := h
  exact Nat.le_add_right 256 k

theorem lt_of_mem_presentIds {t : FreqTable} {i : Nat}
    (h : i ∈ (presentSymbols t).map Prod.snd) : i < 256 := by
  obtain ⟨⟨w, j⟩, hm, rfl⟩ := List.mem_map.mp h
  exact (mem_presentSymbols.mp hm).1

theorem mem_madeIds {t : FreqTable} {k : Nat} :
    256 + k ∈ (madeNodes t).map HTree.id ↔ k < (madeNodes t).length := by
  simp [madeIds_eq]

/-- A slot is used exactly if it is the id of a node of the tree. -/
theorem used_iff_mem_nodeIds (t : FreqTable) {i : Nat} (hi : i < 511) :
    (tree t).used i ↔ i ∈ nodeIds t := by
  rw [nodeIds, List.mem_append]
  by_cases h : i < 256
  · rw [used_leaf_iff_mem t h, or_iff_left fun e => by have := le_of_mem_madeIds e; omega]
  · obtain ⟨k, rfl⟩ := Nat.exists_eq_add_of_le (Nat.le_of_not_lt h)
    rw [used_internal_iff t (by omega), mem_madeIds,
      or_iff_right fun e => by have := lt_of_mem_presentIds e; omega]

theorem madeIds_nodup (t : FreqTable) : ((madeNodes t).map HTree.id).Nodup := by
  rw [madeIds_eq]
  exact List.nodup_range.map fun _ _ => Nat.add_left_cancel

theorem nodeIds_nodup (t : FreqTable) : (nodeIds t).Nodup :=
  List.nodup_append.mpr ⟨present_nodup t, madeIds_nodup t, fun a ha b hb => by
    have := lt_of_mem_presentIds ha
    have := le_of_mem_madeIds hb
    omega⟩

/-! ### TREE: the used internal slots -/

theorem mem_madeNodes_stored {t : FreqTable} {c : HTree} (hc : c ∈ madeNodes t) :
    c.Stored (tree t).node := by
  obtain ⟨r, hr⟩ := rootTree_of_mem hc
  exact (tree_stored hr).2 c hc

theorem mem_madeNodes_weight {t : FreqTable} {c : HTree} (hc : c ∈ madeNodes t) :
    c.weight < 2 ^ 40 := by
  obtain ⟨r, hr⟩ := rootTree_of_mem hc
  exact (madeNodes_weight hr c hc).2

/-- R151: the `k`-th created node joins two others. -/
theorem getElem_madeNodes_join {t : FreqTable} {k : Nat} (hk : k < (madeNodes t).length) :
    ∃ l r, (madeNodes t)[k] = HTree.join k l r := by
  have hid := id_madeNodes hk
  have hs := mem_madeNodes_stored (List.getElem_mem hk)
  cases hc : (madeNodes t)[k] with
  | leaf s w =>
    rw [hc] at hid hs
    obtain ⟨hsym, _⟩ := hs
    rw [HTree.id_leaf] at hid
    omega
  | join k' l r =>
    rw [hc] at hid
    obtain rfl : k' = k := Nat.add_left_cancel hid
    exact ⟨l, r, rfl⟩

/-- A used internal slot is that of a created node. -/
theorem exists_join_of_used {t : FreqTable} {i : Nat} (h : 256 ≤ i) (hi : i < 511)
    (hu : (tree t).used i) : ∃ k l r, i = 256 + k ∧ HTree.join k l r ∈ madeNodes t := by
  obtain ⟨k, rfl⟩ := Nat.exists_eq_add_of_le h
  have hk := (used_internal_iff t (by omega)).mp hu
  obtain ⟨l, r, hc⟩ := getElem_madeNodes_join hk
  exact ⟨k, l, r, rfl, hc ▸ List.getElem_mem hk⟩

/-- R158: a stored tree's weight loses no bit below 40 bits. -/
theorem HTree.Stored.weight_toNat {n : NodeStore} {x : HTree} (h : x.Stored n)
    (hw : x.weight < 2 ^ 40) : (nodeAt n x.id).w.toNat = x.weight := by
  rw [h.weight_eq, BitVec.toNat_ofNat, Nat.mod_eq_of_lt hw]

/-- The two children of a created node, with their weights in the node store. -/
theorem children_weight {t : FreqTable} {k : Nat} {l r : HTree}
    (hm : HTree.join k l r ∈ madeNodes t) :
    (nodeAt (tree t).node l.id).w.toNat = l.weight ∧
      (nodeAt (tree t).node r.id).w.toNat = r.weight := by
  obtain ⟨_, _, hl, hr⟩ := mem_madeNodes_stored hm
  have hw : l.weight + r.weight < 2 ^ 40 := mem_madeNodes_weight hm
  exact ⟨hl.weight_toNat (by omega), hr.weight_toNat (by omega)⟩

/-- R161: the slot of a created node holds the sum of its children's weights. -/
theorem join_weight {t : FreqTable} {k : Nat} {l r : HTree}
    (hm : HTree.join k l r ∈ madeNodes t) :
    (nodeAt (tree t).node (256 + k)).w.toNat = (nodeAt (tree t).node l.id).w.toNat +
      (nodeAt (tree t).node r.id).w.toNat := by
  rw [(children_weight hm).1, (children_weight hm).2]
  exact (mem_madeNodes_stored hm).weight_toNat (mem_madeNodes_weight hm)

theorem isChild_join_iff {t : FreqTable} {k c : Nat} {l r : HTree}
    (hm : HTree.join k l r ∈ madeNodes t) :
    (tree t).isChild c (256 + k) ↔ c ∈ (HTree.join k l r).childIds := by
  have hs := mem_madeNodes_stored hm
  rw [Tree.isChild, hs.left, hs.right]
  simp [HTree.childIds, eq_comm]

/-- R43 (c), R160: the children of the created nodes, and the root, are the nodes of the tree. -/
theorem childIds_perm {t : FreqTable} {r : HTree} (h : rootTree t = some r) :
    ((madeNodes t).flatMap HTree.childIds ++ [r.id]).Perm (nodeIds t) :=
  (build_childIds (forest_fuel t) h).trans ((forest_ids t).append_right _)

/-- R43 (c): no node is a child twice. -/
theorem childIds_nodup (t : FreqTable) : ((madeNodes t).flatMap HTree.childIds).Nodup := by
  by_cases h : presentSymbols t = []
  · simp [madeNodes_of_nil h]
  · obtain ⟨r, hr⟩ := rootTree_of_ne_nil h
    exact ((childIds_perm hr).nodup_iff.mpr (nodeIds_nodup t)).of_append_left

/-- Two created nodes that share a child are one. -/
theorem parent_unique {t : FreqTable} {a b : HTree} {c : Nat} (ha : a ∈ madeNodes t)
    (hb : b ∈ madeNodes t) (hca : c ∈ a.childIds) (hcb : c ∈ b.childIds) : a = b := by
  by_contra hne
  have hdisjoint := (List.nodup_flatMap.mp (childIds_nodup t)).2
  have hsymm : Std.Symm (Function.onFun List.Disjoint HTree.childIds) := ⟨fun _ _ h => h.symm⟩
  exact hdisjoint.forall ha hb hne hca hcb

/-- A child of a created node is a used slot. -/
theorem child_used {t : FreqTable} {a : HTree} {c : Nat} (ha : a ∈ madeNodes t)
    (hc : c ∈ a.childIds) (hlt : c < 511) : (tree t).used c := by
  obtain ⟨r, hr⟩ := rootTree_of_mem ha
  rw [used_iff_mem_nodeIds t hlt, ← (childIds_perm hr).mem_iff]
  exact List.mem_append_left _ (List.mem_flatMap.mpr ⟨a, ha, hc⟩)

/-! ### TREE: the shape of R43 -/

/-- R155: without a present symbol the tree is the empty sentinel. -/
theorem tree_of_nil {t : FreqTable} (h : presentSymbols t = []) :
    tree t = ⟨Vector.replicate 511 Node.unused, 511, 0⟩ := by
  obtain rfl : t = Vector.replicate 256 0 :=
    ft_ext fun b => (presentSymbols_eq_nil.mp h b).trans (ftAt_empty b).symm
  exact tree_empty

/-- R156: with one present symbol its leaf is the only used slot, and the root. -/
theorem tree_of_singleton {t : FreqTable} {w s : Nat} (h : presentSymbols t = [(w, s)]) :
    (tree t).root.toNat = s ∧ ∀ i < 511, ((tree t).used i ↔ i = s) := by
  have hmade : madeNodes t = [] :=
    List.eq_nil_of_length_eq_zero (by rw [length_madeNodes, h]; rfl)
  refine ⟨tree_root (leafCodes_lone h).1, fun i hi => ?_⟩
  rw [used_iff_mem_nodeIds t hi, nodeIds, h, hmade]
  simp

/-- R43 (c): the used leaf slots are those of the present symbols. -/
theorem usedLeaves_length (t : FreqTable) :
    ((List.range 256).filter (fun i => (nodeAt (tree t).node i).w ≠ 0)).length =
      (tree t).nsym.toNat := by
  have hperm : ((List.range 256).filter (fun i => (nodeAt (tree t).node i).w ≠ 0)).Perm
      ((presentSymbols t).map Prod.snd) := by
    refine (List.perm_ext_iff_of_nodup (List.nodup_range.filter _) (present_nodup t)).mpr
      fun i => ?_
    rw [List.mem_filter, List.mem_range, decide_eq_true_iff]
    constructor
    · rintro ⟨hi, hu⟩
      exact (used_leaf_iff_mem t hi).mp hu
    · intro hm
      have hi := lt_of_mem_presentIds hm
      exact ⟨hi, (used_leaf_iff_mem t hi).mpr hm⟩
  rw [hperm.length_eq, List.length_map, tree_nsym]

/-- R43 (c): the root of two or more symbols is the last node created. -/
theorem root_eq_last {t : FreqTable} (h : 2 ≤ (tree t).nsym.toNat) :
    (tree t).root.toNat = 254 + (tree t).nsym.toNat := by
  rw [tree_nsym] at h ⊢
  obtain ⟨r, hr⟩ := rootTree_of_ne_nil (t := t) fun e => by simp [e] at h
  have hlen := length_madeNodes t
  have hlast : (madeNodes t).getLast? = some r := by
    refine (build_last (forest_fuel t) hr).resolve_left fun ⟨hnil, _⟩ => ?_
    have : (madeNodes t).length = 0 := congrArg List.length hnil
    omega
  rw [List.getLast?_eq_getElem?] at hlast
  obtain ⟨hlt, he⟩ := List.getElem?_eq_some_iff.mp hlast
  rw [tree_root hr, ← he, id_madeNodes hlt]
  omega

/-- R43 (c), R160: the children of a used internal slot. -/
theorem tree_children {t : FreqTable} {i : Nat} (h : 256 ≤ i) (hi : i < 511)
    (hu : (tree t).used i) :
    let n := nodeAt (tree t).node i
    n.l ≠ n.r ∧ n.l.toNat < i ∧ n.r.toNat < i ∧ (tree t).used n.l.toNat ∧
      (tree t).used n.r.toNat ∧ n.w.toNat = (nodeAt (tree t).node n.l.toNat).w.toNat +
        (nodeAt (tree t).node n.r.toNat).w.toNat := by
  obtain ⟨k, l, r, rfl, hm⟩ := exists_join_of_used h hi hu
  have hs := mem_madeNodes_stored hm
  obtain ⟨root, hroot⟩ := rootTree_of_mem hm
  have hlt : ∀ c ∈ [l.id, r.id], c < 256 + k := madeNodes_childIds_lt hroot _ hm
  have hl := hlt l.id (by simp)
  have hr := hlt r.id (by simp)
  have hne : [l.id, r.id].Nodup := (List.nodup_flatMap.mp (childIds_nodup t)).1 _ hm
  dsimp only
  refine ⟨fun e => ?_, ?_⟩
  · have he := congrArg BitVec.toNat e
    rw [hs.left, hs.right] at he
    simp [he] at hne
  · rw [hs.left, hs.right]
    exact ⟨hl, hr, child_used hm (by simp [HTree.childIds]) (by omega),
      child_used hm (by simp [HTree.childIds]) (by omega), join_weight hm⟩

/-- R43 (c): every used node but the root has exactly one parent. -/
theorem tree_owned {t : FreqTable} {c : Nat} (hc : c < 511) (hu : (tree t).used c)
    (hroot : c ≠ (tree t).root.toNat) :
    ∃ i, 256 ≤ i ∧ i < 511 ∧ (tree t).used i ∧ (tree t).isChild c i ∧
      ∀ j, 256 ≤ j → j < 511 → (tree t).used j → (tree t).isChild c j → j = i := by
  have hid := (used_iff_mem_nodeIds t hc).mp hu
  obtain ⟨r, hr⟩ := rootTree_of_ne_nil (t := t) fun e => by
    simp [nodeIds, e, madeNodes_of_nil e] at hid
  rw [← (childIds_perm hr).mem_iff, List.mem_append, List.mem_singleton,
    or_iff_left (tree_root hr ▸ hroot), List.mem_flatMap] at hid
  obtain ⟨a, ha, hca⟩ := hid
  obtain ⟨k, hk, rfl⟩ := List.getElem_of_mem ha
  obtain ⟨l, r', hjoin⟩ := getElem_madeNodes_join hk
  rw [hjoin] at ha hca
  have hlt := (mem_madeNodes_stored ha).id_lt
  rw [HTree.id_join] at hlt
  refine ⟨256 + k, by omega, hlt, (used_internal_iff t (by omega)).mpr hk,
    (isChild_join_iff ha).mpr hca, fun j hj hj' hju hjc => ?_⟩
  obtain ⟨k', x, y, rfl, hm⟩ := exists_join_of_used hj hj' hju
  exact congrArg HTree.id (parent_unique hm ha ((isChild_join_iff hm).mp hjc) hca)

/-- R43: what TREE leaves, for every table. -/
theorem tree_shaped (t : FreqTable) : (tree t).Shaped where
  empty h := by
    rw [tree_of_nil (List.eq_nil_of_length_eq_zero ((tree_nsym t).symm.trans h))]
    exact ⟨rfl, fun i hi => by rw [nodeAt_lt hi, Vector.getElem_replicate]⟩
  lone h := by
    obtain ⟨⟨w, s⟩, hp⟩ := List.length_eq_one_iff.mp ((tree_nsym t).symm.trans h)
    obtain ⟨hroot, hused⟩ := tree_of_singleton hp
    have hs : s < 256 := lt_of_mem_presentIds (t := t) (by simp [hp])
    rw [hroot]
    exact ⟨hs, (hused s (by omega)).mpr rfl,
      fun i hi hne => nodeAt_of_not_used hi (mt (hused i hi).mp hne)⟩
  leaf i hi := by rw [nodeAt_leaf t hi]; exact ⟨rfl, rfl⟩
  leaves := usedLeaves_length t
  internal h i hlo hi := by
    obtain ⟨k, rfl⟩ := Nat.exists_eq_add_of_le hlo
    have hu := used_internal_iff t (k := k) (by omega)
    rw [length_madeNodes, ← tree_nsym] at hu
    split
    · exact hu.mpr (by omega)
    · exact nodeAt_of_not_used hi (mt hu.mp (by omega))
  rootLast := root_eq_last
  children _ := tree_children
  owned _ := tree_owned

/-- R153, R154: the left child of a used internal slot precedes the right one. -/
theorem tree_leftFirst {t : FreqTable} {i : Nat} (h : 256 ≤ i) (hi : i < 511)
    (hu : (tree t).used i) :
    let l := (nodeAt (tree t).node i).l.toNat
    let r := (nodeAt (tree t).node i).r.toNat
    (nodeAt (tree t).node l).w.toNat < (nodeAt (tree t).node r).w.toNat ∨
      ((nodeAt (tree t).node l).w.toNat = (nodeAt (tree t).node r).w.toNat ∧ l < r) := by
  obtain ⟨k, l, r, rfl, hm⟩ := exists_join_of_used h hi hu
  obtain ⟨root, hroot⟩ := rootTree_of_mem hm
  have hs := mem_madeNodes_stored hm
  obtain ⟨hl, hr⟩ := children_weight hm
  dsimp only
  rw [hs.left, hs.right, hl, hr]
  exact (before_iff l.item r.item).mp (madeNodes_leftFirst hroot _ hm)

/-- R42, R152: a leaf slot weighs its symbol's count. -/
theorem leaf_weight (t : FreqTable) (b : Byte) :
    (nodeAt (tree t).node b.toNat).w.toNat = (ftAt t b).toNat := by
  have hlt := (ftAt t b).isLt
  rw [nodeAt_leaf t b.isLt, leafNode, BitVec.toNat_setWidth]
  exact Nat.mod_eq_of_lt (by omega)

/-- Settles O25: TREE leaves `tree FT`, whose internal slots are the nodes the loop creates. -/
theorem treeBuildsAShapedTree : Obligations.TreeBuildsAShapedTree := fun s =>
  ⟨tree s.ft, execTree_eq s, tree_shaped s.ft, leaf_weight s.ft, fun _ => tree_leftFirst⟩

/-! ### TREE: the weights -/

/-- R161: the root weighs the sum of all counts. -/
theorem root_weight {t : FreqTable} (h : (tree t).nsym ≠ 0) :
    (nodeAt (tree t).node (tree t).root.toNat).w.toNat = totalCount t := by
  obtain ⟨r, hr⟩ := rootTree_some h
  have hw := rootTree_weight hr
  rw [tree_root hr, (tree_stored hr).1.weight_toNat (hw ▸ totalCount_lt t), hw]

theorem internal_weight {t : FreqTable} {k : Nat} (hk : k < (madeNodes t).length) :
    (nodeAt (tree t).node (256 + k)).w.toNat = ((madeNodes t)[k]).weight := by
  have hm := List.getElem_mem hk
  rw [← id_madeNodes hk]
  exact (mem_madeNodes_stored hm).weight_toNat (mem_madeNodes_weight hm)

/-- R163: the weights never decrease in creation order. -/
theorem madeNodes_ascending (t : FreqTable) : Ascending (madeNodes t) := by
  by_cases h : presentSymbols t = []
  · rw [madeNodes_of_nil h]; exact List.Pairwise.nil
  · obtain ⟨r, hr⟩ := rootTree_of_ne_nil h
    exact build_ascending (forest_fuel t) hr (forest_ascending t)

/-- Settles O26: the created nodes' weights, read back from the node store without loss (R158). -/
theorem weightLaws : Obligations.WeightLaws := by
  intro t
  refine ⟨fun i h hi hu => ?_, root_weight, fun i h hi hu => ?_⟩
  · obtain ⟨-, -, -, -, -, hsum⟩ := tree_children h hi hu
    exact hsum
  · obtain ⟨k, rfl⟩ := Nat.exists_eq_add_of_le h
    have hk : k + 1 < (madeNodes t).length := (used_internal_iff t (by omega)).mp hu
    rw [Nat.add_assoc, internal_weight hk, internal_weight (by omega)]
    exact List.pairwise_iff_getElem.mp (madeNodes_ascending t) k (k + 1) _ hk (Nat.lt_succ_self k)

/-- R156: only `b` is present. -/
theorem presentIds_lone {t : FreqTable} {b : Byte} (hb : ftAt t b ≠ 0)
    (h : ∀ c, c ≠ b → ftAt t c = 0) : (presentSymbols t).map Prod.snd = [b.toNat] := by
  refine List.perm_singleton.mp ((List.perm_ext_iff_of_nodup (present_nodup t)
    (List.nodup_singleton _)).mpr fun i => ?_)
  rw [List.mem_singleton]
  constructor
  · intro hm
    obtain ⟨c, rfl⟩ : ∃ c : Byte, c.toNat = i :=
      ⟨BitVec.ofNat 8 i, Nat.mod_eq_of_lt (lt_of_mem_presentIds hm)⟩
    exact congrArg BitVec.toNat (not_not.mp (mt (h c) (mem_present_iff.mp hm)))
  · rintro rfl
    exact mem_present_iff.mpr hb

/-- Settles O27: no symbol leaves no node, one symbol its leaf as the only node. -/
theorem emptyTableAndLoneSymbol : Obligations.EmptyTableAndLoneSymbol := by
  refine ⟨fun t h => tree_of_nil (presentSymbols_eq_nil.mpr h), fun t b hb h => ?_⟩
  obtain ⟨⟨w, s⟩, hp, hs : s = b.toNat⟩ := List.map_eq_singleton_iff.mp (presentIds_lone hb h)
  subst hs
  obtain ⟨hroot, hused⟩ := tree_of_singleton hp
  refine ⟨BitVec.eq_of_toNat_eq (by rw [tree_nsym, hp]; rfl), hroot, fun i hi => ?_⟩
  split
  · next he => rw [he, nodeAt_leaf t b.isLt]; rfl
  · next hne => exact nodeAt_of_not_used hi (mt (hused i hi).mp hne)

/-! ### TREE: the priority collection -/

/-- The collection stands in the canonical order (R153); `Ordered` says it of trees. -/
def Canonical (q : List QItem) : Prop := q.Pairwise (fun a b => QItem.before a b = true)

theorem canonical_iff (q : List QItem) :
    Canonical q ↔ q.Pairwise (fun a b => a.1 < b.1 ∨ (a.1 = b.1 ∧ a.2 < b.2)) := by
  simp only [Canonical, before_iff]

theorem canonical_map_item (q : List HTree) : Canonical (q.map HTree.item) ↔ Ordered q :=
  List.pairwise_map

/-- A collection of pairs is the collection of the leaves with those weights and ids. -/
theorem map_item_map_seedLeaf (q : List QItem) : (q.map seedLeaf).map HTree.item = q :=
  (List.map_map).trans (List.map_id q)

theorem insertQ_eq_plant (x : QItem) (q : List QItem) :
    insertQ x q = (plant (seedLeaf x) (q.map seedLeaf)).map HTree.item := by
  rw [← insertQ_item, map_item_map_seedLeaf]
  rfl

/-- R153: inserting adds the member and nothing else. -/
theorem insertQ_perm (x : QItem) (q : List QItem) : (insertQ x q).Perm (x :: q) := by
  have h := (plant_perm (seedLeaf x) (q.map seedLeaf)).map HTree.item
  rwa [← insertQ_eq_plant, List.map_cons, map_item_map_seedLeaf] at h

/-- R153: inserting a member with an id of its own keeps the canonical order. -/
theorem insertQ_canonical {x : QItem} {q : List QItem} (h : Canonical q)
    (hid : ∀ y ∈ q, y.2 ≠ x.2) : Canonical (insertQ x q) := by
  rw [insertQ_eq_plant, canonical_map_item]
  rw [← map_item_map_seedLeaf q, canonical_map_item] at h
  refine plant_ordered h fun y hy => ?_
  obtain ⟨z, hz, rfl⟩ := List.mem_map.mp hy
  exact hid z hz

/-- R152: the seeds are the present symbols with their counts. -/
theorem seedQ_perm (t : FreqTable) : (seedQ t).Perm (presentSymbols t) := by
  have h := (forest_perm t).map HTree.item
  rwa [forest_item, map_item_map_seedLeaf] at h

theorem seedQ_canonical (t : FreqTable) : Canonical (seedQ t) := by
  rw [← forest_item, canonical_map_item]
  exact forest_ordered t

theorem mem_seedQ {t : FreqTable} {w i : Nat} :
    (w, i) ∈ seedQ t ↔ i < 256 ∧ w = (ftAt t (BitVec.ofNat 8 i)).toNat ∧ w ≠ 0 := by
  rw [(seedQ_perm t).mem_iff, mem_presentSymbols, ← exists_prop]
  exact exists_congr fun h => by rw [ftAt_ofNat t h]

/-- R151: the internal slots are the created nodes in creation order, then unused slots. -/
theorem nodeAt_internal_getD (t : FreqTable) {k : Nat} (hk : k < 255) :
    nodeAt (tree t).node (256 + k) =
      (mergeLoop (seedQ t).length 0 (seedQ t)).1.getD k Node.unused := by
  rw [nodeAt_lt (by omega), tree, getElem_padTo, List.getD_append_right _ _ _ _ (by simp)]
  simp

/-- Settles O28: `insertQ` on the canonical order, the rounds of `mergeLoop`, and the seeds. -/
theorem priorityCollectionKeepsTheCanonicalOrder :
    Obligations.PriorityCollectionKeepsTheCanonicalOrder := by
  unfold Obligations.PriorityCollectionKeepsTheCanonicalOrder
  simp only [← canonical_iff]
  refine ⟨fun x q hq hid => ⟨insertQ_canonical hq hid, insertQ_perm x q⟩,
    fun fuel k a b q hq hid => ?_, fun fuel k r => ?_, fun t => ?_⟩
  · have hnew : ∀ y ∈ q, y.2 ≠ 256 + k := fun y hy => Nat.ne_of_lt (hid y (by simp [hy]))
    exact ⟨insertQ (a.1 + b.1, 256 + k) q, insertQ_canonical hq.tail.tail hnew,
      insertQ_perm _ q, rfl⟩
  · cases fuel <;> exact ⟨rfl, rfl⟩
  · exact ⟨seedQ_canonical t, fun w i => mem_seedQ, rfl, fun k hk => nodeAt_internal_getD t hk⟩

end Sys2Proof.Machine

namespace Sys2Proof.Machine

/-! ### BOOK: the pairs (symbol, code) -/

/-- R174: a tree without symbols has no codes. -/
theorem leafCodes_of_nsym_zero {n : Tree} (h : n.nsym = 0) : leafCodes n = [] := by
  rw [leafCodes, if_pos h]

/-- R173: a lone leaf has the code "0". -/
theorem leafCodes_of_nsym_one {n : Tree} (h : n.nsym = 1) :
    leafCodes n = [(n.root.toNat, [false])] := by
  rw [leafCodes, if_neg (by rw [h]; decide), if_pos h]

/-- R171, R172: with two or more symbols the codes are those of the tree below ROOT. -/
theorem exists_leafCodes_eq {t : FreqTable} (h : 2 ≤ (tree t).nsym.toNat) :
    ∃ r, rootTree t = some r ∧ leafCodes (tree t) = r.codes [] := by
  have h0 : (tree t).nsym ≠ 0 := fun e => by simp [e] at h
  obtain ⟨r, hr⟩ := rootTree_some h0
  exact ⟨r, hr, leafCodes_tree hr h⟩

/-- R172: one code per present symbol. -/
theorem leafCodes_length_eq_nsym (t : FreqTable) :
    (leafCodes (tree t)).length = (tree t).nsym.toNat := by
  have h := (leafCodes_symbols t).length_eq
  rwa [List.length_map, List.length_map, ← tree_nsym] at h

/-- R176, over the pairs; with at most one pair there is nothing to compare. -/
theorem leafCodes_prefix_free (t : FreqTable) :
    (leafCodes (tree t)).Pairwise (fun x y => ¬ x.2 <+: y.2 ∧ ¬ y.2 <+: x.2) := by
  by_cases h : 2 ≤ (tree t).nsym.toNat
  · obtain ⟨r, -, hr⟩ := exists_leafCodes_eq h
    rw [hr]
    exact r.codes_prefix_free []
  · rw [← leafCodes_length_eq_nsym] at h
    exact List.pairwise_iff_getElem.mpr fun i j hi hj hij => by omega

/-- R176, for the pairs of two different symbols, in whichever order they stand. -/
theorem leafCodes_not_prefix {t : FreqTable} {x y : Nat × Code} (hx : x ∈ leafCodes (tree t))
    (hy : y ∈ leafCodes (tree t)) (hne : x.1 ≠ y.1) : ¬ x.2 <+: y.2 := by
  have : Std.Symm fun x y : Nat × Code => ¬ x.2 <+: y.2 ∧ ¬ y.2 <+: x.2 := ⟨fun _ _ => And.symm⟩
  exact ((leafCodes_prefix_free t).forall hx hy fun e => hne (congrArg Prod.fst e)).1

/-- R177, over the pairs: the tree's depth is at most 255, so the codes divide the unit `2^255`. -/
theorem leafCodes_space {t : FreqTable} (h : 2 ≤ (tree t).nsym.toNat) :
    ((leafCodes (tree t)).map (fun e => 2 ^ (255 - e.2.length))).sum = 2 ^ 255 := by
  obtain ⟨r, hr, hc⟩ := exists_leafCodes_eq h
  have hdepth := rootTree_depth hr
  have hpresent := presentSymbols_length t
  rw [hc]
  exact r.codes_space [] 255 (by rw [List.length_nil]; omega)

/-- R172: a code leads from the root to the leaf of its symbol. -/
theorem follow_leafCodes {t : FreqTable} (h : 2 ≤ (tree t).nsym.toNat) :
    ∀ e ∈ leafCodes (tree t), follow (tree t).node (tree t).root.toNat e.2 = e.1 := by
  obtain ⟨r, hr, hc⟩ := exists_leafCodes_eq h
  rw [hc, tree_root hr]
  exact (tree_stored hr).1.follow

/-! ### BOOK: the codebook -/

/-- R171: an entry of the codebook is the code of the symbol's pair. -/
theorem cbAt_book_lookup (n : Tree) (b : Byte) :
    cbAt (book n) b = ((leafCodes n).lookup b.toNat).getD [] := by
  simp [cbAt, book]

theorem cbAt_book_of_nsym_zero {n : Tree} (h : n.nsym = 0) (b : Byte) : cbAt (book n) b = [] := by
  rw [cbAt_book_lookup, leafCodes_of_nsym_zero h]
  rfl

theorem cbAt_book_of_nsym_one {n : Tree} (h : n.nsym = 1) (b : Byte) :
    cbAt (book n) b = if n.root.toNat = b.toNat then [false] else [] := by
  rw [cbAt_book_lookup, leafCodes_of_nsym_one h]
  by_cases hb : n.root.toNat = b.toNat
  · simp [hb]
  · simp [List.lookup_cons, beq_eq_false_iff_ne.mpr (Ne.symm hb), hb]

/-- R175: exactly the present symbols have codes. -/
theorem cbAt_book_ne_nil_iff {t : FreqTable} {b : Byte} :
    cbAt (book (tree t)) b ≠ [] ↔ ftAt t b ≠ 0 :=
  ⟨mt cbAt_book_absent, cbAt_book_present⟩

theorem mem_leafCodes_of_coded {t : FreqTable} {b : Byte} (h : cbAt (book (tree t)) b ≠ []) :
    (b.toNat, cbAt (book (tree t)) b) ∈ leafCodes (tree t) :=
  cbAt_book_mem (cbAt_book_ne_nil_iff.mp h)

/-- A sum over the codes in the codebook is the sum over the pairs. -/
theorem sum_book_codes (t : FreqTable) (f : Code → Nat) :
    (((symbols.map (cbAt (book (tree t)))).filter (fun c => c ≠ [])).map f).sum =
      ((leafCodes (tree t)).map (fun e => f e.2)).sum := by
  calc
    _ = ((symbols.map (cbAt (book (tree t)))).map (fun c => if c ≠ [] then f c else 0)).sum := by
      rw [List.sum_map_ite]
      simp
    _ = ((leafCodes (tree t)).map (fun e => if e.2 ≠ [] then f e.2 else 0)).sum := by
      rw [List.map_map]
      exact sum_symbols (fun _ c => if c ≠ [] then f c else 0) (fun _ => rfl)
    _ = _ := by
      refine congrArg List.sum (List.map_congr_left fun e he => if_pos ?_)
      have hlen := (leafCodes_length e he).1
      exact List.ne_nil_of_length_pos hlen

/-- Settles O30: the codes of two different symbols are those of two different leaves. -/
theorem bookIsPrefixFree : Obligations.BookIsPrefixFree := fun _ _ _ hne ha hb =>
  leafCodes_not_prefix (mem_leafCodes_of_coded ha) (mem_leafCodes_of_coded hb)
    (mt BitVec.eq_of_toNat_eq hne)

/-- Settles O31: each Internal node splits its part of the code space in two halves (R177); the
code "0" of a lone leaf leaves the other half of all of it unused. -/
theorem codesFillTheCodeSpace : Obligations.CodesFillTheCodeSpace := by
  intro t
  simp only [sum_book_codes]
  refine ⟨leafCodes_space, fun h => ?_⟩
  rw [leafCodes_of_nsym_one h, List.map_singleton, List.sum_singleton, List.length_singleton]

/-- Settles O29: BOOK leaves `book` of the tree it finds, whose codes are the pairs of `leafCodes`. -/
theorem bookGivesThePathToEachLeaf : Obligations.BookGivesThePathToEachLeaf := by
  refine fun s => ⟨book s.tree, execBook_eq s, cbAt_book_of_nsym_zero (n := s.tree),
    cbAt_book_of_nsym_one (n := s.tree), fun t ht b => ?_⟩
  obtain ⟨hnode, hroot, hnsym⟩ : s.node = (tree t).node ∧ s.root = (tree t).root ∧
      s.nsym = (tree t).nsym := (Tree.mk.injEq ..).mp ht
  rw [ht, hnode, hroot, hnsym]
  refine ⟨cbAt_book_ne_nil_iff, fun h2 hcode => ?_⟩
  have hmem := mem_leafCodes_of_coded hcode
  obtain ⟨-, -, hlen⟩ := leafCodes_length _ hmem
  exact ⟨follow_leafCodes h2 _ hmem, hlen h2⟩

end Sys2Proof.Machine

namespace Sys2Proof.Machine

/-! ### PACK (R180 to R183) -/

/-- R182: the bits and their padding fill whole bytes. -/
theorem length_add_padCount (n : Nat) : n + padCount n = 8 * ceil8 n := by
  unfold padCount ceil8
  omega

theorem padCount_lt (n : Nat) : padCount n < 8 := by
  unfold padCount
  omega

theorem pack_pad_toNat (bs : List Bool) : (pack bs).2.toNat = padCount bs.length :=
  (BitVec.toNat_ofNat ..).trans (Nat.mod_eq_of_lt (padCount_lt _))

theorem pack_pad_eq_zero_iff {bs : List Bool} : (pack bs).2 = 0 ↔ padCount bs.length = 0 := by
  rw [← pack_pad_toNat, BitVec.toNat_eq]
  rfl

/-- R181: the payload holds the bits in order, then the padding zeros. -/
theorem pack_bits (bs : List Bool) :
    (pack bs).1.flatMap byteBits = bs ++ List.replicate (pack bs).2.toNat false := by
  rw [pack_pad_toNat]
  exact packBytes_bits (by rw [List.length_append, List.length_replicate, length_add_padCount])

/-- R181: no other bytes and count do, as fewer than eight zeros fill up the last byte. -/
theorem pack_eq_of_bits {bytes : List Byte} {p : BitVec 3} {bs : List Bool}
    (h : bytes.flatMap byteBits = bs ++ List.replicate p.toNat false) : pack bs = (bytes, p) := by
  have hp := p.isLt
  have hlen : 8 * bytes.length = bs.length + p.toNat := by
    rw [← flatMap_byteBits_length, h, List.length_append, List.length_replicate]
  have hpad : padCount bs.length = p.toNat := by unfold padCount; omega
  have hceil : ceil8 bs.length = bytes.length := by unfold ceil8; omega
  refine Prod.ext ?_ (BitVec.eq_of_toNat_eq ((pack_pad_toNat bs).trans hpad))
  rw [pack, hpad, hceil, ← h]
  exact packBytes_flatMap bytes

/-- R183: bit `7 - k` of byte `j` is bit `8j + k` of the sequence, 0 past its end. -/
theorem pack_getLsbD {bs : List Bool} {j k : Nat} (hj : j < (pack bs).1.length) (hk : k < 8) :
    ((pack bs).1.getD j 0).getLsbD (7 - k) = bs.getD (8 * j + k) false := by
  have hbit := flatMap_byteBits_getD (pack bs).1 (i := 8 * j + k) (by omega)
  rw [pack_bits, show (8 * j + k) / 8 = j by omega, show (8 * j + k) % 8 = k by omega] at hbit
  rw [← hbit]
  by_cases hi : 8 * j + k < bs.length
  · rw [List.getD_append _ _ _ _ hi]
  · rw [pack_length] at hj
    have hlen := length_add_padCount bs.length
    rw [List.getD_append_right _ _ _ _ (by omega), pack_pad_toNat,
      List.getD_replicate _ (by omega), List.getD_eq_default _ _ (by omega)]

/-! ### UNPACK (R185, R186) -/

/-- R186: where UNPACK does not raise. -/
theorem unpack_eq_ok {bytes : List Byte} {p : BitVec 3} (h : bytes ≠ [] ∨ p = 0) :
    unpack bytes p = .ok ((bytes.flatMap byteBits).take (8 * bytes.length - p.toNat)) := by
  unfold unpack
  split
  case isTrue hnil =>
    rw [if_pos (h.resolve_left (not_not_intro hnil)), hnil, List.flatMap_nil, List.take_nil]
  case isFalse => rfl

/-- R186: where UNPACK raises. -/
theorem unpack_nil_of_pad {p : BitVec 3} (h : p ≠ 0) :
    unpack [] p = .error ⟨.formatError, .padNoPayload, 0⟩ := by
  rw [unpack, if_pos rfl, if_neg h]

/-! ### PACK and UNPACK after each other (R188, R189) -/

/-- R188: UNPACK drops exactly the zeros that PACK appended. -/
theorem unpack_pack (bs : List Bool) : unpack (pack bs).1 (pack bs).2 = .ok bs := by
  have hlen := length_add_padCount bs.length
  have hpad := pack_pad_toNat bs
  have hpay := pack_length bs
  have h : (pack bs).1 ≠ [] ∨ (pack bs).2 = 0 := by
    rw [or_iff_not_imp_left, not_not, pack_pad_eq_zero_iff]
    intro hnil
    rw [hnil, List.length_nil] at hpay
    omega
  rw [unpack_eq_ok h, pack_bits, List.take_left' (by omega)]

theorem clearLow_getLsbD (b : Byte) (p : Nat) {i : Nat} (hi : i < 8) :
    ((b >>> p) <<< p).getLsbD i = if p ≤ i then b.getLsbD i else false := by
  rw [BitVec.getLsbD_shiftLeft, BitVec.getLsbD_ushiftRight]
  split
  case isTrue h => simp [hi, h]
  case isFalse h => simp [Nat.lt_of_not_le h]

/-- Clearing the `p` lowest bits of a byte replaces its last `p` bits by zeros. -/
theorem byteBits_clearLow (b : Byte) {p : Nat} (hp : p ≤ 8) :
    byteBits ((b >>> p) <<< p) = (byteBits b).take (8 - p) ++ List.replicate p false := by
  have htake : ((byteBits b).take (8 - p)).length = 8 - p := by simp
  refine List.ext_getElem (by rw [List.length_append, htake]; simp; omega) fun k hk _ => ?_
  rw [byteBits_length] at hk
  rw [← List.getD_eq_getElem _ false, byteBits_getD _ hk, clearLow_getLsbD b p (by omega),
    List.getElem_append]
  by_cases h : k < 8 - p
  · rw [if_pos (by omega), dif_pos (by rwa [htake]), List.getElem_take,
      ← List.getD_eq_getElem _ false, byteBits_getD _ hk]
  · rw [if_neg (by omega), dif_neg (by rwa [htake]), List.getElem_replicate]

/-- R189: the bits that UNPACK keeps, padded again, are those of the payload with the padding bits
of its last byte cleared. -/
theorem pack_unpack {payload : List Byte} {p : BitVec 3} {bs : List Bool}
    (h : unpack payload p = .ok bs) : pack bs = (payload.dropLast ++
      payload.getLast?.toList.map (fun b : Byte => (b >>> p.toNat) <<< p.toNat), p) := by
  apply pack_eq_of_bits
  have hp := p.isLt
  rcases payload.eq_nil_or_concat' with rfl | ⟨init, last, rfl⟩
  · by_cases h0 : p = 0
    · subst h0; cases h; rfl
    · rw [unpack_nil_of_pad h0] at h; cases h
  · rw [unpack_eq_ok (.inl (by simp))] at h
    cases h
    have hkept : 8 * (init ++ [last]).length - p.toNat =
        (init.flatMap byteBits).length + (8 - p.toNat) := by
      rw [flatMap_byteBits_length, List.length_append, List.length_singleton]; omega
    rw [List.dropLast_concat, List.getLast?_concat, Option.toList_some, List.map_singleton, hkept,
      List.flatMap_append, List.flatMap_append, List.flatMap_singleton, List.flatMap_singleton,
      byteBits_clearLow last (by omega), List.take_length_add_append, List.append_assoc]

/-- Settles O35: the bytes hold the bits and the padding in order (`pack_bits`). -/
theorem packPlacesBitsMostSignificantFirst : Obligations.PackPlacesBitsMostSignificantFirst := by
  intro s
  have hlen := length_add_padCount s.bits.length
  have hpay := pack_length s.bits
  have hpad := pack_pad_toNat s.bits
  refine ⟨(pack s.bits).1, (pack s.bits).2, execPack_eq s, hpay, hpad, by omega, ?_, ?_,
    fun _ hj _ => pack_getLsbD hj⟩
  · rw [pack_pad_eq_zero_iff]
    omega
  · rw [Ne, pack_pad_eq_zero_iff]
    omega

/-- Settles O36: UNPACK answers as `unpack` does, which keeps a prefix of the payload's bits
(`unpack_eq_ok`) or raises (`unpack_nil_of_pad`). -/
theorem unpackDropsOnlyThePadding : Obligations.UnpackDropsOnlyThePadding := by
  intro s
  refine ⟨fun h => ⟨(s.pay.flatMap byteBits).take (8 * s.pay.length - s.pad.toNat), ?_, ?_, ?_⟩,
    fun hnil hpad => ?_⟩
  · exact (execUnpack_eq s).trans (by rw [unpack_eq_ok h])
  · rw [List.length_take, flatMap_byteBits_length, Nat.min_eq_left (Nat.sub_le _ _)]
  · intro i hi
    rw [List.length_take, flatMap_byteBits_length] at hi
    rw [← flatMap_byteBits_getD s.pay (by omega), List.getD_eq_getElem?_getD,
      List.getElem?_take_of_lt (by omega), List.getD_eq_getElem?_getD]
  · exact (execUnpack_eq s).trans (by rw [hnil, unpack_nil_of_pad hpad])

/-- Settles O37: UNPACK drops the zeros that PACK appended (`unpack_pack`), and PACK appends zeros
where UNPACK dropped the padding (`pack_unpack`). -/
theorem unpackInvertsPack : Obligations.UnpackInvertsPack := by
  refine ⟨unpack_pack, fun s t h => ?_, fun _ _ _ => pack_unpack⟩
  cases (execPack_eq s).symm.trans h
  exact (execUnpack_eq _).trans (by rw [unpack_pack])

end Sys2Proof.Machine

namespace Sys2Proof.Machine

/-! ### XLAT (R200 to R202) -/

/-- R200: a byte without a code raises NO_CODE, whatever room is left (R310). -/
theorem xlatFrom_uncoded {bitCap i len : Nat} {c : CodeBook} {b : Byte} (rest : List Byte)
    (h : cbAt c b = []) :
    xlatFrom bitCap c i len (b :: rest) = .error ⟨.usageError, .noCode, i⟩ := by
  simp [xlatFrom, h]

/-- R200: a code that would pass `BIT_CAP` raises BITS_FULL. -/
theorem xlatFrom_full {bitCap i len : Nat} {c : CodeBook} {b : Byte} (rest : List Byte)
    (h : cbAt c b ≠ []) (hfull : bitCap < len + (cbAt c b).length) :
    xlatFrom bitCap c i len (b :: rest) = .error ⟨.capacityError, .bitsFull, i⟩ := by
  simp [xlatFrom, h, hfull]

/-- R200: a code that fits is appended. -/
theorem xlatFrom_fits {bitCap i len : Nat} {c : CodeBook} {b : Byte} (rest : List Byte)
    (h : cbAt c b ≠ []) (hfit : len + (cbAt c b).length ≤ bitCap) :
    xlatFrom bitCap c i len (b :: rest) =
      (xlatFrom bitCap c (i + 1) (len + (cbAt c b).length) rest).map (cbAt c b ++ ·) := by
  have hlen : (cbAt c b).length ≠ 0 := mt List.length_eq_zero_iff.mp h
  simp only [xlatFrom, if_neg hlen, if_neg (Nat.not_lt.mpr hfit)]
  cases xlatFrom bitCap c (i + 1) (len + (cbAt c b).length) rest <;> rfl

/-- R200: bytes whose codes fit are translated one by one, and the loop goes on behind them. -/
theorem xlatFrom_append {bitCap : Nat} {c : CodeBook} {pre : List Byte} (post : List Byte) :
    ∀ {i len : Nat}, (∀ b ∈ pre, cbAt c b ≠ []) →
      len + (pre.flatMap (cbAt c)).length ≤ bitCap →
      xlatFrom bitCap c i len (pre ++ post) =
        (xlatFrom bitCap c (i + pre.length) (len + (pre.flatMap (cbAt c)).length) post).map
          (pre.flatMap (cbAt c) ++ ·) := by
  induction pre with
  | nil =>
    intro i len _ _
    cases h : xlatFrom bitCap c i len post <;> simp [h, Except.map]
  | cons b pre ih =>
    intro i len hcoded hfit
    obtain ⟨hb, hpre⟩ := List.forall_mem_cons.mp hcoded
    rw [List.flatMap_cons, List.length_append, ← Nat.add_assoc] at hfit
    rw [List.cons_append, xlatFrom_fits _ hb (by omega), ih hpre hfit, List.flatMap_cons,
      List.length_append, List.length_cons, Nat.add_assoc i, Nat.add_comm 1, Nat.add_assoc len]
    cases xlatFrom bitCap c (i + (pre.length + 1))
      (len + ((cbAt c b).length + (pre.flatMap (cbAt c)).length)) post <;> simp [Except.map]

/-- R201: `xlat` of bytes whose codes all fit is the codes in order. -/
theorem xlat_eq_ok {bitCap : Nat} {c : CodeBook} {bytes : List Byte}
    (hcoded : ∀ b ∈ bytes, cbAt c b ≠ []) (hfit : (bytes.flatMap (cbAt c)).length ≤ bitCap) :
    xlat bitCap bytes c = .ok (bytes.flatMap (cbAt c)) := by
  have h : xlatFrom bitCap c 0 0 (bytes ++ []) = _ :=
    xlatFrom_append [] hcoded (by rwa [Nat.zero_add])
  rw [List.append_nil] at h
  rw [xlat, h, xlatFrom, Except.map, List.append_nil]

/-- R201: whatever `xlatFrom` gives is the codes in order. -/
theorem xlatFrom_ok_eq {bitCap : Nat} {c : CodeBook} {bytes : List Byte} :
    ∀ {i len : Nat} {bs : List Bool}, xlatFrom bitCap c i len bytes = .ok bs →
      bs = bytes.flatMap (cbAt c) := by
  induction bytes with
  | nil => intro i len bs h; cases h; rfl
  | cons b rest ih =>
    intro i len bs h
    by_cases hb : cbAt c b = []
    · rw [xlatFrom_uncoded rest hb] at h; cases h
    · by_cases hfit : len + (cbAt c b).length ≤ bitCap
      · rw [xlatFrom_fits rest hb hfit] at h
        cases hx : xlatFrom bitCap c (i + 1) (len + (cbAt c b).length) rest with
        | error e => rw [hx] at h; cases h
        | ok out => rw [hx] at h; cases h; rw [List.flatMap_cons, ih hx]
      · rw [xlatFrom_full rest hb (by omega)] at h; cases h

/-- Settles O32: XLAT answers as `xlat` does, which succeeds (`xlat_eq_ok`). -/
theorem xlatConcatenatesTheCodes : Obligations.XlatConcatenatesTheCodes := fun s hcoded hfit =>
  (execXlat_eq s).trans (by rw [xlat_eq_ok hcoded hfit])

/-- Settles O33: the loop passes the bytes before the first bad one (`xlatFrom_append`) and raises
there. -/
theorem xlatFailsAtTheFirstBadByte : Obligations.XlatFailsAtTheFirstBadByte := by
  intro s pre post b hin hcoded hfit
  have hpass : xlatFrom s.bitCap.toNat s.cb 0 0 (pre ++ b :: post) = _ :=
    xlatFrom_append (b :: post) hcoded (by rwa [Nat.zero_add])
  rw [← hin, Nat.zero_add, Nat.zero_add] at hpass
  refine ⟨fun hb => (execXlat_eq s).trans ?_, fun hb hfull => (execXlat_eq s).trans ?_⟩
  · rw [xlat, hpass, xlatFrom_uncoded post hb]
    rfl
  · rw [List.flatMap_append, List.flatMap_singleton, List.length_append] at hfull
    rw [xlat, hpass, xlatFrom_full post hb hfull]
    rfl

/-- Settles O34: what `xlat` gives is the codes in order, and a sum over the bytes is one over the
symbols (`sum_bytes`). -/
theorem xlatLengthLaw : Obligations.XlatLengthLaw := by
  intro bitCap bytes cb bs hlen h
  have hsum : bs.length = (bytes.map (fun b => (cbAt cb b).length)).sum := by
    rw [xlatFrom_ok_eq h, List.length_flatMap]
  refine ⟨hsum, ?_⟩
  rw [hsum, sum_bytes]
  simp only [ftAt_freq_toNat hlen]

/-! ### SER (R210, R211, R213) -/

/-- The present symbols of a table, in ascending value (R151), one entry each (R130). -/
theorem presentSymbols_length_eq (t : FreqTable) :
    (presentSymbols t).length = (symbols.filter (fun b => ftAt t b ≠ 0)).length := by
  rw [presentSymbols_eq, entriesOf, List.length_map, List.length_map]

/-- R211: the bytes of a container. -/
theorem ser_eq (t : FreqTable) (p : BitVec 3) (payload : List Byte) :
    ser t p payload =
      bytesBE16 (BitVec.ofNat 16 (symbols.filter (fun b => ftAt t b ≠ 0)).length) ++
        (symbols.filter (fun b => ftAt t b ≠ 0)).flatMap (fun b => b :: bytesBE32 (ftAt t b)) ++
        [BitVec.ofNat 8 p.toNat] ++ payload := by
  rw [ser, presentSymbols_length_eq, descriptor_eq, entriesOf, List.flatMap_map, BitVec.ofNat_toNat]
  rfl

/-- R213: the longest header and the longest payload fit OUT; R6 asks `CAP >= 184` for this. -/
theorem container_fits {cap bitCap n payLen : Nat} (h : Config.legal cap bitCap) (hn : n ≤ 256)
    (hpay : payLen ≤ bitCap / 8) : 3 + 5 * n + payLen ≤ bitCap := by
  obtain ⟨hcap, -, -, hbits, -⟩ := h
  omega

/-- Settles O38: the container is that of `ser_eq`, and fits by `container_fits`. -/
theorem serWritesTheContainer : Obligations.SerWritesTheContainer := by
  intro s
  have hser := ser_eq s.ft s.pad s.pay
  have hlen := ser_length s.ft s.pad s.pay
  have hn := presentSymbols_length s.ft
  rw [presentSymbols_length_eq] at hlen hn
  have hout := congrArg List.length hser
  exact ⟨(execSer_eq s).trans (by rw [hser]; rfl), hout.symm.trans hlen,
    fun hlegal hpay => (hout.symm.trans hlen).trans_le (container_fits hlegal hn hpay)⟩

end Sys2Proof.Machine

namespace Sys2Proof.Machine

/-! ### The bound of R205 (b) -/

/-- The bits that the codes of a table take for as many bytes as it counts (R202). -/
def codedBits (t : FreqTable) : Nat :=
  (symbols.map (fun b => (ftAt t b).toNat * (cbAt (book (tree t)) b).length)).sum

/-- R202: the bits of a buffer are those of its counts. -/
theorem sum_code_lengths {bytes : List Byte} (h : bytes.length < 2 ^ 32) :
    (bytes.map (fun b => (cbAt (book (tree (freq bytes))) b).length)).sum =
      codedBits (freq bytes) := by
  rw [sum_bytes, codedBits]
  simp only [ftAt_freq_toNat h]

/-- Only the pairs (symbol, code) contribute to the coded bits. -/
theorem codedBits_eq_leafCodes (t : FreqTable) :
    codedBits t = ((leafCodes (tree t)).map
      (fun e => (ftAt t (BitVec.ofNat 8 e.1)).toNat * e.2.length)).sum := by
  rw [← sum_symbols (fun s c => (ftAt t (BitVec.ofNat 8 s)).toNat * c.length) (fun _ => rfl)]
  simp only [BitVec.ofNat_toNat, BitVec.setWidth_eq, codedBits]

/-- The leaves of the tree weigh the counts of their symbols (R152). -/
theorem rootTree_leaf_weight {t : FreqTable} {r : HTree} (h : rootTree t = some r) :
    ∀ e ∈ r.leaves, e.1 = (ftAt t (BitVec.ofNat 8 e.2)).toNat := by
  intro e he
  obtain ⟨hlt, hw, -⟩ := mem_presentSymbols.mp ((rootTree_leaves h).mem_iff.mp he)
  rw [hw, ftAt_ofNat t hlt]

/-- The tree of at most `2^8` symbols costs at most 8 bits a count: the weights of the nodes the
greedy loop creates sum to no more (`build_made_le_mul`). -/
theorem rootTree_cost_le {t : FreqTable} {r : HTree} (h : rootTree t = some r) :
    r.cost ≤ 8 * totalCount t := by
  have hseed : (forest t).map HTree.cost = (forest t).map (fun _ => 0) :=
    List.map_congr_left fun x hx => by
      obtain ⟨i, _, rfl, _⟩ := mem_forest.mp hx
      rfl
  have hlen : (forest t).length ≤ 2 ^ 8 := (forest_length t).trans_le (presentSymbols_length t)
  rw [build_cost (forest_fuel t) h, hseed, ← forest_weights]
  simpa using build_made_le_mul (forest_fuel t) h (forest_ascending t) hlen

/-- R205 (b), for every table: no bit without a symbol, one bit a count with one, and the cost of the
tree with more. -/
theorem codedBits_le (t : FreqTable) : codedBits t ≤ 8 * totalCount t := by
  rw [codedBits_eq_leafCodes]
  match hp : presentSymbols t with
  | [] => rw [leafCodes_empty hp]; exact Nat.zero_le _
  | [(w, s)] =>
    obtain ⟨hr, hcodes⟩ := leafCodes_lone hp
    have hw : w = (ftAt t (BitVec.ofNat 8 s)).toNat :=
      rootTree_leaf_weight hr (w, s) (List.mem_singleton_self _)
    have htotal : w = totalCount t := rootTree_weight hr
    simp only [hcodes, List.map_singleton, List.sum_singleton, List.length_singleton]
    omega
  | x :: y :: l =>
    have h2 : 2 ≤ (tree t).nsym.toNat := by rw [tree_nsym, hp]; simp
    obtain ⟨r, hr, hcodes⟩ := exists_leafCodes_eq h2
    rw [hcodes, HTree.codes_cost (fun s => (ftAt t (BitVec.ofNat 8 s)).toNat) r []
      (rootTree_leaf_weight hr)]
    exact rootTree_cost_le hr

/-- R205 (b), for a buffer. -/
theorem codedBits_freq_le {bytes : List Byte} (h : bytes.length < 2 ^ 32) :
    codedBits (freq bytes) ≤ 8 * bytes.length := by
  have hbound := codedBits_le (freq bytes)
  rwa [totalCount_freq h] at hbound

/-- Settles O44: the sum over the bytes is the coded bits of the counts, and R205 (b). -/
theorem encodedBitsAtMostEightPerByte : Obligations.EncodedBitsAtMostEightPerByte :=
  fun _ h => (sum_code_lengths h).trans_le (codedBits_freq_le h)

/-! ### ENCODE (R220 to R227) -/

/-- R205: the two raises of XLAT do not fire in ENCODE. Every byte has a code, and the codes take at
most 8 bits a byte. -/
theorem xlat_book_eq_ok {bitCap : Nat} {bytes : List Byte} (h : bytes.length < 2 ^ 32)
    (hcap : 8 * bytes.length ≤ bitCap) :
    xlat bitCap bytes (book (tree (freq bytes))) =
      .ok (bytes.flatMap (cbAt (book (tree (freq bytes))))) := by
  refine xlat_eq_ok (fun b hb => cbAt_book_present ((ftAt_freq_ne_zero h b).mpr hb)) ?_
  rw [List.length_flatMap, sum_code_lengths h]
  exact (codedBits_freq_le h).trans hcap

/-- What ENCODE leaves for the bytes of IN and the bits of its XLAT stage (R222, R224). -/
structure State.Encodes (t : State) (bytes : List Byte) (bs : List Bool) : Prop where
  ft : t.ft = freq bytes
  tree : t.tree = Sys2Proof.Machine.tree (freq bytes)
  cb : t.cb = book (Sys2Proof.Machine.tree (freq bytes))
  bits : t.bits = bs
  pay : t.pay = (pack bs).1
  pad : t.pad = (pack bs).2
  outMem : t.outMem = ser (freq bytes) (pack bs).2 (pack bs).1

/-- R220, R221: where XLAT does not raise, ENCODE completes and leaves the results of its stages. -/
theorem exec_encode_ok {s : State} {bs : List Bool}
    (h : xlat s.bitCap.toNat s.inMem (book (tree (freq s.inMem))) = .ok bs) :
    ∃ t, exec .encode s = .next t ∧ t.status = ⟨false, true, .none, s.status.herr⟩ ∧
      t.inMem = s.inMem ∧ t.Encodes s.inMem bs :=
  ⟨_, execEncode_ok h, rfl, rfl, rfl, rfl, rfl, rfl, rfl, rfl, rfl⟩

/-- R227: the size of what ENCODE leaves, over the symbols. -/
theorem encodedSize_eq (s : State) : s.encodedSize = 3 + 5 * s.nsym.toNat +
    ((symbols.map (fun b => (ftAt s.ft b).toNat * (cbAt s.cb b).length)).sum + 7) / 8 := by
  rw [symbols, List.map_map]
  rfl

/-- R227: after ENCODE that size is given by the counts of IN. -/
theorem encodedSize_of_encodes {t : State} {bytes : List Byte} {bs : List Bool}
    (h : t.Encodes bytes bs) : t.encodedSize =
      3 + 5 * (presentSymbols (freq bytes)).length + ceil8 (codedBits (freq bytes)) := by
  have hnsym : t.nsym = (tree (freq bytes)).nsym := congrArg Tree.nsym h.tree
  rw [encodedSize_eq, h.ft, h.cb, hnsym, tree_nsym, codedBits, ceil8]

/-- Settles O43: XLAT does not raise (`xlat_book_eq_ok`), so ENCODE runs to its end; the container
has at most 256 entries and at most 8 bits a byte (R205 (b)). -/
theorem encodeNeverFails : Obligations.EncodeNeverFails := by
  intro s hlegal hcap
  obtain ⟨-, hcap32, -, hbitCap, -⟩ := hlegal
  have hlen : s.inMem.length < 2 ^ 32 := by omega
  have hx := xlat_book_eq_ok (bitCap := s.bitCap.toNat) hlen (by omega)
  obtain ⟨t, hexec, hstatus, hin, ht⟩ := exec_encode_ok hx
  have hbits := codedBits_freq_le hlen
  have hsym := presentSymbols_length (freq s.inMem)
  have hsize := encodedSize_of_encodes ht
  have hout : t.outMem.length = t.encodedSize := by
    rw [ht.outMem, ser_pack_length, List.length_flatMap, sum_code_lengths hlen, hsize]
  rw [ceil8] at hsize
  refine ⟨t.outMem, t, ?_, hexec, hstatus, rfl, hin, hout, encodedSize_eq t, by omega,
    fun hnil => ?_⟩
  · rw [encodeBytes, hx, ht.outMem]
  · rw [hnil, List.length_nil]
    omega

/-- A raise of XLAT is recorded as an error (R302). -/
theorem xlat_error_kind {bitCap : Nat} {bytes : List Byte} {c : CodeBook} {e : Raise}
    (h : xlat bitCap bytes c = .error e) : e.kind ≠ .none := by
  obtain ⟨hkind, hcause⟩ := xlatFrom_error h
  have hnone : ∀ c ∈ [Cause.noCode, .bitsFull], c.kind ≠ .none := by decide
  rw [hkind]
  exact hnone _ hcause

/-- Settles O45: XLAT ends alike from both states, and where it does not raise, what ENCODE leaves is
given by IN (`exec_encode_ok`). -/
theorem encodeDependsOnTheInputAlone : Obligations.EncodeDependsOnTheInputAlone := by
  intro s₁ s₂ t₁ t₂ hin hcap h₁ h₂ herr
  cases hx : xlat s₁.bitCap.toNat s₁.inMem (book (tree (freq s₁.inMem))) with
  | error e =>
    cases (execEncode_error hx).symm.trans h₁
    exact absurd herr (xlat_error_kind hx)
  | ok bs =>
    obtain ⟨u₁, hu₁, -, -, he₁⟩ := exec_encode_ok hx
    rw [hin, hcap] at hx
    obtain ⟨u₂, hu₂, hstatus, -, he₂⟩ := exec_encode_ok hx
    rw [← hin] at he₂
    cases hu₁.symm.trans h₁
    cases hu₂.symm.trans h₂
    exact ⟨congrArg Status.err hstatus, he₁.ft.trans he₂.ft.symm, he₁.tree.trans he₂.tree.symm,
      he₁.cb.trans he₂.cb.symm, he₁.bits.trans he₂.bits.symm, he₁.pay.trans he₂.pay.symm,
      he₁.pad.trans he₂.pad.symm, he₁.outMem.trans he₂.outMem.symm⟩

/-! ### ENCODE of the empty input and of one symbol (R225, R226) -/

/-- R180: `n` zero bits are packed as zero bytes, the padding being zeros too. -/
theorem pack_replicate_false (n : Nat) :
    pack (List.replicate n false) =
      (List.replicate (ceil8 n) 0, BitVec.ofNat 3 (padCount n)) := by
  apply pack_eq_of_bits
  have hbyte : byteBits 0 = List.replicate 8 false := rfl
  have hpad : (BitVec.ofNat 3 (padCount n)).toNat = padCount n :=
    (BitVec.toNat_ofNat ..).trans (Nat.mod_eq_of_lt (padCount_lt n))
  rw [List.flatMap_replicate, hbyte, List.flatten_replicate_replicate, hpad,
    List.replicate_append_replicate, length_add_padCount, Nat.mul_comm]

/-- R152: the only present symbol, with its count. -/
theorem presentSymbols_lone {t : FreqTable} {b : Byte} (hb : ftAt t b ≠ 0)
    (h : ∀ c, c ≠ b → ftAt t c = 0) : presentSymbols t = [((ftAt t b).toNat, b.toNat)] := by
  obtain ⟨⟨w, s⟩, hp, hs : s = b.toNat⟩ := List.map_eq_singleton_iff.mp (presentIds_lone hb h)
  subst hs
  have hmem : (w, b.toNat) ∈ presentSymbols t := by rw [hp]; exact List.mem_singleton_self _
  obtain ⟨_, hw, _⟩ := mem_presentSymbols.mp hmem
  rw [hp, hw]
  rfl

/-- R211: the container of no symbol and no payload. -/
theorem ser_of_nil {t : FreqTable} (h : presentSymbols t = []) : ser t 0 [] = [0, 0, 0] := by
  rw [ser, descriptor, h]
  rfl

/-- R211: the container of one symbol. -/
theorem ser_of_singleton {t : FreqTable} {w : Nat} {b : Byte} (p : BitVec 3)
    (payload : List Byte) (h : presentSymbols t = [(w, b.toNat)]) :
    ser t p payload = [0x00, 0x01, b] ++ bytesBE32 (BitVec.ofNat 32 w) ++
      [BitVec.ofNat 8 p.toNat] ++ payload := by
  have hn : bytesBE16 (BitVec.ofNat 16 1) = [0x00, 0x01] := by decide
  rw [ser, descriptor, h, List.length_singleton, hn, List.flatMap_singleton, BitVec.ofNat_toNat,
    BitVec.ofNat_toNat, BitVec.setWidth_eq]
  rfl

/-- R225. -/
theorem exec_encode_nil {s : State} (h : s.inMem = []) : ∃ t, exec .encode s = .next t ∧
    t.status.err = .none ∧ (∀ b, ftAt t.ft b = 0) ∧ t.nsym = 0 ∧ t.root = 511 ∧
    (∀ b, cbAt t.cb b = []) ∧ t.bits = [] ∧ t.pay = [] ∧ t.pad = 0 ∧
    t.outMem = [0x00, 0x00, 0x00] := by
  obtain ⟨t, hexec, hstatus, -, ht⟩ := exec_encode_ok (s := s) (bs := []) (by rw [h]; rfl)
  rw [h] at ht
  have habsent : ∀ b, ftAt (freq []) b = 0 := ftAt_freq []
  have hp := presentSymbols_eq_nil.mpr habsent
  have htree := ht.tree.trans (tree_of_nil hp)
  refine ⟨t, hexec, congrArg Status.err hstatus, fun b => ?_, congrArg Tree.nsym htree,
    congrArg Tree.root htree, fun b => ?_, ht.bits, ht.pay, ht.pad, ht.outMem.trans ?_⟩
  · rw [ht.ft, habsent]
  · rw [ht.cb, cbAt_book_absent (habsent b)]
  · exact ser_of_nil hp

/-- R226: `n` copies of a byte are counted under its symbol alone. -/
theorem ftAt_freq_replicate {n : Nat} (h : n < 2 ^ 32) (b x : Byte) :
    (ftAt (freq (List.replicate n b)) x).toNat = if x = b then n else 0 := by
  have hlen : (List.replicate n b).length < 2 ^ 32 := by rwa [List.length_replicate]
  simp only [ftAt_freq_toNat hlen, List.count_replicate, beq_iff_eq, eq_comm (a := b)]

theorem presentSymbols_freq_replicate {n : Nat} (hn : 1 ≤ n) (h : n < 2 ^ 32) (b : Byte) :
    presentSymbols (freq (List.replicate n b)) = [(n, b.toNat)] := by
  have hcount := ftAt_freq_replicate h b
  have hb : ftAt (freq (List.replicate n b)) b ≠ 0 := by
    rw [← BitVec.toNat_ne_iff_ne, hcount, if_pos rfl]
    exact Nat.ne_of_gt hn
  have hother : ∀ x, x ≠ b → ftAt (freq (List.replicate n b)) x = 0 := fun x hx =>
    BitVec.eq_of_toNat_eq (by rw [hcount, if_neg hx]; rfl)
  rw [presentSymbols_lone hb hother, hcount, if_pos rfl]

/-- R156: one present symbol makes a tree of one leaf. -/
theorem tree_nsym_of_singleton {t : FreqTable} {x : QItem} (h : presentSymbols t = [x]) :
    (tree t).nsym = 1 :=
  BitVec.eq_of_toNat_eq (by rw [tree_nsym, h]; rfl)

/-- R173: the only present symbol has the code "0", no other symbol has one. -/
theorem cbAt_book_of_singleton {t : FreqTable} {w : Nat} {b : Byte}
    (h : presentSymbols t = [(w, b.toNat)]) (x : Byte) :
    cbAt (book (tree t)) x = if x = b then [false] else [] := by
  simp only [cbAt_book_of_nsym_one (tree_nsym_of_singleton h), (tree_of_singleton h).1,
    BitVec.toNat_inj, eq_comm (a := b)]

/-- R226: XLAT gives one zero bit a byte. -/
theorem xlat_replicate {bitCap n : Nat} {b : Byte} (hn : 1 ≤ n) (h : n < 2 ^ 32)
    (hcap : 8 * n ≤ bitCap) :
    xlat bitCap (List.replicate n b) (book (tree (freq (List.replicate n b)))) =
      .ok (List.replicate n false) := by
  have hcode := cbAt_book_of_singleton (presentSymbols_freq_replicate hn h b) b
  rw [xlat_book_eq_ok (by rwa [List.length_replicate]) (by rwa [List.length_replicate]),
    List.flatMap_replicate, hcode, if_pos rfl, List.flatten_replicate_singleton]

/-- Settles O46: the table of the empty input has no present symbol (R155, R174), that of copies of
one byte has one (R156, R173), so each stage of ENCODE is known outright. -/
theorem encodeOfEmptyAndOfOneSymbol : Obligations.EncodeOfEmptyAndOfOneSymbol := by
  refine ⟨fun _ => exec_encode_nil, fun s b n hlegal hn hn1 hin => ?_⟩
  obtain ⟨-, hcap, -, hbitCap, -⟩ := hlegal
  have hlt : n < 2 ^ 32 := by omega
  have hp := presentSymbols_freq_replicate hn1 hlt b
  have hx := xlat_replicate (bitCap := s.bitCap.toNat) (b := b) hn1 hlt (by omega)
  rw [← hin] at hx
  obtain ⟨t, hexec, hstatus, -, ht⟩ := exec_encode_ok hx
  rw [hin] at ht
  have hpay : t.pay = List.replicate (ceil8 n) 0 := by rw [ht.pay, pack_replicate_false]
  have hpad : t.pad.toNat = padCount n := by
    rw [ht.pad, pack_pad_toNat, List.length_replicate]
  have hout : t.outMem = [0x00, 0x01, b] ++ bytesBE32 (BitVec.ofNat 32 n) ++
      [BitVec.ofNat 8 t.pad.toNat] ++ t.pay := by
    rw [ht.outMem, ser_of_singleton _ _ hp, ht.pad, ht.pay]
  have hlen : t.outMem.length = 8 + ceil8 n := by
    rw [ht.outMem, ser_pack_length, hp, List.length_singleton, List.length_replicate]
  refine ⟨t, hexec, congrArg Status.err hstatus, fun x => ?_, ?_, ?_, fun x => ?_, ht.bits, hpay,
    hpad, hout, hlen⟩
  · rw [ht.ft, ftAt_freq_replicate hlt]
  · exact (congrArg Tree.nsym ht.tree).trans (tree_nsym_of_singleton hp)
  · exact (congrArg (BitVec.toNat ∘ Tree.root) ht.tree).trans (tree_of_singleton hp).1
  · rw [ht.cb, cbAt_book_of_singleton hp]

end Sys2Proof.Machine

namespace Sys2Proof.Machine

/-! ### DES: the checks of R230 on the whole container -/

/-- The number of entries that the first two bytes of a container announce (R130). -/
def announced (c : List Byte) : Nat := be16 (byteAt c 0) (byteAt c 1)

/-- R230, check 1. -/
theorem des_of_short {c : List Byte} (h : c.length < 2) :
    des c = .error ⟨.formatError, .trunc, c.length⟩ := by
  simp only [des, if_pos h]

/-- R230, check 2. -/
theorem des_of_many {c : List Byte} (h : 2 ≤ c.length) (hn : 256 < announced c) :
    des c = .error ⟨.formatError, .badNsym, 0⟩ := by
  rw [announced] at hn
  simp only [des, if_neg (Nat.not_lt.mpr h), if_pos hn]

/-- R230, check 3. -/
theorem des_of_cut {c : List Byte} (h : 2 ≤ c.length) (hn : announced c ≤ 256)
    (hcut : c.length < 3 + 5 * announced c) :
    des c = .error ⟨.formatError, .trunc, c.length⟩ := by
  rw [announced] at hn hcut
  simp only [des, if_neg (Nat.not_lt.mpr h), if_neg (Nat.not_lt.mpr hn), if_pos hcut]

/-- R230: behind the first three checks the entries are read, then the rest. -/
theorem des_of_header {c : List Byte} (hn : announced c ≤ 256)
    (hlen : 3 + 5 * announced c ≤ c.length) :
    des c = (desEntries c (announced c) 0 none (Vector.replicate 256 0)).bind
      (desTail c (announced c)) := by
  rw [announced] at hn hlen ⊢
  simp only [des, if_neg (show ¬ c.length < 2 by omega), if_neg (Nat.not_lt.mpr hn),
    if_neg (Nat.not_lt.mpr hlen)]
  cases desEntries c (be16 (byteAt c 0) (byteAt c 1)) 0 none (Vector.replicate 256 0) <;> rfl

/-- What DES accepts has passed the first three checks. -/
theorem header_of_des_ok {c : List Byte} {r : Parsed} (h : des c = .ok r) :
    announced c ≤ 256 ∧ 3 + 5 * announced c ≤ c.length := by
  by_cases hlen : 2 ≤ c.length
  · by_cases hn : announced c ≤ 256
    · refine ⟨hn, not_lt.mp fun hcut => ?_⟩
      rw [des_of_cut hlen hn hcut] at h
      cases h
    · rw [des_of_many hlen (not_le.mp hn)] at h
      cases h
  · rw [des_of_short (not_le.mp hlen)] at h
    cases h

/-- R230, check 6. -/
theorem desTail_of_badPad {c : List Byte} {n : Nat} (t : FreqTable)
    (h : 7 < (byteAt c (2 + 5 * n)).toNat) :
    desTail c n t = .error ⟨.formatError, .badPad, 2 + 5 * n⟩ := by
  have hpos : 3 + 5 * n - 1 = 2 + 5 * n := by omega
  simp only [desTail, hpos, if_pos h]

/-- R230, check 7. -/
theorem desTail_of_padNoPayload {c : List Byte} {n : Nat} (t : FreqTable)
    (h : (byteAt c (2 + 5 * n)).toNat ≤ 7) (h0 : byteAt c (2 + 5 * n) ≠ 0)
    (hlen : c.length = 3 + 5 * n) :
    desTail c n t = .error ⟨.formatError, .padNoPayload, 2 + 5 * n⟩ := by
  have hpos : 3 + 5 * n - 1 = 2 + 5 * n := by omega
  simp only [desTail, hpos, if_neg (Nat.not_lt.mpr h), hlen, Nat.sub_self,
    if_pos (And.intro h0 trivial)]

/-- R230, check 8; where a payload stands, check 7 passes. -/
theorem desTail_of_emptyWithPayload {c : List Byte} (t : FreqTable)
    (h : (byteAt c 2).toNat ≤ 7) (hlen : 3 < c.length) :
    desTail c 0 t = .error ⟨.formatError, .emptyWithPayload, 3⟩ := by
  have hpay : c.length - 3 ≠ 0 := by omega
  simp only [desTail, Nat.mul_zero, Nat.add_zero, if_neg (Nat.not_lt.mpr h), hpay, and_false,
    if_false, ne_eq, not_false_iff, and_self, if_true]

/-- R230, R231: what passes the last three checks, and what is then read. -/
theorem desTail_eq_ok_iff {c : List Byte} {n : Nat} {t : FreqTable} {r : Parsed} :
    desTail c n t = .ok r ↔ (byteAt c (2 + 5 * n)).toNat ≤ 7 ∧
      (byteAt c (2 + 5 * n) = 0 ∨ 3 + 5 * n < c.length) ∧ (n = 0 → c.length ≤ 3 + 5 * n) ∧
      r = ⟨t, (byteAt c (2 + 5 * n)).setWidth 3, c.drop (3 + 5 * n)⟩ := by
  have hpos : 3 + 5 * n - 1 = 2 + 5 * n := by omega
  simp only [desTail, hpos]
  split
  case isTrue h6 => exact iff_of_false nofun fun ⟨h, _⟩ => absurd h6 (not_lt.mpr h)
  case isFalse h6 =>
    split
    case isTrue h7 =>
      refine iff_of_false nofun fun ⟨_, h, _⟩ => ?_
      have := h.resolve_left h7.1
      omega
    case isFalse h7 =>
      split
      case isTrue h8 => exact iff_of_false nofun fun ⟨_, _, h, _⟩ => by have := h h8.1; omega
      case isFalse h8 =>
        rw [Except.ok.injEq, eq_comm]
        refine ⟨fun h => ⟨not_lt.mp h6, ?_, fun h0 => ?_, h⟩, fun ⟨_, _, _, h⟩ => h⟩
        · exact or_iff_not_imp_left.mpr fun h0 => not_le.mp fun hle => h7 ⟨h0, by omega⟩
        · exact not_lt.mp fun hlt => h8 ⟨h0, by omega⟩

/-! ### DES and SER after each other (R235) -/

/-- A container by its entries, padding byte and payload (R130, R211). -/
def container (es : List (Byte × Count)) (p : Byte) (payload : List Byte) : List Byte :=
  bytesBE16 (BitVec.ofNat 16 es.length) ++ es.flatMap entryBytes ++ [p] ++ payload

theorem drop_eq_byteAt_cons {c : List Byte} {o : Nat} (h : o < c.length) :
    c.drop o = byteAt c o :: c.drop (o + 1) := by
  rw [List.drop_eq_getElem_cons h, byteAt, List.getD_eq_getElem _ _ h]

theorem length_bytesBE16 (v : BitVec 16) : (bytesBE16 v).length = 2 := rfl

theorem length_presentSymbols (t : FreqTable) :
    (presentSymbols t).length = (entriesOf t).length := by
  rw [presentSymbols_eq, List.length_map]

/-- R211: SER writes the entries of the table. -/
theorem ser_eq_container (t : FreqTable) (p : BitVec 3) (payload : List Byte) :
    ser t p payload = container (entriesOf t) (p.setWidth 8) payload := by
  rw [ser, descriptor_eq, length_presentSymbols, container]

section
variable (es : List (Byte × Count)) (p : Byte) (payload : List Byte)

theorem container_length :
    (container es p payload).length = 3 + 5 * es.length + payload.length := by
  simp only [container, List.length_append, length_bytesBE16, flatMap_entryBytes_length,
    List.length_singleton]
  omega

theorem announced_container (h : es.length ≤ 256) :
    announced (container es p payload) = es.length := by
  have hn : announced (container es p payload) = (BitVec.ofNat 16 es.length).toNat :=
    be16_bytesBE16 _
  rw [hn, BitVec.toNat_ofNat, Nat.mod_eq_of_lt (by omega)]

/-- Behind the entries stand the padding byte and the payload (R130). -/
theorem container_tail : byteAt (container es p payload) (2 + 5 * es.length) = p ∧
    (container es p payload).drop (3 + 5 * es.length) = payload := by
  have hdrop : (container es p payload).drop (2 + 5 * es.length) = p :: payload := by
    rw [container, List.append_assoc, List.drop_left']
    · rfl
    · rw [List.length_append, length_bytesBE16, flatMap_entryBytes_length]
  have hlen := container_length es p payload
  have hnext : 2 + 5 * es.length + 1 = 3 + 5 * es.length := by omega
  rw [drop_eq_byteAt_cons (by omega), hnext] at hdrop
  exact List.cons.inj hdrop

/-- R231: DES reads back the entries and then the padding byte and the payload. -/
theorem des_container (hlen : es.length ≤ 256) (hgood : goodEntries none es) :
    des (container es p payload) = desTail (container es p payload) es.length
      (setEntries (Vector.replicate 256 0) es) := by
  have hn := announced_container es p payload hlen
  have hc := container_length es p payload
  have hentries := desEntries_good (pre := bytesBE16 (BitVec.ofNat 16 es.length))
    (post := [p] ++ payload) (k := 0) (t := Vector.replicate 256 0) rfl hgood
  rw [← List.append_assoc, ← List.append_assoc, ← container] at hentries
  rw [des_of_header (by omega) (by omega), hn, hentries]
  rfl

end

/-- R235: DES inverts SER. -/
theorem des_ser {t : FreqTable} {p : BitVec 3} {payload : List Byte}
    (h : serializable t p payload) : des (ser t p payload) = .ok ⟨t, p, payload⟩ := by
  obtain ⟨hpad, htable⟩ := h
  have hlen : (entriesOf t).length ≤ 256 :=
    (length_presentSymbols t).symm.trans_le (presentSymbols_length t)
  obtain ⟨hbyte, hdrop⟩ := container_tail (entriesOf t) (p.setWidth 8) payload
  have hc := container_length (entriesOf t) (p.setWidth 8) payload
  have hp := p.isLt
  rw [ser_eq_container, des_container _ _ _ hlen (entriesOf_good t), setEntries_entriesOf,
    desTail_eq_ok_iff, hbyte, hdrop, hc]
  refine ⟨?_, ?_, fun h0 => ?_, ?_⟩
  · rw [BitVec.toNat_setWidth]; omega
  · refine hpad.imp (fun h => ?_) fun h => by omega
    rw [h]; rfl
  · have hnone : ∀ b, ftAt t b = 0 := by
      rw [← presentSymbols_eq_nil, ← List.length_eq_zero_iff, length_presentSymbols, h0]
    obtain ⟨b, hb⟩ | h := htable
    · exact absurd (hnone b) hb
    · omega
  · rw [BitVec.setWidth_setWidth_of_le p (by decide), BitVec.setWidth_eq]

/-- R230, R231: what DES accepts is a container of good entries, which it returns as a table. -/
theorem eq_container_of_des {c : List Byte} {r : Parsed} (h : des c = .ok r) :
    ∃ es p, goodEntries none es ∧ p.toNat ≤ 7 ∧ c = container es p r.pay ∧
      r.ft = setEntries (Vector.replicate 256 0) es ∧ r.pad = p.setWidth 3 := by
  obtain ⟨hn, hlen⟩ := header_of_des_ok h
  rw [des_of_header hn hlen] at h
  cases he : desEntries c (announced c) 0 none (Vector.replicate 256 0) with
  | error e => rw [he] at h; cases h
  | ok t =>
    rw [he] at h
    obtain ⟨hpad, -, -, rfl⟩ := desTail_eq_ok_iff.mp h
    obtain ⟨es, hes, hgood, rfl, hbytes⟩ := desEntries_ok he (by omega)
    rw [Nat.zero_add] at hbytes
    refine ⟨es, _, hgood, hpad, ?_, rfl, rfl⟩
    have hnext : 2 + 5 * announced c + 1 = 3 + 5 * announced c := by omega
    calc
      c = byteAt c 0 :: byteAt c 1 :: c.drop 2 := by
        rw [← drop_eq_byteAt_cons (by omega), ← drop_eq_byteAt_cons (by omega), List.drop_zero]
      _ = bytesBE16 (BitVec.ofNat 16 es.length) ++ (es.flatMap entryBytes ++
          c.drop (2 + 5 * announced c)) := by
        rw [hes, announced, bytesBE16_be16, ← announced, ← hbytes]
        rfl
      _ = container es (byteAt c (2 + 5 * announced c)) (c.drop (3 + 5 * announced c)) := by
        rw [drop_eq_byteAt_cons (by omega), hnext, container, List.append_assoc, List.append_assoc]
        rfl

/-- R235: SER inverts DES. -/
theorem ser_of_des {c : List Byte} {r : Parsed} (h : des c = .ok r) :
    ser r.ft r.pad r.pay = c := by
  obtain ⟨es, p, hgood, hp, hc, hft, hpad⟩ := eq_container_of_des h
  have hbyte : (p.setWidth 3).setWidth 8 = p :=
    BitVec.eq_of_toNat_eq (by simp only [BitVec.toNat_setWidth]; omega)
  rw [ser_eq_container, hft, hpad, entriesOf_setEntries hgood, hbyte, ← hc]

theorem exec_des_ok {s : State} {r : Parsed} (h : des s.inMem = .ok r) :
    exec .des s = .next { s.ended 0x08 with ft := r.ft, pad := r.pad, pay := r.pay } :=
  (execDes_eq s).trans (by rw [h])

/-- Settles O39: SER writes a container of good entries (`ser_eq_container`), which DES reads back
(`des_ser`), and DES accepts no other (`eq_container_of_des`). -/
theorem desInvertsSer : Obligations.DesInvertsSer :=
  ⟨fun _ _ _ => des_ser, fun _ _ => ser_of_des,
    fun _ _ _ _ h hin => exec_des_ok (by rw [hin, des_ser h])⟩

end Sys2Proof.Machine

namespace Sys2Proof.Machine

/-! ### DES: the first failing check (R230, R233, R310) -/

/-- The symbol of the entry before entry `k`, as the entries loop carries it along. -/
def prevSymbol (c : List Byte) : Nat → Option Byte
  | 0 => none
  | k + 1 => some (byteAt c (2 + 5 * k))

/-- Check 4 fails at entry `k`: its symbol does not rise above that of the entry before. -/
def Unordered (c : List Byte) (k : Nat) : Prop :=
  0 < k ∧ (byteAt c (2 + 5 * k)).toNat ≤ (byteAt c (2 + 5 * (k - 1))).toNat

theorem prevSymbol_any_iff (c : List Byte) (k : Nat) :
    (prevSymbol c k).any (fun q => (byteAt c (2 + 5 * k)).toNat ≤ q.toNat) = true ↔
      Unordered c k := by
  cases k <;> simp [prevSymbol, Unordered]

section
variable {c : List Byte} {k : Nat} (n : Nat) (t : FreqTable)

theorem desEntries_of_unordered (h : Unordered c k) :
    desEntries c (n + 1) k (prevSymbol c k) t = .error ⟨.formatError, .badOrder, 2 + 5 * k⟩ := by
  simp only [desEntries, if_pos ((prevSymbol_any_iff c k).mpr h)]

theorem desEntries_of_zero (h : ¬ Unordered c k) (h0 : entryCount c k = 0) :
    desEntries c (n + 1) k (prevSymbol c k) t = .error ⟨.formatError, .zeroCount, 3 + 5 * k⟩ := by
  simp only [desEntries, if_neg (mt (prevSymbol_any_iff c k).mp h), if_pos h0]

theorem desEntries_of_passed (h : ¬ Unordered c k) (h0 : entryCount c k ≠ 0) :
    desEntries c (n + 1) k (prevSymbol c k) t = desEntries c n (k + 1) (prevSymbol c (k + 1))
      (ftSet t (byteAt c (2 + 5 * k)) (BitVec.ofNat 32 (entryCount c k))) := by
  simp only [desEntries, if_neg (mt (prevSymbol_any_iff c k).mp h), if_neg h0]
  rfl

end

/-- The loop passes the first `j` entries if each passes checks 4 and 5. -/
theorem desEntries_passes {c : List Byte} {n j : Nat} (hj : j ≤ n)
    (h : ∀ i < j, ¬ Unordered c i ∧ entryCount c i ≠ 0) (t : FreqTable) :
    ∃ u, desEntries c n 0 none t = desEntries c (n - j) j (prevSymbol c j) u := by
  induction j with
  | zero => exact ⟨t, rfl⟩
  | succ j ih =>
    obtain ⟨u, hu⟩ := ih (by omega) fun i hi => h i (by omega)
    obtain ⟨hord, hcount⟩ := h j (Nat.lt_succ_self j)
    rw [hu, show n - j = n - (j + 1) + 1 by omega, desEntries_of_passed _ _ hord hcount]
    exact ⟨_, rfl⟩

section
variable {c : List Byte} (hn : announced c ≤ 256) (hlen : 3 + 5 * announced c ≤ c.length)
include hn hlen

/-- R230: the first entry that fails check 4 or 5 decides. -/
theorem des_of_entry {j : Nat} (hj : j < announced c)
    (hpre : ∀ i < j, ¬ Unordered c i ∧ entryCount c i ≠ 0) :
    (Unordered c j → des c = .error ⟨.formatError, .badOrder, 2 + 5 * j⟩) ∧
      (¬ Unordered c j → entryCount c j = 0 →
        des c = .error ⟨.formatError, .zeroCount, 3 + 5 * j⟩) := by
  obtain ⟨u, hu⟩ := desEntries_passes hj.le hpre (Vector.replicate 256 0)
  have hrest : announced c - j = announced c - (j + 1) + 1 := by omega
  rw [des_of_header hn hlen, hu, hrest]
  exact ⟨fun h => by rw [desEntries_of_unordered _ _ h]; rfl,
    fun h h0 => by rw [desEntries_of_zero _ _ h h0]; rfl⟩

/-- R230: where all entries pass checks 4 and 5 the last three checks decide. -/
theorem des_of_entries (h : ∀ j < announced c, ¬ Unordered c j ∧ entryCount c j ≠ 0) :
    ∃ t, des c = desTail c (announced c) t := by
  obtain ⟨u, hu⟩ := desEntries_passes le_rfl h (Vector.replicate 256 0)
  rw [Nat.sub_self] at hu
  rw [des_of_header hn hlen, hu]
  exact ⟨u, rfl⟩

end

theorem exec_des_error {s : State} {e : Raise} (h : des s.inMem = .error e) :
    exec .des s = .next { s.failed 0x08 .des e with
      ft := Vector.replicate 256 0, pad := 0, pay := [] } :=
  (execDes_eq s).trans (by rw [h])

/-- Settles O40: each check of R230 where those before it pass; the entries loop passes every entry
before the first bad one (`desEntries_passes`). -/
theorem desReportsTheFirstFailingCheck : Obligations.DesReportsTheFirstFailingCheck := by
  intro s
  refine ⟨fun h => exec_des_error (des_of_short h),
    fun h hn => exec_des_error (des_of_many h hn),
    fun h hn hcut => exec_des_error (des_of_cut h hn hcut), fun hn hlen => ⟨?_, fun hgood => ?_⟩⟩
  · intro j hj hpre
    obtain ⟨hord, hzero⟩ := des_of_entry hn hlen hj hpre
    exact ⟨fun h => exec_des_error (hord h), fun h h0 => exec_des_error (hzero h h0)⟩
  · obtain ⟨t, ht⟩ := des_of_entries hn hlen hgood
    refine ⟨fun hpad => exec_des_error (ht.trans (desTail_of_badPad t hpad)),
      fun hpad h0 hend => exec_des_error (ht.trans (desTail_of_padNoPayload t hpad ?_ hend)),
      fun hpad hn0 hpay => exec_des_error (ht.trans ?_)⟩
    · exact fun h => h0 (congrArg BitVec.toNat h)
    · have hnone : announced s.inMem = 0 := hn0
      rw [hn0] at hpad
      rw [hnone]
      exact desTail_of_emptyWithPayload t hpad hpay

end Sys2Proof.Machine

namespace Sys2Proof.Machine

/-! ### WALK: the codes of bytes (R240, R243, R246) -/

theorem nsym_cases (n : Tree) : n.nsym = 0 ∨ n.nsym = 1 ∨ 2 ≤ n.nsym.toNat := by
  rw [← BitVec.toNat_inj, ← BitVec.toNat_inj]
  change n.nsym.toNat = 0 ∨ n.nsym.toNat = 1 ∨ 2 ≤ n.nsym.toNat
  omega

theorem walk_of_nsym_one {n : Tree} (h : n.nsym = 1) (bs : List Bool) :
    walk n bs = walkLone (n.root.setWidth 8) 0 bs := by
  rw [walk, if_neg (by rw [h]; decide), if_pos h]

theorem walk_of_two_le {n : Tree} (h : 2 ≤ n.nsym.toNat) (bs : List Bool) :
    walk n bs = walkFrom n.node n.root.toNat n.root.toNat 0 bs := by
  have h0 : n.nsym ≠ 0 := fun e => by simp [e] at h
  have h1 : n.nsym ≠ 1 := fun e => by simp [e] at h
  rw [walk, if_neg h0, if_neg h1]

/-- R240: without bits the output is empty, whatever the tree. -/
theorem walk_nil (n : Tree) : walk n [] = .ok [] := by
  unfold walk
  split
  · rfl
  · split
    · rfl
    · rw [walkFrom, if_pos rfl]

/-- R243: under a lone leaf each 0 bit emits its symbol. -/
theorem walkLone_replicate (sym : Byte) (n i : Nat) (bs : List Bool) :
    walkLone sym i (List.replicate n false ++ bs) =
      (walkLone sym (i + n) bs).map (List.replicate n sym ++ ·) := by
  induction n generalizing i with
  | zero => cases h : walkLone sym i bs <;> simp [h, Except.map]
  | succ n ih =>
    rw [List.replicate_succ, List.cons_append, walkLone, ih, Nat.add_right_comm, Nat.add_assoc]
    cases walkLone sym (i + (n + 1)) bs <;> rfl

/-- R246's step: the code of a present symbol, walked from the root, emits the symbol. -/
theorem walkFrom_code {t : FreqTable} (h : 2 ≤ (tree t).nsym.toNat) {b : Byte}
    (hb : ftAt t b ≠ 0) (i : Nat) (bs : List Bool) :
    walkFrom (tree t).node (tree t).root.toNat (tree t).root.toNat i
        (cbAt (book (tree t)) b ++ bs) =
      (walkFrom (tree t).node (tree t).root.toNat (tree t).root.toNat
        (i + (cbAt (book (tree t)) b).length) bs).map (b :: ·) := by
  obtain ⟨r, hr, hcodes⟩ := exists_leafCodes_eq h
  have hroot := tree_root hr
  have hmem := cbAt_book_mem hb
  rw [hcodes] at hmem
  have hstep := (tree_stored hr).1.walk_code (root := r.id)
    (by rw [← hroot, root_eq_last h]; omega) _ hmem i bs
  rw [hroot, hstep, BitVec.ofNat_toNat, BitVec.setWidth_eq]
  cases walkFrom (tree t).node r.id r.id (i + (cbAt (book (tree t)) b).length) bs <;> rfl

/-- R246: the codes of present symbols emit the symbols, and the walk goes on behind them. -/
theorem walkFrom_codes {t : FreqTable} (h : 2 ≤ (tree t).nsym.toNat) {bytes : List Byte}
    (hb : ∀ b ∈ bytes, ftAt t b ≠ 0) (bs : List Bool) : ∀ i,
    walkFrom (tree t).node (tree t).root.toNat (tree t).root.toNat i
        (bytes.flatMap (cbAt (book (tree t))) ++ bs) =
      (walkFrom (tree t).node (tree t).root.toNat (tree t).root.toNat
        (i + (bytes.flatMap (cbAt (book (tree t)))).length) bs).map (bytes ++ ·) := by
  induction bytes with
  | nil =>
    intro i
    cases h : walkFrom (tree t).node (tree t).root.toNat (tree t).root.toNat i bs <;>
      simp [h, Except.map]
  | cons b bytes ih =>
    intro i
    obtain ⟨hb, hbytes⟩ := List.forall_mem_cons.mp hb
    rw [List.flatMap_cons, List.append_assoc, walkFrom_code h hb, ih hbytes, List.length_append,
      Nat.add_assoc]
    cases walkFrom (tree t).node (tree t).root.toNat (tree t).root.toNat
      (i + ((cbAt (book (tree t)) b).length + (bytes.flatMap (cbAt (book (tree t)))).length)) bs <;>
      rfl

/-- R156: a present symbol is the lone leaf. -/
theorem root_eq_of_lone {t : FreqTable} (h : (tree t).nsym = 1) {b : Byte} (hb : ftAt t b ≠ 0) :
    (tree t).root.toNat = b.toNat := by
  by_contra hne
  have hcode := cbAt_book_of_nsym_one h b
  rw [if_neg hne] at hcode
  exact cbAt_book_present hb hcode

theorem ftAt_of_nsym_zero {t : FreqTable} (h : (tree t).nsym = 0) (b : Byte) : ftAt t b = 0 := by
  by_contra hb
  exact cbAt_book_present hb (cbAt_book_of_nsym_zero h b)

/-- R173, R243: the codes of bytes that are all the lone leaf, and those bytes. -/
theorem codes_of_lone {t : FreqTable} (h : (tree t).nsym = 1) {bytes : List Byte}
    (hb : ∀ b ∈ bytes, ftAt t b ≠ 0) :
    bytes.flatMap (cbAt (book (tree t))) = List.replicate bytes.length false ∧
      List.replicate bytes.length ((tree t).root.setWidth 8) = bytes := by
  have hroot : ∀ b ∈ bytes, (tree t).root.toNat = b.toNat := fun b hm =>
    root_eq_of_lone h (hb b hm)
  have hcode : ∀ b ∈ bytes, cbAt (book (tree t)) b = [false] := fun b hm => by
    rw [cbAt_book_of_nsym_one h, if_pos (hroot b hm)]
  have hsym : ∀ b ∈ bytes, b = (tree t).root.setWidth 8 := fun b hm =>
    BitVec.eq_of_toNat_eq (by rw [BitVec.toNat_setWidth, hroot b hm, Nat.mod_eq_of_lt b.isLt])
  exact ⟨by rw [List.flatMap_congr hcode, ← List.map_eq_flatMap, List.map_const'],
    (List.eq_replicate_of_mem hsym).symm⟩

/-- R246: the walk gives back the bytes whose codes it reads. -/
theorem walk_codes {t : FreqTable} {bytes : List Byte} (hb : ∀ b ∈ bytes, ftAt t b ≠ 0) :
    walk (tree t) (bytes.flatMap (cbAt (book (tree t)))) = .ok bytes := by
  rcases nsym_cases (tree t) with h0 | h1 | h2
  · obtain rfl : bytes = [] :=
      List.eq_nil_iff_forall_not_mem.mpr fun b hm => hb b hm (ftAt_of_nsym_zero h0 b)
    exact walk_nil _
  · obtain ⟨hcodes, hbytes⟩ := codes_of_lone h1 hb
    have hwalk := walkLone_replicate ((tree t).root.setWidth 8) bytes.length 0 []
    rw [List.append_nil, ← hcodes, ← walk_of_nsym_one h1, hbytes] at hwalk
    exact hwalk.trans (congrArg Except.ok (List.append_nil bytes))
  · have hwalk := walkFrom_codes h2 hb [] 0
    rw [List.append_nil, ← walk_of_two_le h2, walkFrom, if_pos rfl] at hwalk
    exact hwalk.trans (congrArg Except.ok (List.append_nil bytes))

/-- R200: where XLAT does not raise, every byte has a code. -/
theorem coded_of_xlatFrom {bitCap : Nat} {c : CodeBook} {bytes : List Byte} :
    ∀ {i len : Nat} {bs : List Bool}, xlatFrom bitCap c i len bytes = .ok bs →
      ∀ b ∈ bytes, cbAt c b ≠ [] := by
  induction bytes with
  | nil => intro _ _ _ _ b hb; cases hb
  | cons b rest ih =>
    intro i len bs h
    have hb : cbAt c b ≠ [] := fun hnil => by rw [xlatFrom_uncoded rest hnil] at h; cases h
    have hfit : len + (cbAt c b).length ≤ bitCap := not_lt.mp fun hfull => by
      rw [xlatFrom_full rest hb hfull] at h; cases h
    rw [xlatFrom_fits rest hb hfit] at h
    cases hx : xlatFrom bitCap c (i + 1) (len + (cbAt c b).length) rest with
    | error e => rw [hx] at h; cases h
    | ok out => exact List.forall_mem_cons.mpr ⟨hb, ih hx⟩

/-- R246: WALK inverts XLAT; a tree without symbols codes no byte. -/
theorem walk_of_xlat {t : FreqTable} {bitCap : Nat} {bytes : List Byte} {bs : List Bool}
    (h : xlat bitCap bytes (book (tree t)) = .ok bs) : walk (tree t) bs = .ok bytes := by
  rw [xlatFrom_ok_eq h]
  exact walk_codes fun b hb => cbAt_book_ne_nil_iff.mp (coded_of_xlatFrom h b hb)

theorem exec_walk_ok {s : State} {out : List Byte} (h : walk s.tree s.bits = .ok out) :
    exec .walk s = .next { s.ended 0x09 with outMem := out } :=
  (execWalk_eq s).trans (by rw [h])

/-- Settles O41: code by code the walk returns to the root (`walkFrom_code`). -/
theorem walkInvertsXlat : Obligations.WalkInvertsXlat :=
  ⟨fun _ _ _ _ _ => walk_of_xlat,
    fun _ _ _ htree hb hbits => exec_walk_ok (by rw [htree, hbits, walk_codes hb])⟩

end Sys2Proof.Machine

namespace Sys2Proof.Machine

/-! ### WALK: bits that end no code (R242 to R244) -/

/-- R243: under a lone leaf the first 1 bit raises BAD_BIT at its index. -/
theorem walkLone_badBit (sym : Byte) (i : Nat) (post : List Bool) :
    walkLone sym 0 (List.replicate i false ++ true :: post) =
      .error ⟨.formatError, .badBit, i⟩ := by
  rw [walkLone_replicate, Nat.zero_add]
  rfl

/-- R242: with bits but no tree WALK raises NO_TREE. -/
theorem walk_noTree {n : Tree} (h : n.nsym = 0) {bs : List Bool} (hbs : bs ≠ []) :
    walk n bs = .error ⟨.formatError, .noTree, 0⟩ := by
  rw [walk, if_pos h, if_neg hbs]

/-- Node `id`'s child on the side that bit `b` names (R172). -/
def childOf (n : NodeStore) (id : Nat) (b : Bool) : Nat :=
  if b then (nodeAt n id).r.toNat else (nodeAt n id).l.toNat

theorem follow_cons (n : NodeStore) (id : Nat) (b : Bool) (c : Code) :
    follow n id (b :: c) = follow n (childOf n id b) c := rfl

/-- R240: a step to an Internal node consumes a bit. -/
theorem walkFrom_cons_internal {n : NodeStore} {root cur i : Nat} {b : Bool} {bs : List Bool}
    (h : 256 ≤ childOf n cur b) :
    walkFrom n root cur i (b :: bs) = walkFrom n root (childOf n cur b) (i + 1) bs :=
  if_neg (Nat.not_lt.mpr h)

/-- R240: a step to a leaf emits its symbol and goes back to the root. -/
theorem walkFrom_cons_leaf {n : NodeStore} {root cur i : Nat} {b : Bool} {bs : List Bool}
    (h : childOf n cur b < 256) :
    walkFrom n root cur i (b :: bs) =
      (walkFrom n root root (i + 1) bs).map (BitVec.ofNat 8 (childOf n cur b) :: ·) := by
  have hstep : walkFrom n root cur i (b :: bs) = _ := if_pos h
  rw [hstep]
  cases walkFrom n root root (i + 1) bs <;> rfl

/-- R43 (c): a child of a used Internal node is used, and has a smaller id. -/
theorem childOf_used {t : FreqTable} {id : Nat} (h : 256 ≤ id) (hi : id < 511)
    (hu : (tree t).used id) (b : Bool) :
    childOf (tree t).node id b < id ∧ (tree t).used (childOf (tree t).node id b) := by
  obtain ⟨-, hl, hr, hul, hur, -⟩ := tree_children h hi hu
  cases b
  · exact ⟨hl, hul⟩
  · exact ⟨hr, hur⟩

/-- R42: below a leaf there is no node, so no path leads from it to a leaf. -/
theorem follow_from_leaf {t : FreqTable} {id : Nat} (h : id < 256) {c : Code} (hc : c ≠ []) :
    256 ≤ follow (tree t).node id c := by
  have hout : ∀ b, childOf (tree t).node 511 b = 511 := by
    intro b
    have hnode : nodeAt (tree t).node 511 = Node.unused := dif_neg (lt_irrefl 511)
    cases b <;> (rw [childOf, hnode]; rfl)
  have hstay : ∀ c, follow (tree t).node 511 c = 511 := by
    intro c
    induction c with
    | nil => rfl
    | cons b c ih => rw [follow_cons, hout, ih]
  obtain ⟨hl, hr⟩ := (tree_shaped t).leaf id h
  match c with
  | b :: c =>
    have hchild : childOf (tree t).node id b = 511 := by
      cases b
      · exact congrArg BitVec.toNat hl
      · exact congrArg BitVec.toNat hr
    rw [follow_cons, hchild, hstay]
    decide

/-- R244: bits that lead from a used Internal node part of the way to a leaf end at an Internal
node, which is not the root, as ids fall on the way. -/
theorem walkFrom_part {t : FreqTable} {root : Nat} {d : Code} (hd : d ≠ []) {c : Code} :
    ∀ {cur i : Nat}, 256 ≤ cur → cur < 511 → (tree t).used cur → cur ≤ root →
      (c = [] → cur ≠ root) → follow (tree t).node cur (c ++ d) < 256 →
      walkFrom (tree t).node root cur i c = .error ⟨.formatError, .midPath, i + c.length⟩ := by
  induction c with
  | nil =>
    intro cur i _ _ _ _ hne _
    rw [walkFrom, if_neg (hne rfl)]
    rfl
  | cons b c ih =>
    intro cur i hlo hhi hu hroot _ hleaf
    rw [List.cons_append, follow_cons] at hleaf
    obtain ⟨hsmall, hused⟩ := childOf_used hlo hhi hu b
    have hinner : 256 ≤ childOf (tree t).node cur b := not_lt.mp fun hc => by
      have := follow_from_leaf (t := t) hc (List.append_ne_nil_of_right_ne_nil c hd)
      omega
    rw [walkFrom_cons_internal hinner,
      ih hinner (by omega) hused (by omega) (fun _ => by omega) hleaf,
      List.length_cons, Nat.add_assoc, Nat.add_comm 1]

/-- R43 (c): with two or more symbols the root is a used Internal node. -/
theorem root_internal {t : FreqTable} (h : 2 ≤ (tree t).nsym.toNat) :
    256 ≤ (tree t).root.toNat ∧ (tree t).root.toNat < 511 ∧ (tree t).used (tree t).root.toNat := by
  have hroot := root_eq_last h
  have hn := presentSymbols_length t
  rw [← tree_nsym] at hn
  have hused := (tree_shaped t).internal h (tree t).root.toNat (by omega) (by omega)
  rw [if_pos hroot.le] at hused
  exact ⟨by omega, by omega, hused⟩

/-- R244: from the root, a proper part of a code ends with MID_PATH. -/
theorem walkFrom_root_part {t : FreqTable} (h : 2 ≤ (tree t).nsym.toNat) {b : Byte} {c d : Code}
    (hb : cbAt (book (tree t)) b = c ++ d) (hc : c ≠ []) (hd : d ≠ []) (i : Nat) :
    walkFrom (tree t).node (tree t).root.toNat (tree t).root.toNat i c =
      .error ⟨.formatError, .midPath, i + c.length⟩ := by
  have hcoded : cbAt (book (tree t)) b ≠ [] := fun hnil =>
    hc (List.append_eq_nil_iff.mp (hb.symm.trans hnil)).1
  have hleaf := follow_leafCodes h _ (mem_leafCodes_of_coded hcoded)
  obtain ⟨hlo, hhi, hused⟩ := root_internal h
  rw [hb] at hleaf
  exact walkFrom_part hd hlo hhi hused le_rfl (fun hnil => absurd hnil hc) (hleaf.trans_lt b.isLt)

theorem exec_walk_error {s : State} {e : Raise} (h : walk s.tree s.bits = .error e) :
    exec .walk s = .next { s.failed 0x09 .walk e with outMem := [] } :=
  (execWalk_eq s).trans (by rw [h])

/-- Settles O42: under two or more symbols the whole codes emit their bytes (`walkFrom_codes`), and
the part of a code behind them ends at an Internal node (`walkFrom_root_part`). -/
theorem walkFailsWhereTheBitsEndNoCode : Obligations.WalkFailsWhereTheBitsEndNoCode := by
  intro s
  refine ⟨fun h => exec_walk_ok (by rw [h, walk_nil]), fun h n hbits => exec_walk_ok ?_,
    fun h hbits => exec_walk_error (walk_noTree h hbits),
    fun h i post hbits => exec_walk_error ?_, ?_⟩
  · rw [walk_of_nsym_one (n := s.tree) h, hbits, ← List.append_nil (List.replicate n false),
      walkLone_replicate, walkLone, Except.map, List.append_nil]
    rfl
  · rw [walk_of_nsym_one (n := s.tree) h, hbits, walkLone_badBit]
  · intro t bytes b c d htree h2 hbytes hb hc hd hbits
    have h2' : 2 ≤ (tree t).nsym.toNat := htree ▸ h2
    refine exec_walk_error ?_
    rw [htree, walk_of_two_le h2', hbits, walkFrom_codes h2' hbytes,
      walkFrom_root_part h2' hb hc hd, Nat.zero_add, List.length_append]
    rfl

end Sys2Proof.Machine

namespace Sys2Proof.Machine

/-! ### DECODE (R250 to R258) -/

/-- R251: DECODE's function succeeds where its three stages that can raise do not. -/
theorem decodeBytes_eq_ok_iff {c out : List Byte} : decodeBytes c = .ok out ↔
    ∃ r bs, des c = .ok r ∧ unpack r.pay r.pad = .ok bs ∧ walk (tree r.ft) bs = .ok out := by
  unfold decodeBytes
  cases hd : des c with
  | error e => simp
  | ok r => cases hu : unpack r.pay r.pad <;> simp [hu]

/-- R251: else it fails as the first stage that raises. -/
theorem decodeBytes_eq_error_iff {c : List Byte} {e : Raise} : decodeBytes c = .error e ↔
    des c = .error e ∨ ∃ r, des c = .ok r ∧ (unpack r.pay r.pad = .error e ∨
      ∃ bs, unpack r.pay r.pad = .ok bs ∧ walk (tree r.ft) bs = .error e) := by
  unfold decodeBytes
  cases hd : des c with
  | error e => simp
  | ok r => cases hu : unpack r.pay r.pad <;> simp [hu]

/-- R250, R254, R257: DECODE where `decode(IN)` succeeds. -/
theorem exec_decode_ok {s : State} {bytes : List Byte} (h : decodeBytes s.inMem = .ok bytes) :
    ∃ t, exec .decode s = .next t ∧ t.status = ⟨false, true, .none, s.status.herr⟩ ∧
      t.outMem = bytes ∧ t.cb = s.cb ∧
      ∃ p, des s.inMem = .ok p ∧ t.ft = p.ft ∧ t.pad = p.pad ∧ t.pay = p.pay ∧
        t.tree = tree p.ft ∧ unpack p.pay p.pad = .ok t.bits := by
  obtain ⟨r, bs, hd, hu, hw⟩ := decodeBytes_eq_ok_iff.mp h
  exact ⟨_, execDecode_ok hd hu hw, rfl, rfl, rfl, r, hd, rfl, rfl, rfl, rfl, hu⟩

/-- R302: DES, UNPACK and WALK raise FormatError only. -/
theorem decodeBytes_error_kind {c : List Byte} {e : Raise} (h : decodeBytes c = .error e) :
    e.kind = .formatError := by
  obtain hd | ⟨r, -, hu | ⟨bs, -, hw⟩⟩ := decodeBytes_eq_error_iff.mp h
  · obtain ⟨hkind, hcause⟩ := des_error hd
    have hall : ∀ c ∈ possibleCauses .des, c.kind = .formatError := by decide
    rw [hkind, hall _ hcause]
  · rw [(unpack_error hu).1]
  · obtain ⟨hkind, ⟨-, -, hcause⟩ | hcause⟩ := walk_error hw
    · rw [hkind, hcause]; rfl
    · have hall : ∀ c ∈ [Cause.midPath, .badBit], c.kind = .formatError := by decide
      rw [hkind, hall _ hcause]

/-- R250, R253, R257: DECODE where `decode(IN)` fails. -/
theorem exec_decode_error {s : State} {e : Raise} (h : decodeBytes s.inMem = .error e) :
    ∃ t, exec .decode s = .next t ∧ t.status = ⟨false, true, e.kind, s.status.herr⟩ ∧
      t.errInfo.cause = e.cause ∧ t.errPos = BitVec.ofNat 40 e.pos ∧ t.outMem = [] ∧
      t.cb = s.cb := by
  obtain hd | ⟨r, hd, hu | ⟨bs, hu, hw⟩⟩ := decodeBytes_eq_error_iff.mp h
  · exact ⟨_, execDecode_des hd, rfl, rfl, rfl, rfl, rfl⟩
  · exact ⟨_, execDecode_unpack hd hu, rfl, rfl, rfl, rfl, rfl⟩
  · exact ⟨_, execDecode_walk hd hu hw, rfl, rfl, rfl, rfl, rfl⟩

/-- Settles O48: DECODE ends as `decode` of IN does (`exec_decode_ok`, `exec_decode_error`). -/
theorem decodeIsAFunctionOfTheContainer : Obligations.DecodeIsAFunctionOfTheContainer := by
  refine fun s => ⟨fun bytes h => exec_decode_ok h, fun e h => ?_⟩
  obtain ⟨t, hexec, hstatus, hrest⟩ := exec_decode_error h
  exact ⟨t, hexec, hstatus, decodeBytes_error_kind h, hrest⟩

/-! ### WALK emits keys of the table only (R258) -/

/-- A used leaf slot is that of a present symbol (R152). -/
theorem ftAt_of_used {t : FreqTable} {i : Nat} (h : i < 256) (hu : (tree t).used i) :
    ftAt t (BitVec.ofNat 8 i) ≠ 0 := by
  rw [ftAt_ofNat t h]
  exact (used_leaf t h).mp hu

theorem mem_walkLone {sym b : Byte} {bs : List Bool} : ∀ {i : Nat} {out : List Byte},
    walkLone sym i bs = .ok out → b ∈ out → b = sym := by
  induction bs with
  | nil => intro i out h hb; cases h; cases hb
  | cons x bs ih =>
    intro i out h hb
    rw [walkLone] at h
    split at h
    · cases h
    · split at h
      · next hrest =>
        cases h
        exact (List.mem_cons.mp hb).elim id (ih hrest)
      · cases h

/-- From a used Internal node every step goes to a used node, so each leaf met is present. -/
theorem walkFrom_emits_present {t : FreqTable} {root : Nat} (hlo : 256 ≤ root) (hhi : root < 511)
    (hroot : (tree t).used root) {bs : List Bool} : ∀ {cur i : Nat} {out : List Byte},
    256 ≤ cur → cur < 511 → (tree t).used cur →
    walkFrom (tree t).node root cur i bs = .ok out → ∀ b ∈ out, ftAt t b ≠ 0 := by
  induction bs with
  | nil =>
    intro cur i out _ _ _ h
    rw [walkFrom] at h
    split at h <;> cases h
    exact List.forall_mem_nil _
  | cons x bs ih =>
    intro cur i out hcur hlt hu h
    obtain ⟨hsmall, hused⟩ := childOf_used hcur hlt hu x
    by_cases hleaf : childOf (tree t).node cur x < 256
    · rw [walkFrom_cons_leaf hleaf] at h
      cases hrest : walkFrom (tree t).node root root (i + 1) bs with
      | error e => rw [hrest] at h; cases h
      | ok rest =>
        rw [hrest] at h
        cases h
        exact List.forall_mem_cons.mpr ⟨ftAt_of_used hleaf hused, ih hlo hhi hroot hrest⟩
    · rw [walkFrom_cons_internal (not_lt.mp hleaf)] at h
      exact ih (not_lt.mp hleaf) (by omega) hused h

/-- R258: what WALK emits on the tree of a table is present in the table. -/
theorem walk_emits_present {t : FreqTable} {bs : List Bool} {out : List Byte}
    (h : walk (tree t) bs = .ok out) : ∀ b ∈ out, ftAt t b ≠ 0 := by
  rcases nsym_cases (tree t) with h0 | h1 | h2
  · by_cases hbs : bs = []
    · rw [hbs, walk_nil] at h
      cases h
      exact List.forall_mem_nil _
    · rw [walk_noTree h0 hbs] at h
      cases h
  · rw [walk_of_nsym_one h1] at h
    obtain ⟨hlt, hused, -⟩ := (tree_shaped t).lone (by rw [h1]; rfl)
    intro b hb
    rw [mem_walkLone h hb, ← BitVec.ofNat_toNat]
    exact ftAt_of_used hlt hused
  · rw [walk_of_two_le h2] at h
    obtain ⟨hlo, hhi, hused⟩ := root_internal h2
    exact walkFrom_emits_present hlo hhi hused hlo hhi hused h

/-- Settles O49: DECODE fails as `decode` does, or emits what WALK emits on the tree of FT. -/
theorem decodeFailsOrEmitsKeysOfTheTable : Obligations.DecodeFailsOrEmitsKeysOfTheTable := by
  intro s
  cases h : decodeBytes s.inMem with
  | error e =>
    obtain ⟨t, hexec, hstatus, -, -, hout, -⟩ := exec_decode_error h
    have herr : t.status.err = e.kind := congrArg Status.err hstatus
    exact ⟨t, hexec, .inl ⟨herr.trans (decodeBytes_error_kind h), hout⟩⟩
  | ok bytes =>
    obtain ⟨t, hexec, hstatus, hout, -, r, hd, hft, -⟩ := exec_decode_ok h
    obtain ⟨r', bs, hd', -, hw⟩ := decodeBytes_eq_ok_iff.mp h
    cases hd.symm.trans hd'
    rw [← hft, ← hout] at hw
    exact ⟨t, hexec, .inr ⟨congrArg Status.err hstatus, walk_emits_present hw⟩⟩

/-! ### DECODE after ENCODE (R255) -/

/-- R235: what ENCODE's last stage writes is a container that DES accepts. -/
theorem serializable_freq_pack {bytes : List Byte} {bs : List Bool} (hlen : bytes.length < 2 ^ 32)
    (h : bytes = [] → bs = []) : serializable (freq bytes) (pack bs).2 (pack bs).1 := by
  have hpay := pack_length bs
  constructor
  · by_cases hbs : bs = []
    · exact .inl (by rw [hbs]; rfl)
    · have := List.length_pos_of_ne_nil hbs
      rw [hpay, ceil8]
      exact .inr (by omega)
  · cases bytes with
    | nil => exact .inr (by rw [hpay, h rfl]; rfl)
    | cons b rest => exact .inl ⟨b, (ftAt_freq_ne_zero hlen b).mpr List.mem_cons_self⟩

/-- R221: ENCODE's function succeeds where XLAT does not raise. -/
theorem encodeBytes_eq_ok_iff {bitCap : Nat} {bytes c : List Byte} :
    encodeBytes bitCap bytes = .ok c ↔
      ∃ bs, xlat bitCap bytes (book (tree (freq bytes))) = .ok bs ∧
        ser (freq bytes) (pack bs).2 (pack bs).1 = c := by
  rw [encodeBytes]
  cases xlat bitCap bytes (book (tree (freq bytes))) <;> simp

/-- R255, as functions. -/
theorem decodeBytes_of_encodeBytes {bitCap : Nat} {bytes c : List Byte}
    (hlen : bytes.length < 2 ^ 32) (h : encodeBytes bitCap bytes = .ok c) :
    decodeBytes c = .ok bytes := by
  obtain ⟨bs, hx, rfl⟩ := encodeBytes_eq_ok_iff.mp h
  have hempty : bytes = [] → bs = [] := fun hnil => by
    rw [xlatFrom_ok_eq hx, hnil, List.flatMap_nil]
  exact decodeBytes_eq_ok_iff.mpr ⟨_, bs, des_ser (serializable_freq_pack hlen hempty),
    unpack_pack bs, walk_of_xlat hx⟩

/-- Settles O47: DES inverts SER, UNPACK inverts PACK and WALK inverts XLAT on the same tree
(`decodeBytes_of_encodeBytes`); that ENCODE succeeds is `encodeNeverFails`. -/
theorem decoderInvertsEncoder : Obligations.DecoderInvertsEncoder := by
  refine ⟨fun cap bitCap bytes hlegal hcap => ?_, fun s hlegal hcap => ?_⟩
  · obtain ⟨-, hcap32, -, hbitCap, -⟩ := hlegal
    have hlen : bytes.length < 2 ^ 32 := by omega
    have hx := xlat_book_eq_ok (bitCap := bitCap) hlen (by omega)
    have henc := encodeBytes_eq_ok_iff.mpr ⟨_, hx, rfl⟩
    exact ⟨_, henc, decodeBytes_of_encodeBytes hlen henc⟩
  · obtain ⟨c, t, henc, hexec, hstatus, hout, -, -, -, hbound, -⟩ := encodeNeverFails s hlegal hcap
    have hlen : s.inMem.length < 2 ^ 32 := hcap.trans_lt s.cap.isLt
    refine ⟨c, t, henc, hexec, congrArg Status.err hstatus, hout, hout ▸ hbound, fun r hr => ?_⟩
    have hdec := decodeBytes_of_encodeBytes hlen henc
    rw [← hr] at hdec
    obtain ⟨u, hu, hustatus, huout, -⟩ := exec_decode_ok hdec
    exact ⟨u, hu, congrArg Status.err hustatus, huout⟩

end Sys2Proof.Machine

namespace Sys2Proof.Machine

/-! ### The end of a command (R263, R265 to R267, R305) -/

/-- What a command's end says of its success (R263, R305), with CTRL, which `irq` depends on. -/
structure Record where
  status : Status
  errInfo : ErrInfo
  errPos : Word40
  ctrl : Ctrl
  phase : Phase

def State.record (s : State) : Record := ⟨s.status, s.errInfo, s.errPos, s.ctrl, s.phase⟩

/-- R263, R305: a command but CLR completes without an error, or with a raise of one of its
stages. -/
theorem exec_command_ends {i : Instr} {w : Byte} (h : encode i = .command w) (hc : i ≠ .clr)
    (s : State) : ∃ t, exec i s = .next t ∧ (t.record = (s.ended w).record ∨
      ∃ ph e, Raise.Fits e ph ∧ t.record = (s.failed w ph e).record) := by
  cases i <;> cases h
  case nop => exact ⟨_, rfl, .inl rfl⟩
  case freq => exact ⟨_, execFreq_eq s, .inl rfl⟩
  case tree => exact ⟨_, execTree_eq s, .inl rfl⟩
  case book => exact ⟨_, execBook_eq s, .inl rfl⟩
  case pack => exact ⟨_, execPack_eq s, .inl rfl⟩
  case ser => exact ⟨_, execSer_eq s, .inl rfl⟩
  case xlat =>
    refine ⟨_, execXlat_eq s, ?_⟩
    split
    · exact .inl rfl
    · rename_i e hx
      exact .inr ⟨_, e, xlat_error_fits hx, rfl⟩
  case unpack =>
    refine ⟨_, execUnpack_eq s, ?_⟩
    split
    · exact .inl rfl
    · rename_i e hx
      exact .inr ⟨_, e, unpack_error_fits hx, rfl⟩
  case des =>
    refine ⟨_, execDes_eq s, ?_⟩
    split
    · exact .inl rfl
    · rename_i e hx
      exact .inr ⟨_, e, des_error_fits hx, rfl⟩
  case walk =>
    refine ⟨_, execWalk_eq s, ?_⟩
    split
    · exact .inl rfl
    · rename_i e hx
      exact .inr ⟨_, e, walk_error_fits hx, rfl⟩
  case encode =>
    cases hx : xlat s.bitCap.toNat s.inMem (book (tree (freq s.inMem))) with
    | ok bs => exact ⟨_, execEncode_ok hx, .inl rfl⟩
    | error e => exact ⟨_, execEncode_error hx, .inr ⟨_, e, xlat_error_fits hx, rfl⟩⟩
  case decode =>
    cases hd : des s.inMem with
    | error e => exact ⟨_, execDecode_des hd, .inr ⟨_, e, des_error_fits hd, rfl⟩⟩
    | ok r =>
      cases hu : unpack r.pay r.pad with
      | error e => exact ⟨_, execDecode_unpack hd hu, .inr ⟨_, e, unpack_error_fits hu, rfl⟩⟩
      | ok bs =>
        cases hw : walk (tree r.ft) bs with
        | error e => exact ⟨_, execDecode_walk hd hu hw, .inr ⟨_, e, walk_error_fits hw, rfl⟩⟩
        | ok out => exact ⟨_, execDecode_ok hd hu hw, .inl rfl⟩
  case clr => exact absurd rfl hc

theorem exists_encode_command {i : Instr} (h : isCommand i = true) :
    ∃ w, encode i = .command w := by
  unfold isCommand at h
  split at h
  · exact ⟨_, ‹_›⟩
  · cases h

/-- R302: "no error" is the kind of the cause "no error" only. -/
theorem Cause.kind_eq_none {c : Cause} : c.kind = .none ↔ c = .none := by
  cases c <;> simp [Cause.kind]

theorem Raise.Fits.kind_ne_none {e : Raise} {p : Phase} (h : e.Fits p) : e.kind ≠ .none := by
  rw [h.kind_eq, ne_eq, Cause.kind_eq_none]
  exact h.cause_ne

/-- R51: at a completion `irq` follows IE. -/
theorem State.irq_of_done {s : State} (h : s.status.done = true) : s.irq = s.ctrl.ie := by
  rw [State.irq, h, Bool.true_and]

/-- Settles O17: CLR as R266 says; every other command by `exec_command_ends`. -/
theorem everyCommandCompletes : Obligations.EveryCommandCompletes := by
  intro i s h
  by_cases hc : i = .clr
  · subst hc
    exact ⟨_, rfl, rfl, rfl, rfl, State.irq_of_done rfl, iff_of_true rfl rfl,
      fun _ => ⟨rfl, rfl⟩, rfl⟩
  obtain ⟨w, hw⟩ := exists_encode_command h
  obtain ⟨t, hexec, hrec | ⟨ph, e, hfit, hrec⟩⟩ := exec_command_ends hw hc s
  all_goals
    obtain ⟨hs, hi, hp, hctrl, hph⟩ := Record.mk.inj hrec
    have hirq : t.irq = s.ctrl.ie :=
      (State.irq_of_done (congrArg Status.done hs)).trans (congrArg Ctrl.ie hctrl)
    have hherr : t.status.herr = s.status.herr := by simp [hs]
    rw [if_neg hc]
    refine ⟨t, hexec, congrArg Status.busy hs, congrArg Status.done hs, hph, hirq, ?_, ?_, hherr⟩
  · rw [hs, hi]; exact iff_of_true rfl rfl
  · exact fun _ => ⟨congrArg ErrInfo.phase hi, hp⟩
  · rw [hs, hi]; exact iff_of_false hfit.kind_ne_none hfit.cause_ne
  · exact fun hn => absurd ((congrArg Status.err hs).symm.trans hn) hfit.kind_ne_none

/-- Settles O21: NOP has no stage. -/
theorem nopOnlyStartsAndCompletes : Obligations.NopOnlyStartsAndCompletes := fun _ => rfl

/-- Settles O22: what CLR does not write are CTRL, the parameters and what is outside HFC. -/
theorem clrRestoresTheResetState : Obligations.ClrRestoresTheResetState := fun _ => rfl

/-! ### The started command (R260, R262, R267) -/

theorem runCommand_of_ok {s : State} {i : Instr} (h : decodeCommand s.cmd = .ok i) :
    runCommand s = exec i s := by
  rw [runCommand, h]

/-- R267: an illegal command word raises right after its start, in no stage. -/
theorem runCommand_of_illegal {s : State} (h : (decodeCommand s.cmd).toOption = none) :
    runCommand s = .next (s.failed s.cmd .idle ⟨.usageError, .badOpcode, 0⟩) := by
  cases hd : decodeCommand s.cmd with
  | ok i => rw [hd] at h; cases h
  | error x =>
    have hph := firstPhase_of_illegal hd
    simp only [runCommand, hd, illegalCommand, command_eq, finish_raised, State.raise, State.failed,
      State.start_phase, hph]
    rfl

/-- Settles O8: a step that may complete runs the command (`step_busy_run`). -/
theorem stepRunsTheStartedCommand : Obligations.StepRunsTheStartedCommand :=
  fun s _ hb hl hd => (step_busy_run hb hl).trans
    (runCommand_of_ok (s := { s with pace := s.pace.tail }) hd)

/-- Settles O9: the same step, with a word that names no command. -/
theorem illegalCommandWordEndsWithUsageError : Obligations.IllegalCommandWordEndsWithUsageError :=
  fun s hb hl hd => (step_busy_run hb hl).trans
    (runCommand_of_illegal (s := { s with pace := s.pace.tail }) hd)

/-! ### Every step goes on (R264, R281, R368) -/

/-- An instruction is a command, or a transaction that is held or performed at once. -/
theorem exec_eq_transact {i : Instr} (h : isCommand i = false) :
    ∃ b perform, ∀ s, exec i s = transact b perform s := by
  cases i
  case nop | freq | tree | book | xlat | pack | unpack | ser | des | walk | encode | decode | clr =>
    cases h
  all_goals exact ⟨_, _, fun _ => rfl⟩

theorem exec_next (i : Instr) (s : State) : ∃ t, exec i s = .next t := by
  cases h : isCommand i with
  | true =>
    obtain ⟨w, body, hx⟩ := exec_command h
    exact ⟨_, (hx s).trans (command_eq w body s)⟩
  | false =>
    obtain ⟨b, perform, hx⟩ := exec_eq_transact h
    exact ⟨_, (hx s).trans (transact_eq b perform s)⟩

theorem accept_of_ok {x : Txn} {i : Instr} (h : decodeTxn x = .ok i) (s : State) :
    accept x s = exec i s := by
  rw [accept, h]

theorem accept_next (x : Txn) (s : State) : ∃ t, accept x s = .next t := by
  cases h : decodeTxn x with
  | ok i => rw [accept_of_ok h]; exact exec_next i s
  | error e => rw [accept, h]; exact ⟨_, transact_eq false State.refuse s⟩

theorem servePort_next (s : State) : ∃ t, servePort s = .next t := by
  unfold servePort
  split
  · exact ⟨_, rfl⟩
  · exact ⟨_, rfl⟩
  · split
    · split
      · exact ⟨_, rfl⟩
      · exact ⟨_, rfl⟩
    · exact accept_next _ _

theorem step_next (s : State) : ∃ t, step s = .next t := by
  cases hb : s.status.busy with
  | false => rw [step_idle hb]; exact servePort_next s
  | true =>
    by_cases hl : s.pace.head? = some true
    · obtain ⟨later, hl⟩ := List.head?_eq_some_iff.mp hl
      rw [step_busy_wait hb hl]
      exact servePort_next _
    · obtain ⟨u, hu, -⟩ := step_completes hb hl
      exact ⟨u, hu⟩

/-- Settles O11: a command completes and a transaction is held or performed, so a step goes on. -/
theorem everyStepAnswersNext : Obligations.EveryStepAnswersNext := ⟨step_next, exec_next⟩

/-! ### What the port accepts (R261, R280) -/

/-- R22, R261: the read of STATUS answers in every state. -/
theorem exec_rdCsr_status (s : State) :
    exec (.rdCsr 0x01) s = .next (s.answerData ⟨8, s.status.word⟩) :=
  transact_statusRead _ s

/-- Settles O7: what is not held is accepted (`servePort_accept`), and the read of STATUS never is
held. -/
theorem stepAcceptsWhatIsPresented : Obligations.StepAcceptsWhatIsPresented := by
  intro s x rest hp
  constructor
  · intro hb
    have hstep : step s = accept x { s with port := rest } :=
      (step_idle hb).trans (servePort_accept hp (by simp [State.holds, hb]))
    exact ⟨fun i hi => hstep.trans (accept_of_ok hi _),
      fun hn => hstep.trans (accept_illegal (s := { s with port := rest }) hb hn)⟩
  · intro later hb hl hh hi
    have hx : x.isStatusRead = true := (isStatusRead_iff x).mpr ⟨hh, hi⟩
    have hstep : step s = accept x { s with pace := later, port := rest } :=
      (step_busy_wait hb hl).trans
        (servePort_accept (s := { s with pace := later }) hp (by simp [State.holds, hx]))
    have hd : decodeTxn x = .ok (.rdCsr 0x01) := by rw [decodeTxn, if_pos hh, hi]
    exact ⟨hstep, hstep.trans ((accept_of_ok hd _).trans (exec_rdCsr_status _))⟩

/-- R280: `u` holds an answer, and only a refusal of `s` answers ERR. -/
def State.AnsweredFrom (s u : State) : Prop :=
  u.answer ≠ none ∧ (u.answer = some .err → u = s.refuse)

theorem refuse_answeredFrom (s : State) : s.AnsweredFrom s.refuse :=
  ⟨Option.some_ne_none _, fun _ => rfl⟩

theorem reply_answeredFrom (d : Option RData) (s : State) : s.AnsweredFrom (s.reply d) := by
  cases d with
  | none => exact refuse_answeredFrom s
  | some d => exact ⟨Option.some_ne_none _, fun h => by cases h⟩

theorem settle_answeredFrom (t : Option State) (s : State) : s.AnsweredFrom (s.settle t) := by
  cases t with
  | none => exact refuse_answeredFrom s
  | some t => exact ⟨Option.some_ne_none _, fun h => by cases h⟩

/-- While idle a transaction is performed, and its performance answers. -/
theorem transact_answeredFrom {b : Bool} {f : State → State} {s u : State}
    (hb : s.status.busy = false) (hf : s.AnsweredFrom (f s)) (h : transact b f s = .next u) :
    s.AnsweredFrom u := by
  rw [transact_idle hb] at h
  cases h
  exact hf

theorem exec_answeredFrom {i : Instr} {s u : State} (hb : s.status.busy = false)
    (hi : isCommand i = false) (h : exec i s = .next u) : s.AnsweredFrom u := by
  cases i
  case nop | freq | tree | book | xlat | pack | unpack | ser | des | walk | encode | decode | clr =>
    cases hi
  case wrCsr | wrFt => exact transact_answeredFrom hb (settle_answeredFrom _ s) h
  all_goals exact transact_answeredFrom hb (reply_answeredFrom _ s) h

theorem isCommand_of_decodeTxn {x : Txn} {i : Instr} (h : decodeTxn x = .ok i) :
    isCommand i = false := by
  rw [isCommand, encode_of_decodeTxn h]
  rfl

/-- Settles O59: a legal transaction is answered as `reply` or `settle` do, an illegal one
refused. -/
theorem refusedTransactionChangesOnlyHerr : Obligations.RefusedTransactionChangesOnlyHerr := by
  intro x s u hb h
  cases hd : decodeTxn x with
  | ok i =>
    rw [accept_of_ok hd] at h
    exact exec_answeredFrom hb (isCommand_of_decodeTxn hd) h
  | error e =>
    rw [accept_illegal hb (by rw [hd]; rfl)] at h
    cases h
    exact refuse_answeredFrom s

/-! ### Registers through the port (R270, R271) -/

/-- R270: the read of a register by its number. -/
theorem exec_rdCsr_number {s : State} (hb : s.status.busy = false) (c : Csr) :
    exec (.rdCsr c.number) s = .next (s.reply (readCsr c s)) := by
  rw [exec, execRdCsr, transact_idle hb, readCsrAt, csrOf_number, Option.bind_some]

/-- R271: the write of a register by its number. -/
theorem exec_wrCsr_number {s : State} (hb : s.status.busy = false) (c : Csr) (d : Word40) :
    exec (.wrCsr c.number d) s = .next (s.settle (writeCsr c d s)) := by
  rw [exec, execWrCsr, transact_idle hb, writeCsrAt, csrOf_number, Option.bind_some]

/-- Settles O50: register by register; from 0x11 on no register is read. -/
theorem registerReads : Obligations.RegisterReads := by
  refine ⟨exec_rdCsr_status, fun s hb => ?_⟩
  have hread := exec_rdCsr_number hb
  refine ⟨hread .cmd, hread .errInfo, hread .errPos, hread .ctrl, hread .inLen, hread .outLen,
    hread .bitLen, hread .payLen, hread .pad, hread .nsym, hread .root, hread .cap, hread .bitCap,
    fun index hi => ?_⟩
  obtain hpush | habove := hi
  · fin_cases hpush
    exacts [hread .inPush, hread .bitsPush, hread .payPush]
  · exact (registersAboveBitCapDoNotExist index 0 s habove hb).1

/-- R39: PHASE at the start of a command, as a number. -/
theorem firstPhase_code (w : Byte) : (firstPhase w).code.toNat =
    if w.toNat ≤ 9 then w.toNat
    else if w.toNat = 0x0A then 1 else if w.toNat = 0x0B then 8 else 0 := by
  revert w; decide +kernel

/-- Settles O16: the write to CMD is `State.start`, answered OK. -/
theorem commandWriteStartsTheCommand : Obligations.CommandWriteStartsTheCommand := by
  intro d s hb
  have hcode := firstPhase_code (d.setWidth 8)
  rw [BitVec.toNat_setWidth] at hcode
  exact ⟨_, exec_wrCsr_number hb .cmd d, rfl, rfl, hcode⟩

/-- R22: each of DONE and HERR stays where no 1 is written. -/
theorem Status.writeOneToClear_eq (t : Status) (d : Word40) : t.writeOneToClear d =
    { t with done := t.done && !d.getLsbD 1, herr := t.herr && !d.getLsbD 5 } := by
  rw [Status.writeOneToClear]
  cases d.getLsbD 1 <;> cases d.getLsbD 5 <;> simp

/-- Settles O52: register by register. -/
theorem registerWrites : Obligations.RegisterWrites := by
  intro s d hb
  have hwrite := fun c => exec_wrCsr_number hb c d
  refine ⟨?_, hwrite .ctrl, fun hd => ⟨d.setWidth 3, ?_, ?_⟩, fun hd => ?_, fun index hi => ?_⟩
  · rw [← Status.writeOneToClear_eq]
    exact hwrite .status
  · rw [BitVec.toNat_setWidth]
    omega
  · refine (hwrite .pad).trans ?_
    rw [writeCsr, if_pos hd]
    rfl
  · refine (hwrite .pad).trans ?_
    rw [writeCsr, if_neg (Nat.not_le.mpr hd), settle_none]
  · fin_cases hi
    exacts [hwrite .errInfo, hwrite .errPos, hwrite .outLen, hwrite .nsym, hwrite .root,
      hwrite .cap, hwrite .bitCap]

section Memories

variable {α : Type} {mem : List α} {store : List α → State} {s : State} {c : Csr} {d : Word40}

/-- R26, R271: a register whose write truncates a memory; the units below the new length stay. -/
theorem exec_wrCsr_truncate (hb : s.status.busy = false)
    (hc : writeCsr c d s = (truncate mem d.toNat).map store) :
    (d.toNat ≤ mem.length → ∃ m, exec (.wrCsr c.number d) s = .next (store m).answerOk ∧
      m.length = d.toNat ∧ ∀ a < d.toNat, m[a]? = mem[a]?) ∧
    (mem.length < d.toNat → exec (.wrCsr c.number d) s = .next s.refuse) := by
  rw [exec_wrCsr_number hb, hc]
  refine ⟨fun hle => ⟨mem.take d.toNat, ?_, ?_, fun a ha => ?_⟩, fun hlt => ?_⟩
  · rw [truncate_eq_some.mpr ⟨hle, rfl⟩, Option.map_some, settle_some]
  · exact List.length_take_of_le hle
  · exact List.getElem?_take_of_lt ha
  · rw [truncate_eq_none.mpr hlt, Option.map_none, settle_none]

/-- R33 to R35, R271: a push register stores its unit at the length and nowhere else. -/
theorem exec_wrCsr_push {capacity : Nat} {x : α} (hb : s.status.busy = false)
    (hc : writeCsr c d s = (push mem capacity x).map store) :
    (mem.length < capacity → ∃ m, exec (.wrCsr c.number d) s = .next (store m).answerOk ∧
      m.length = mem.length + 1 ∧ m[mem.length]? = some x ∧
      ∀ a, a ≠ mem.length → m[a]? = mem[a]?) ∧
    (capacity ≤ mem.length → exec (.wrCsr c.number d) s = .next s.refuse) := by
  rw [exec_wrCsr_number hb, hc]
  refine ⟨fun hlt => ⟨mem ++ [x], ?_, ?_, ?_, fun a ha => ?_⟩, fun hle => ?_⟩
  · rw [push_eq_some.mpr ⟨hlt, rfl⟩, Option.map_some, settle_some]
  · exact List.length_append
  · exact List.getElem?_concat_length
  · obtain hbelow | habove := Nat.lt_or_gt_of_ne ha
    · exact List.getElem?_append_left hbelow
    · rw [List.getElem?_eq_none (by simp; omega), List.getElem?_eq_none (by omega)]
  · rw [push_eq_none.mpr hle, Option.map_none, settle_none]

end Memories

/-- Settles O53: the three lengths, each by `exec_wrCsr_truncate`. -/
theorem lengthWritesTruncate : Obligations.LengthWritesTruncate := by
  intro s d hb
  obtain ⟨hin, hin'⟩ := exec_wrCsr_truncate (c := .inLen) (d := d) hb rfl
  obtain ⟨hbits, hbits'⟩ := exec_wrCsr_truncate (c := .bitLen) (d := d) hb rfl
  obtain ⟨hpay, hpay'⟩ := exec_wrCsr_truncate (c := .payLen) (d := d) hb rfl
  exact ⟨hin, hin', hbits, hbits', hpay, hpay'⟩

/-- Settles O54: the three push registers, each by `exec_wrCsr_push`. -/
theorem pushesAppendAtTheLength : Obligations.PushesAppendAtTheLength := by
  intro s d hb
  obtain ⟨hin, hin'⟩ := exec_wrCsr_push (c := .inPush) (d := d) hb rfl
  obtain ⟨hbits, hbits'⟩ := exec_wrCsr_push (c := .bitsPush) (d := d) hb rfl
  obtain ⟨hpay, hpay'⟩ := exec_wrCsr_push (c := .payPush) (d := d) hb rfl
  exact ⟨hin, hin', hbits, hbits', hpay, hpay'⟩

/-! ### Memories and tables through the port (R272 to R277) -/

theorem readByte_of_lt {mem : List Byte} {index : Word40} (h : index.toNat < mem.length) :
    readByte mem index = some ⟨8, mem.getD index.toNat 0⟩ := by
  rw [readByte, List.getElem?_eq_getElem h, Option.map_some, List.getD_eq_getElem _ _ h]

theorem readByte_of_le {mem : List Byte} {index : Word40} (h : mem.length ≤ index.toNat) :
    readByte mem index = none := by
  rw [readByte, List.getElem?_eq_none h, Option.map_none]

theorem readBit_of_lt {mem : List Bool} {index : Word40} (h : index.toNat < mem.length) :
    readBit mem index = some ⟨1, BitVec.ofBool (mem.getD index.toNat false)⟩ := by
  rw [readBit, List.getElem?_eq_getElem h, Option.map_some, List.getD_eq_getElem _ _ h]

theorem readBit_of_le {mem : List Bool} {index : Word40} (h : mem.length ≤ index.toNat) :
    readBit mem index = none := by
  rw [readBit, List.getElem?_eq_none h, Option.map_none]

/-! One equation per transaction: what it answers while idle. -/

section Idle

variable {s : State} (hb : s.status.busy = false) (index data : Word40)

include hb

theorem exec_rdIn_idle : exec (.rdIn index) s = .next (s.reply (readByte s.inMem index)) :=
  transact_idle hb false _

theorem exec_rdOut_idle : exec (.rdOut index) s = .next (s.reply (readByte s.outMem index)) :=
  transact_idle hb false _

theorem exec_rdBits_idle : exec (.rdBits index) s = .next (s.reply (readBit s.bits index)) :=
  transact_idle hb false _

theorem exec_rdPay_idle : exec (.rdPay index) s = .next (s.reply (readByte s.pay index)) :=
  transact_idle hb false _

theorem exec_rdFt_idle : exec (.rdFt index) s = .next (s.reply (readFt s.ft index)) :=
  transact_idle hb false _

theorem exec_wrFt_idle :
    exec (.wrFt index data) s = .next (s.settle (writeFt index data s)) :=
  transact_idle hb false _

theorem exec_rdNode_idle : exec (.rdNode index) s = .next (s.reply (readNode s.node index)) :=
  transact_idle hb false _

theorem exec_rdCb_idle : exec (.rdCb index) s = .next (s.reply (readCb s.cb index)) :=
  transact_idle hb false _

end Idle

/-- Settles O55: the read of each memory, below its length and from it on. -/
theorem memoryReadsAreBoundedByTheLength : Obligations.MemoryReadsAreBoundedByTheLength := by
  intro s index hb
  rw [exec_rdIn_idle hb, exec_rdOut_idle hb, exec_rdBits_idle hb, exec_rdPay_idle hb]
  refine ⟨fun h => ?_, fun h => ?_, fun h => ?_, fun h => ?_, fun h => ?_, fun h => ?_,
    fun h => ?_, fun h => ?_⟩
  · rw [readByte_of_lt h, reply_some]
  · rw [readByte_of_le h, reply_none]
  · rw [readByte_of_lt h, reply_some]
  · rw [readByte_of_le h, reply_none]
  · rw [readBit_of_lt h, reply_some]
  · rw [readBit_of_le h, reply_none]
  · rw [readByte_of_lt h, reply_some]
  · rw [readByte_of_le h, reply_none]

/-- An index of at most 255 names the symbol of its low byte. -/
theorem toNat_setWidth_index {index : Word40} (h : index.toNat ≤ 255) :
    (index.setWidth 8).toNat = index.toNat := by
  rw [BitVec.toNat_setWidth, Nat.mod_eq_of_lt (by omega)]

theorem readFt_of_le {t : FreqTable} {index : Word40} (h : index.toNat ≤ 255) :
    readFt t index = some ⟨32, ftAt t (index.setWidth 8)⟩ := by
  simp only [readFt, ftAt, toNat_setWidth_index h]
  rw [Vector.getElem?_eq_getElem (by omega), Option.map_some]

theorem readFt_of_ge {t : FreqTable} {index : Word40} (h : 256 ≤ index.toNat) :
    readFt t index = none := by
  rw [readFt, Vector.getElem?_eq_none h, Option.map_none]

theorem writeFt_of_le {index : Word40} (h : index.toNat ≤ 255) (data : Word40) (s : State) :
    writeFt index data s =
      some { s with ft := ftSet s.ft (index.setWidth 8) (data.setWidth 32) } := by
  simp only [ftSet, toNat_setWidth_index h]
  exact dif_pos (by omega)

theorem writeFt_of_ge {index : Word40} (h : 256 ≤ index.toNat) (data : Word40) (s : State) :
    writeFt index data s = none :=
  dif_neg (by omega)

/-- Settles O56: the write is that of the entry of one symbol (`writeFt_of_le`). -/
theorem frequencyTableThroughThePort : Obligations.FrequencyTableThroughThePort := by
  intro s index data hb
  rw [exec_rdFt_idle hb, exec_wrFt_idle hb]
  constructor
  · intro h
    rw [readFt_of_le h, writeFt_of_le h]
    exact ⟨rfl, _, rfl, ftAt_set_self s.ft _ _, fun b hne => ftAt_set_ne s.ft _ hne⟩
  · intro h
    rw [readFt_of_ge h, writeFt_of_ge h]
    exact ⟨rfl, rfl⟩

theorem readNode_of_lt {n : NodeStore} {index : Word40} (h : index.toNat < 511) :
    readNode n index = some ⟨58, (nodeAt n index.toNat).word⟩ := by
  rw [readNode, Vector.getElem?_eq_getElem h, Option.map_some, nodeAt_lt h]

theorem readNode_of_ge {n : NodeStore} {index : Word40} (h : 511 ≤ index.toNat) :
    readNode n index = none := by
  rw [readNode, Vector.getElem?_eq_none h, Option.map_none]

theorem readCb_of_le {cb : CodeBook} {index : Word40} (h : index.toNat ≤ 255) :
    readCb cb index = some ⟨263, codeWord (cbAt cb (index.setWidth 8))⟩ := by
  simp only [readCb, cbAt, toNat_setWidth_index h]
  rw [Vector.getElem?_eq_getElem (by omega), Option.map_some]

theorem readCb_of_ge {cb : CodeBook} {index : Word40} (h : 256 ≤ index.toNat) :
    readCb cb index = none := by
  rw [readCb, Vector.getElem?_eq_none h, Option.map_none]

/-- An entry of the node store as read, field by field (R126). -/
theorem Node.word_toNat (n : Node) :
    n.word.toNat = n.w.toNat + n.l.toNat * 2 ^ 40 + n.r.toNat * 2 ^ 49 := by
  simp only [Node.word, toNat_append_add]
  omega

/-- Settles O57: an entry's word field by field (`Node.word_toNat`), a code's as it stands. -/
theorem treeAndCodebookThroughThePort : Obligations.TreeAndCodebookThroughThePort := by
  intro s index hb
  rw [exec_rdNode_idle hb, exec_rdCb_idle hb]
  refine ⟨fun h => ⟨_, ?_, (nodeAt s.node index.toNat).word_toNat⟩, fun h => ?_, fun h => ?_,
    fun h => ?_⟩
  · rw [readNode_of_lt (Nat.lt_succ_of_le h), reply_some]
  · rw [readNode_of_ge h, reply_none]
  · rw [readCb_of_le h, reply_some]
  · rw [readCb_of_ge h, reply_none]

end Sys2Proof.Machine

namespace Sys2Proof.Machine

/-! ### What DES accepts (R230) -/

/-- R235: DES accepts the containers of serializable contents only (checks 7 and 8 of R230). -/
theorem serializable_of_des {c : List Byte} {r : Parsed} (h : des c = .ok r) :
    serializable r.ft r.pad r.pay := by
  have hc := (ser_eq_container r.ft r.pad r.pay).symm.trans (ser_of_des h)
  have hlen : (entriesOf r.ft).length ≤ 256 :=
    (length_presentSymbols r.ft).symm.trans_le (presentSymbols_length r.ft)
  obtain ⟨hbyte, -⟩ := container_tail (entriesOf r.ft) (r.pad.setWidth 8) r.pay
  rw [← hc, des_container _ _ _ hlen (entriesOf_good r.ft), desTail_eq_ok_iff, hbyte,
    container_length] at h
  obtain ⟨-, hpad, hempty, -⟩ := h
  constructor
  · have hwide : (r.pad.setWidth 8).setWidth 3 = r.pad := by
      rw [BitVec.setWidth_setWidth_of_le r.pad (by decide), BitVec.setWidth_eq]
    exact hpad.imp (fun h0 => hwide.symm.trans (congrArg (BitVec.setWidth 3) h0))
      fun hlt => by omega
  · refine or_iff_not_imp_left.mpr fun hnone => ?_
    have hentries : (entriesOf r.ft).length = 0 := by
      rw [← length_presentSymbols, presentSymbols_eq_nil.mpr (not_exists_not.mp hnone),
        List.length_nil]
    have := hempty hentries
    omega

/-- R253: DECODE's UNPACK never raises, as check 7 of R230 has refused padding without a payload. -/
theorem unpack_of_des {c : List Byte} {r : Parsed} (h : des c = .ok r) :
    ∃ bs, unpack r.pay r.pad = .ok bs := by
  obtain ⟨hpad, -⟩ := serializable_of_des h
  exact ⟨_, unpack_eq_ok (hpad.symm.imp_left List.ne_nil_of_length_pos)⟩

/-- R253: DECODE's WALK never finds bits without a tree: a container without symbols has no
payload (check 8), so UNPACK yields no bits. -/
theorem walk_error_of_des {c : List Byte} {r : Parsed} {bs : List Bool} {e : Raise}
    (hd : des c = .ok r) (hu : unpack r.pay r.pad = .ok bs)
    (hw : walk (tree r.ft) bs = .error e) : e.cause ∈ [Cause.midPath, .badBit] := by
  obtain ⟨-, ⟨hnsym, hbits, -⟩ | hcause⟩ := walk_error hw
  · obtain ⟨hpad, ⟨b, hb⟩ | hpay⟩ := serializable_of_des hd
    · exact absurd (ftAt_of_nsym_zero hnsym b) hb
    · have hp : r.pad = 0 := hpad.resolve_right (by omega)
      rw [unpack_eq_ok (.inr hp), List.length_eq_zero_iff.mp hpay, List.flatMap_nil,
        List.take_nil] at hu
      exact absurd (Except.ok.inj hu).symm hbits
  · exact hcause

/-! ### How a command fails (R302, R303, R306) -/

/-- R306: the destination of a stage that can raise is empty; no other stage raises (R302). -/
def Phase.Emptied : Phase → State → Prop
  | .xlat, t | .unpack, t => t.bits = []
  | .des, t => (∀ b, ftAt t.ft b = 0) ∧ t.pad = 0 ∧ t.pay = []
  | .walk, t => t.outMem = []
  | _, _ => True

/-- Command `i` has ended in `t` with the raise `e` of its stage `ph`: the record is the raise's
(R305), its cause is listed for the command (R303), and the destinations are empty (R306). -/
structure State.FailedIn (t : State) (i : Instr) (ph : Phase) (e : Raise) : Prop where
  fits : e.Fits ph
  listed : e.cause ∈ possibleCauses i
  err : t.status.err = e.kind
  errInfo : t.errInfo = ⟨e.cause, ph⟩
  emptied : ph.Emptied t
  outMem : i = .encode ∨ i = .decode → t.outMem = []

theorem walk_error_listed {n : Tree} {bs : List Bool} {e : Raise} (h : walk n bs = .error e) :
    e.cause ∈ possibleCauses .walk := by
  obtain ⟨-, ⟨-, -, hc⟩ | hc⟩ := walk_error h
  · rw [hc]; decide
  · have hsub : [Cause.midPath, .badBit] ⊆ possibleCauses .walk := by decide
    exact hsub hc

/-- R303, R306: a command ends without an error, or as one of its stages fails. -/
theorem exec_command_fails {i : Instr} {s t : State} (hi : isCommand i = true)
    (h : exec i s = .next t) :
    (t.status.err = .none ∧ t.errInfo = ⟨.none, .idle⟩) ∨ ∃ ph e, t.FailedIn i ph e := by
  cases i
  case rdCsr | wrCsr | rdIn | rdOut | rdFt | wrFt | rdNode | rdCb | rdBits | rdPay => cases hi
  case nop | clr | freq | tree | book | pack | ser => cases h; exact .inl ⟨rfl, rfl⟩
  case xlat =>
    cases (execXlat_eq s).symm.trans h
    split
    · exact .inl ⟨rfl, rfl⟩
    · rename_i e hx
      exact .inr ⟨.xlat, e, xlat_error_fits hx, (xlatFrom_error hx).2, rfl, rfl, rfl, nofun⟩
  case unpack =>
    cases (execUnpack_eq s).symm.trans h
    split
    · exact .inl ⟨rfl, rfl⟩
    · rename_i e hx
      have hc : e.cause ∈ possibleCauses .unpack := by rw [(unpack_error hx).1]; decide
      exact .inr ⟨.unpack, e, unpack_error_fits hx, hc, rfl, rfl, rfl, nofun⟩
  case des =>
    cases (execDes_eq s).symm.trans h
    split
    · exact .inl ⟨rfl, rfl⟩
    · rename_i e hx
      exact .inr ⟨.des, e, des_error_fits hx, (des_error hx).2, rfl, rfl, ⟨ftAt_empty, rfl, rfl⟩,
        nofun⟩
  case walk =>
    cases (execWalk_eq s).symm.trans h
    split
    · exact .inl ⟨rfl, rfl⟩
    · rename_i e hx
      exact .inr ⟨.walk, e, walk_error_fits hx, walk_error_listed hx, rfl, rfl, rfl, nofun⟩
  case encode =>
    cases hx : xlat s.bitCap.toNat s.inMem (book (tree (freq s.inMem))) with
    | ok bs => cases (execEncode_ok hx).symm.trans h; exact .inl ⟨rfl, rfl⟩
    | error e =>
      cases (execEncode_error hx).symm.trans h
      exact .inr ⟨.xlat, e, xlat_error_fits hx, (xlatFrom_error hx).2, rfl, rfl, rfl, fun _ => rfl⟩
  case decode =>
    cases hd : des s.inMem with
    | error e =>
      cases (execDecode_des hd).symm.trans h
      have hsub : possibleCauses .des ⊆ possibleCauses .decode := by decide
      exact .inr ⟨.des, e, des_error_fits hd, hsub (des_error hd).2, rfl, rfl,
        ⟨ftAt_empty, rfl, rfl⟩, fun _ => rfl⟩
    | ok r =>
      obtain ⟨bs, hu⟩ := unpack_of_des hd
      cases hw : walk (tree r.ft) bs with
      | error e =>
        cases (execDecode_walk hd hu hw).symm.trans h
        have hsub : [Cause.midPath, .badBit] ⊆ possibleCauses .decode := by decide
        exact .inr ⟨.walk, e, walk_error_fits hw, hsub (walk_error_of_des hd hu hw), rfl, rfl,
          rfl, fun _ => rfl⟩
      | ok out => cases (execDecode_ok hd hu hw).symm.trans h; exact .inl ⟨rfl, rfl⟩

/-- Settles O18: without an error the record is clear; a failing stage's raise is listed
(`exec_command_fails`). -/
theorem commandsEndWithTheirCausesOnly : Obligations.CommandsEndWithTheirCausesOnly := by
  intro i s t hi h
  obtain ⟨herr, hinfo⟩ | ⟨ph, e, hf⟩ := exec_command_fails hi h
  · rw [herr, hinfo]
    exact ⟨.inl rfl, rfl, List.mem_singleton_self _⟩
  · rw [hf.err, hf.errInfo]
    exact ⟨.inr hf.listed, hf.fits.kind_eq, hf.fits.phase_mem⟩

/-- Settles O19: an error is a failing stage's (`exec_command_fails`), which empties its
destination. -/
theorem failedStageLeavesItsDestinationEmpty :
    Obligations.FailedStageLeavesItsDestinationEmpty := by
  intro i s t hi h hne
  obtain ⟨herr, -⟩ | ⟨ph, e, hf⟩ := exec_command_fails hi h
  · exact absurd herr hne
  have hempty := hf.emptied
  rw [hf.errInfo]
  refine ⟨?_, ?_, ?_⟩
  · rintro (hi | hi | rfl)
    · exact hf.outMem (.inl hi)
    · exact hf.outMem (.inr hi)
    · exact hempty
  · rintro (rfl | rfl) <;> exact hempty
  · rintro rfl
    exact hempty

end Sys2Proof.Machine

namespace Sys2Proof.Machine

/-! ### BUSY ends (R368, R370) -/

/-- No instruction writes the free `pace` (log 3). -/
theorem pace_notMem_writes (i : Instr) : Part.pace ∉ writes i := by
  cases i
  case wrCsr index data =>
    cases hc : csrOf index with
    | none => simp [writes, hc]
    | some c => cases c <;> simp [writes, hc, csrWrites, lifeCycle]
  all_goals simp [writes, lifeCycle]

theorem accept_pace {x : Txn} {s t : State} (h : accept x s = .next t) : t.pace = s.pace := by
  cases hd : decodeTxn x with
  | ok i =>
    rw [accept_of_ok hd] at h
    exact instructionsWriteOnlyTheirParts i s t .pace h (pace_notMem_writes i)
  | error e =>
    rw [accept, hd] at h
    exact transact_changesOnly (refuse_changesOnly s) h .pace (by decide)

/-- Whatever the port does, it uses up no entry of `pace`. -/
theorem servePort_pace {s t : State} (h : servePort s = .next t) : t.pace = s.pace := by
  obtain rfl | ⟨rest, rfl⟩ | ⟨x, rest, -, -, ha⟩ := servePort_cases h
  · rfl
  · rfl
  · exact accept_pace (s := { s with port := rest }) ha

/-- While the command is at work a step uses up one entry of `pace`, whatever the port does. -/
theorem step_busy_pace {s : State} {later : List Bool} (hb : s.status.busy = true)
    (hl : s.pace = true :: later) : ∃ t, step s = .next t ∧ t.pace = later := by
  rw [step_busy_wait hb hl]
  obtain ⟨t, ht⟩ := servePort_next { s with pace := later }
  exact ⟨t, ht, servePort_pace ht⟩

/-- Every state is idle within `pace.length + 1` steps: while the command is at work a step uses up
one entry of `pace`, and any other step of a busy state completes the command. -/
theorem exists_run_idle (s : State) : ∃ k u, k ≤ s.pace.length + 1 ∧
    Sys2Proof.core.run k s = .next u ∧ u.status.busy = false := by
  cases hb : s.status.busy with
  | false => exact ⟨0, s, Nat.zero_le _, rfl, hb⟩
  | true =>
    by_cases hl : s.pace.head? = some true
    · obtain ⟨later, hl⟩ := List.head?_eq_some_iff.mp hl
      obtain ⟨t, hstep, hpace⟩ := step_busy_pace hb hl
      obtain ⟨k, u, hk, hrun, hidle⟩ := exists_run_idle t
      have hk : k + 1 ≤ s.pace.length + 1 := by simpa [hl, hpace] using hk
      exact ⟨k + 1, u, hk, (run_succ hstep).trans hrun, hidle⟩
    · obtain ⟨u, hstep, hidle, -⟩ := step_completes hb hl
      exact ⟨1, u, by omega, run_succ hstep, hidle⟩
termination_by s.pace.length
decreasing_by simp [hl, hpace]

/-- Settles O12: `exists_run_idle`, by recursion on what `pace` holds. -/
theorem busyEnds : Obligations.BusyEnds := fun s _ => exists_run_idle s

/-! ### The reset input (R350, R351) -/

theorem servePort_reset {s : State} {rest : List HostEvent}
    (hp : s.port = .assertReset :: rest) : servePort s = .next (s.assertReset rest) := by
  rw [servePort, hp]

/-- R351: a reset behind a held transaction drops it. -/
theorem servePort_held_reset {s : State} {x : Txn} {rest : List HostEvent}
    (hp : s.port = .present x :: .assertReset :: rest)
    (hh : s.holds x.isStatusRead = true) : servePort s = .next (s.assertReset rest) := by
  simp only [servePort, hp, hh, if_true]

@[simp] theorem cbAt_empty (b : Byte) : cbAt (Vector.replicate 256 []) b = [] := by
  rw [cbAt, Vector.getElem_replicate]

@[simp] theorem nodeAt_empty (i : Nat) :
    nodeAt (Vector.replicate 511 Node.unused) i = Node.unused := by
  unfold nodeAt
  split
  · exact Vector.getElem_replicate _
  · rfl

/-- Settles O15: the port is served at once, idle (`step_idle`) or while the command is at work
(`step_busy_wait`); the tables of the reset state are empty. -/
theorem resetInputGivesTheResetState : Obligations.ResetInputGivesTheResetState := by
  refine ⟨fun s rest hp => ⟨fun hb => ?_, fun hb later hl => ?_⟩,
    fun s x rest later hp hne hb hl => ?_, fun cap bitCap => ?_⟩
  · exact (step_idle hb).trans (servePort_reset hp)
  · exact (step_busy_wait hb hl).trans (servePort_reset (s := { s with pace := later }) hp)
  · have hx : x.isStatusRead = false := Bool.eq_false_iff.mpr (mt (isStatusRead_iff x).mp hne)
    exact (step_busy_wait hb hl).trans
      (servePort_held_reset (s := { s with pace := later }) hp (by simp [State.holds, hb, hx]))
  · have hstatus : (State.resetWith cap bitCap).status.word = 0 :=
      BitVec.eq_of_toNat_eq (Status.word_toNat _)
    have herr : (State.resetWith cap bitCap).errInfo.word = 0 :=
      BitVec.eq_of_toNat_eq (ErrInfo.word_toNat _)
    have hctrl : (State.resetWith cap bitCap).ctrl.word = 0 :=
      BitVec.eq_of_toNat_eq (Ctrl.word_toNat _)
    exact ⟨rfl, hstatus, herr, rfl, hctrl, rfl, rfl, rfl, rfl, rfl, rfl, rfl, rfl, rfl, rfl, rfl,
      ftAt_empty, fun i _ => nodeAt_empty i, cbAt_empty⟩

end Sys2Proof.Machine
